-- ==== Sys2Proof/Word.lean ====
section
/-! DEFINITION. The word types of the block: the widths of 00_scope.md rule R4 that the spec fixes. -/

namespace Sys2Proof

/-- Eight bits: a byte of a command, of `TXBUF`, of the display link. -/
abbrev Byte := BitVec 8

/-- `TICK_W` = 32 bits: a Tick, a Duration and all tick arithmetic (R4, R23; PRESUMED by the spec's decision D2, log entry 12). -/
abbrev Tick := BitVec 32

/-- Sixteen bits: `LEN_W`, and the `value` operand of DSP.COUNTER (R4, R72). -/
abbrev Half := BitVec 16

end Sys2Proof
end

