-- ==== Sys2Proof/Syntax.lean ====
section
/-! DEFINITION. The thirteen commands as syntax (30_encoding.md R70, R73), their opcodes and formats as data, and the closed list of
refusal reasons (60_exceptions.md R173). -/

namespace Sys2Proof

/-- One constructor per row of the opcode map (R73), with the operands of the row's format. -/
inductive Instr where
  /-- TICK.START (R100). -/
  | tickStart
  /-- TICK.NOW (R102). -/
  | tickNow
  /-- TICK.WAIT dur (R103). -/
  | tickWait (dur : Tick)
  /-- UART.DIV baud, clk (R113). -/
  | uartDiv (baud clk : BitVec 32)
  /-- UART.TX timeout, len, data (R115). -/
  | uartTx (timeout : Tick) (len : Half) (data : List Byte)
  /-- DSP.START (R131). -/
  | dspStart
  /-- DSP.BYTE value (R132). -/
  | dspByte (value : Byte)
  /-- DSP.ACK (R133). -/
  | dspAck
  /-- DSP.STOP (R134). -/
  | dspStop
  /-- DSP.DIGITS d0, d1, d2, d3, colon (R141). -/
  | dspDigits (d0 d1 d2 d3 colon : Byte)
  /-- DSP.BRIGHT level (R143). -/
  | dspBright (level : Byte)
  /-- DSP.COUNTER value (R145). -/
  | dspCounter (value : Half)
  /-- DSP.CLOCK hours, minutes (R147). -/
  | dspClock (hours minutes : Byte)
  deriving DecidableEq, Repr

/-- The rows of the opcode map (R73), without operands. -/
inductive Opcode where
  | tickStart | tickNow | tickWait | uartDiv | uartTx
  | dspStart | dspByte | dspAck | dspStop | dspDigits | dspBright | dspCounter | dspClock
  deriving DecidableEq, Repr

/-- The eight command formats of R70. -/
inductive Format where
  | f0 | f1 | f2 | fh | fw | fd | f5 | ft
  deriving DecidableEq, Repr

/-- The closed list of reasons for which a command is refused (R173). A refused command is no stop of the machine: it changes nothing
and the next command is accepted. -/
inductive RefusalReason where
  /-- An opcode byte outside the opcode map (R74). -/
  | reservedOpcode
  /-- Fewer bytes than the format needs (R74). -/
  | truncated
  /-- UART.DIV with `baud = 0` (R113). -/
  | baudZero
  /-- UART.DIV with `BRR_SET = 1` (R113). -/
  | divisorAlreadySet
  /-- UART.DIV whose mantissa does not fit 12 bits (R113). -/
  | mantissaOverflow
  /-- DSP.DIGITS with a digit above 9 (R141). -/
  | digitOutOfRange
  /-- DSP.DIGITS with `colon` above 1 (R141). -/
  | colonNotBoolean
  /-- DSP.BRIGHT with `level` above 7 (R143). -/
  | brightnessOutOfRange
  /-- DSP.COUNTER with `value` above 9999 (R145). -/
  | counterOutOfRange
  /-- DSP.CLOCK with `hours` or `minutes` above 99 (R147). -/
  | clockOutOfRange
  deriving DecidableEq, Repr

/-- The row of the opcode map a command belongs to. -/
def Instr.opcode : Instr → Opcode
  | .tickStart => .tickStart
  | .tickNow => .tickNow
  | .tickWait _ => .tickWait
  | .uartDiv _ _ => .uartDiv
  | .uartTx _ _ _ => .uartTx
  | .dspStart => .dspStart
  | .dspByte _ => .dspByte
  | .dspAck => .dspAck
  | .dspStop => .dspStop
  | .dspDigits _ _ _ _ _ => .dspDigits
  | .dspBright _ => .dspBright
  | .dspCounter _ => .dspCounter
  | .dspClock _ _ => .dspClock

end Sys2Proof
end

