-- ==== Sys2Proof/WellFormed.lean ====
section
/-! DEFINITION. Which terms of `Instr` a command can be: the only relation between operands is that UART.TX carries exactly `len`
bytes (30_encoding.md R70, format FT). Every other operand value is a legal encoding; the ranges of R75 are refusals at execution. -/

namespace Sys2Proof

/-- The command can be encoded: the payload of UART.TX has the length its `len` operand says (R70). -/
def Instr.wellFormed : Instr → Bool
  | .uartTx _ len data => data.length == len.toNat
  | .tickStart => true
  | .tickNow => true
  | .tickWait _ => true
  | .uartDiv _ _ => true
  | .dspStart => true
  | .dspByte _ => true
  | .dspAck => true
  | .dspStop => true
  | .dspDigits _ _ _ _ _ => true
  | .dspBright _ => true
  | .dspCounter _ => true
  | .dspClock _ _ => true

/-- `i` is a well-formed command. -/
abbrev WellFormed (i : Instr) : Prop := i.wellFormed = true

end Sys2Proof
end

