-- ==== Sys2Proof/Decode.lean ====
section
/-! DEFINITION. The byte encoding of the command port (30_encoding.md sections 1 to 5): the opcode map, operand assembly, the decoder
on any bytes and the encoder, all from R70 to R76. -/

namespace Sys2Proof

/-- The opcode byte of a row of the map (R73). -/
def Opcode.byte : Opcode → Byte
  | .tickStart => 0x01
  | .tickNow => 0x02
  | .tickWait => 0x03
  | .uartDiv => 0x10
  | .uartTx => 0x11
  | .dspStart => 0x20
  | .dspByte => 0x21
  | .dspAck => 0x22
  | .dspStop => 0x23
  | .dspDigits => 0x24
  | .dspBright => 0x25
  | .dspCounter => 0x26
  | .dspClock => 0x27

/-- Every row of the opcode map, in its order (R73). -/
def Opcode.all : List Opcode :=
  [.tickStart, .tickNow, .tickWait, .uartDiv, .uartTx, .dspStart, .dspByte, .dspAck, .dspStop, .dspDigits, .dspBright,
    .dspCounter, .dspClock]

/-- The row an opcode byte selects; `none` for a reserved byte. All eight bits are significant (R73, R74). -/
def Opcode.ofByte (b : Byte) : Option Opcode := Opcode.all.find? (fun op => op.byte == b)

/-- The format column of the opcode map (R73). -/
def Opcode.format : Opcode → Format
  | .tickStart => .f0
  | .tickNow => .f0
  | .tickWait => .fw
  | .uartDiv => .fd
  | .uartTx => .ft
  | .dspStart => .f0
  | .dspByte => .f1
  | .dspAck => .f0
  | .dspStop => .f0
  | .dspDigits => .f5
  | .dspBright => .f1
  | .dspCounter => .fh
  | .dspClock => .f2

/-- The length of a command of a format in bytes, given the value of the `len` field that only FT has (R70, R76). -/
def Format.byteLength (len : Nat) : Format → Nat
  | .f0 => 1
  | .f1 => 2
  | .f2 => 3
  | .fh => 3
  | .fw => 5
  | .fd => 9
  | .f5 => 6
  | .ft => 7 + len

/-- A 16-bit operand from its two bytes, the lower offset first (R54, R72). -/
def half (b0 b1 : Byte) : Half := b1 ++ b0

/-- A 32-bit operand from its four bytes, the lower offset first (R54, R72). -/
def word (b0 b1 b2 b3 : Byte) : BitVec 32 := b3 ++ b2 ++ b1 ++ b0

/-- Byte `k` of a value: bits `8k+7` to `8k`. -/
def byteAt {w : Nat} (v : BitVec w) (k : Nat) : Byte := v.extractLsb' (8 * k) 8

/-- The two bytes of a 16-bit value, the lower offset first (R54). -/
def halfBytes (v : Half) : List Byte := [byteAt v 0, byteAt v 1]

/-- The four bytes of a 32-bit value, the lower offset first (R54). -/
def wordBytes (v : BitVec 32) : List Byte := [byteAt v 0, byteAt v 1, byteAt v 2, byteAt v 3]

/-- The operands of a command, read from the bytes after the opcode byte as its format lays them out (R70, R72), with the bytes that
follow the command; a sequence that ends before the format's last byte is refused (R74). -/
def decodeOperands (op : Opcode) (bs : List Byte) : Except RefusalReason (Instr × List Byte) :=
  match op with
  | .tickStart => .ok (.tickStart, bs)
  | .tickNow => .ok (.tickNow, bs)
  | .tickWait =>
    match bs with
    | b0 :: b1 :: b2 :: b3 :: rest => .ok (.tickWait (word b0 b1 b2 b3), rest)
    | _ => .error .truncated
  | .uartDiv =>
    match bs with
    | b0 :: b1 :: b2 :: b3 :: c0 :: c1 :: c2 :: c3 :: rest => .ok (.uartDiv (word b0 b1 b2 b3) (word c0 c1 c2 c3), rest)
    | _ => .error .truncated
  | .uartTx =>
    match bs with
    | t0 :: t1 :: t2 :: t3 :: l0 :: l1 :: rest =>
      if rest.length < (half l0 l1).toNat then .error .truncated
      else .ok (.uartTx (word t0 t1 t2 t3) (half l0 l1) (rest.take (half l0 l1).toNat), rest.drop (half l0 l1).toNat)
    | _ => .error .truncated
  | .dspStart => .ok (.dspStart, bs)
  | .dspByte =>
    match bs with
    | a :: rest => .ok (.dspByte a, rest)
    | _ => .error .truncated
  | .dspAck => .ok (.dspAck, bs)
  | .dspStop => .ok (.dspStop, bs)
  | .dspDigits =>
    match bs with
    | d0 :: d1 :: d2 :: d3 :: colon :: rest => .ok (.dspDigits d0 d1 d2 d3 colon, rest)
    | _ => .error .truncated
  | .dspBright =>
    match bs with
    | a :: rest => .ok (.dspBright a, rest)
    | _ => .error .truncated
  | .dspCounter =>
    match bs with
    | b0 :: b1 :: rest => .ok (.dspCounter (half b0 b1), rest)
    | _ => .error .truncated
  | .dspClock =>
    match bs with
    | a :: b :: rest => .ok (.dspClock a b, rest)
    | _ => .error .truncated

/-- The decoder, total on any bytes: the first command of a byte sequence with the bytes after it (R71, R76), or the reason it is
refused (R74). A sequence of no bytes has no opcode and counts as truncated (DESIGN CHOICE, log entry 6). -/
def decode : List Byte → Except RefusalReason (Instr × List Byte)
  | [] => .error .truncated
  | b :: bs =>
    match Opcode.ofByte b with
    | some op => decodeOperands op bs
    | none => .error .reservedOpcode

/-- The operand bytes of a command in the order of its format (R70). -/
def encodeOperands : Instr → List Byte
  | .tickStart => []
  | .tickNow => []
  | .tickWait dur => wordBytes dur
  | .uartDiv baud clk => wordBytes baud ++ wordBytes clk
  | .uartTx timeout len data => wordBytes timeout ++ halfBytes len ++ data
  | .dspStart => []
  | .dspByte value => [value]
  | .dspAck => []
  | .dspStop => []
  | .dspDigits d0 d1 d2 d3 colon => [d0, d1, d2, d3, colon]
  | .dspBright level => [level]
  | .dspCounter value => halfBytes value
  | .dspClock hours minutes => [hours, minutes]

/-- The bytes of a well-formed command: opcode byte, then operands (R70). -/
def encode (i : Instr) : List Byte := i.opcode.byte :: encodeOperands i

/-- The bytes of an instruction whose bits are `w`, numbered as the opcode table numbers them, every bit from `nbits` on being 0: as
many bytes as the command has (R76), or `nbits / 8` (at least one) where the first byte is reserved. -/
def tableBytes (nbits w : Nat) : List Byte :=
  let v := w % 2 ^ nbits
  let at_ : Nat → Byte := fun k => BitVec.ofNat 8 (v / 256 ^ k)
  let n := match Opcode.ofByte (at_ 0) with
    | some op => op.format.byteLength (half (at_ 5) (at_ 6)).toNat
    | none => max 1 (nbits / 8)
  (List.range n).map at_

/-- What the decoder reads from the bits `w` (the host's question, one word for each row of the opcode table). -/
def decodeTableWord (nbits w : Nat) : Option Instr :=
  match decode (tableBytes nbits w) with
  | .ok (i, _) => some i
  | .error _ => none

end Sys2Proof
end

