-- ==== Sys2Proof/Config.lean ====
section
/-! DEFINITION. What is fixed for one machine and what the spec leaves free: the OPEN parameters of 00_scope.md R4, the draws of
70_reset_and_hazards.md R202, and the free choices of TMR and of the UART environment. Each is an opaque constant with no body, so a
statement that mentions none of their values holds for every value. -/

namespace Sys2Proof

/-- The three delays of the display engine (R130). -/
inductive DelayKind where
  | short | mid | long
  deriving DecidableEq, Repr

/-- The three sampled UART conditions `U_ERR`, `U_TXRDY`, `U_TC` (R32). -/
inductive UartCond where
  | err | ready | complete
  deriving DecidableEq, Repr

/-- The display's constants (R4, R80): the segment table and the three command bytes are named by the source and given no value. -/
structure DisplayConsts where
  /-- `SEG[0..9]` (R52). -/
  seg : Fin 10 → Byte
  /-- `COLON_MASK`. -/
  colonMask : Byte
  /-- `CMD_DATA`, "set address, auto-increment". -/
  cmdData : Byte
  /-- `CMD_ADDR`, "display data start address". -/
  cmdAddr : Byte
  /-- `CMD_BRIGHT`, OR'd with the 3-bit level. -/
  cmdBright : Byte
  deriving Inhabited

/-- The registers whose reset value the spec leaves unspecified (R20, R200): one value for each. -/
structure ResetDraw where
  tick : Tick
  brrMant : BitVec 12
  brrFrac : BitVec 4
  txStart : Tick
  txTimeout : Tick
  txIdx : Half
  txLen : Half
  resStatus : BitVec 2
  resTick : Tick
  wStart : Tick
  wDur : Tick
  pinClk : Bool
  pinDio : Bool
  sbShift : Byte
  sbCnt : BitVec 4
  deriving Inhabited, DecidableEq, Repr

/-- The display constants of this machine (OPEN, decision D16; log entry 10). -/
opaque Config.display : DisplayConsts

/-- `D_SHORT`, `D_MID`, `D_LONG` in ticks (OPEN, decision D15; log entry 11). -/
opaque Config.delayTicks : DelayKind → Tick

/-- `BRIGHT_RESET`, in 0..7 (OPEN, decision D21; log entry 9). -/
opaque Config.brightReset : Fin 8

/-- `COLON_RESET` (OPEN, decision D21; log entry 9). -/
opaque Config.colonReset : Bool

/-- The draw of every register left unspecified after reset (R202, decision D21; DESIGN CHOICE, log entry 8). -/
opaque Config.resetDraw : ResetDraw

/-- `OSC_READY` (OPEN, R206, decision D27; log entry 19). -/
opaque Config.oscReady : Bool

/-- `ITER_DELAY`, the scheduler's `fixedIterationDelay` in ticks (OPEN, R160, decision D26; log entry 18). -/
opaque Config.iterDelay : Tick

/-- The number of entries of `TASKS` (OPEN, R162, decision D26; log entry 18). -/
opaque Config.taskCount : Nat

/-- `TASKS` (OPEN, R161, decision D26; log entry 18): the command the `run_once` of a task issues after `issued` commands of the same
invocation, in the given iteration of `Run()`, knowing every response delivered so far; `none` when `run_once` has ended. -/
opaque Config.taskCommand : (task iteration issued : Nat) → (received : List (List Byte)) → Option { i : Instr // WellFormed i }

/-- The free number of `OnTick` steps TMR takes before a micro-step of FG, by the number of earlier draws (R6, R182; log entry 2). -/
opaque Config.ticksBefore : Nat → Nat

/-- The free answer of the UART environment to a sample, by condition and number of earlier draws (R32; log entry 3). -/
opaque Config.uartAnswer : UartCond → Nat → Bool

/-- `COUNTER_COLON` = zero: the colon operand DSP.COUNTER passes on (R4, R145, decision D19). -/
def Config.counterColon : Byte := 0

/-- The suggested defaults of the display constants (R4, part 2 of 93_implementation_defined.md, G3: from general knowledge). No rule
of the model uses them: the tests check the "defaults" column of 95_test_vectors.md with them. -/
def Config.suggestedDisplay : DisplayConsts where
  seg := fun d => ([0x3F, 0x06, 0x5B, 0x4F, 0x66, 0x6D, 0x7D, 0x07, 0x7F, 0x6F] : List Byte).getD d.val 0
  colonMask := 0x80
  cmdData := 0x40
  cmdAddr := 0xC0
  cmdBright := 0x88

end Sys2Proof
end

