-- ==== Sys2Proof/Machine/State.lean ====
section
/-! DEFINITION. The machine's state as plain data: the 22 registers of 10_state.md R20, the spaces of 20_memory.md R50, the event log of
R40, the host and the environment at the block's boundary; the micro-steps of 00_scope.md R6; the fault and refusal names; the state
after reset (70_reset_and_hazards.md R200). -/

namespace Sys2Proof.Machine

/-- The two pins of the display link (R35). -/
inductive Pin where
  | clk | dio
  deriving DecidableEq, Repr

/-- The observable events of `LOG` (R40). -/
inductive Event where
  /-- `Pin(p, v)`: the pin is driven to a level (`true` = high). -/
  | pin (p : Pin) (v : Bool)
  /-- `Wait(k)`: a delay of the display engine has ended (R130). -/
  | wait (k : DelayKind)
  /-- `UartWr(b)`: a byte is written to the UART data port. -/
  | uartWr (b : Byte)
  /-- `Tick`: TMR took one `OnTick` step (optional in R40; recorded here, log entry 20). -/
  | tick
  deriving DecidableEq, Repr

/-- `TIMER_PERIOD` (R25). -/
inductive TimerPeriod where
  | unconfigured | p1ms
  deriving DecidableEq, Repr

/-- `TX_STATE` (R29). -/
inductive TxState where
  | idle | waitReady | waitComplete
  deriving DecidableEq, Repr

/-- TransferStatus (R31, R82): the outcome of a UART.TX. -/
inductive TransferStatus where
  | ok | error | timeout
  deriving DecidableEq, Repr

/-- One micro-step of FG (R6): a register write, or a primitive with the latch of its answer. A test that follows a micro-step and
reads only what that step left is made with it (log entry 15). -/
inductive Micro where
  /-- `TIMER_PERIOD <- P_1MS` (R100). -/
  | periodSet
  /-- `TICK <- 0` (R100). -/
  | tickZero
  /-- `TIMER_ARMED <- 1` (R100). -/
  | timerArm
  /-- `RES_TICK <- Now()` (R102). -/
  | resTickLatch
  /-- `W_DUR <- dur` (R103). -/
  | durSet (d : Tick)
  /-- `W_DUR <- D_k` (R130). -/
  | delayDur (k : DelayKind)
  /-- `W_START <- Now()` (R103, R130). -/
  | waitSample
  /-- `t <- Now()` with the exit test of TICK.WAIT (R103). -/
  | waitTest
  /-- `t <- Now()` with the exit test of `Delay(k)`, and `Wait(k)` when it ends (R130). -/
  | delayTest (k : DelayKind)
  /-- `BRR_MANT <- m` (R113). -/
  | brrMantSet (m : BitVec 12)
  /-- `BRR_FRAC <- f` (R113). -/
  | brrFracSet (f : BitVec 4)
  /-- `BRR_SET <- 1` (R113). -/
  | brrSetMark
  /-- `TX_TIMEOUT <- timeout`; the payload enters `TXBUF` with it (R115, R51). -/
  | txTimeoutSet (t : Tick) (data : List Byte)
  /-- `TX_LEN <- len` (R115). -/
  | txLenSet (n : Half)
  /-- `TX_IDX <- 0` (R115). -/
  | txIdxZero
  /-- `TX_START <- Now()` (R115, R120). -/
  | txStartSample
  /-- `TX_STATE <- WAIT_READY`, then the test of the byte loop (R115). -/
  | txEnterReady
  /-- `UartErr()` of a poll of the byte loop (R116 (1)). -/
  | readyErr
  /-- `UartReady()` of a poll of the byte loop (R116 (2)). -/
  | readyPoll
  /-- `UartWrite(TXBUF[TX_IDX])` (R116 (2)). -/
  | txWrite
  /-- `TX_IDX <- TX_IDX + 1`, then the test of the byte loop (R116 (2)). -/
  | txIdxIncr
  /-- `Now()` with the timeout test of the byte loop (R116 (3)). -/
  | readyTime
  /-- `TX_STATE <- WAIT_COMPLETE` (R115). -/
  | txEnterComplete
  /-- `UartErr()` of a poll of the completion wait (R117 (1)). -/
  | completeErr
  /-- `UartComplete()` of a poll of the completion wait (R117 (2)). -/
  | completePoll
  /-- `Now()` with the timeout test of the completion wait (R117 (3)). -/
  | completeTime
  /-- `RES_STATUS <- s`, the first write of `finish(s)` (R115). -/
  | resStatusSet (st : TransferStatus)
  /-- `TX_STATE <- IDLE`, the second write of `finish(s)` (R115). -/
  | txEnterIdle
  /-- `SetPin(p, v)` (R7). -/
  | pinSet (p : Pin) (v : Bool)
  /-- `SetPin(DIO, SB_SHIFT[0])` (R132). -/
  | dioBit
  /-- `SB_SHIFT <- value` (R132). -/
  | shiftSet (v : Byte)
  /-- `SB_CNT <- 0`, then the test of the bit loop (R132). -/
  | cntZero
  /-- `SB_SHIFT <- SB_SHIFT >> 1` (R132). -/
  | shiftRight
  /-- `SB_CNT <- SB_CNT + 1`, then the test of the bit loop (R132). -/
  | cntIncr
  /-- `BRIGHT <- level` (R143). -/
  | brightSet (v : Byte)
  /-- `COLON <- COLON xor 1` (R147). -/
  | colonToggle
  deriving DecidableEq, Repr

/-- `SEQ` (R22): idle, or the command in progress and the micro-steps that remain of it. -/
inductive Seq where
  | idle
  | busy (cmd : Instr) (rest : List Micro)
  deriving DecidableEq, Repr

/-- What the host does when it has no command sequence waiting to be issued (R160, R165). -/
inductive HostPhase where
  /-- `Run()` has not been entered: the host issues only what is placed in its queue. -/
  | manual
  /-- In `Run()`, iteration `iter`: the next command is TICK.WAIT ITER_DELAY. -/
  | runWait (iter : Nat)
  /-- In `Run()`, iteration `iter`: the `run_once` of task `task` has issued `issued` commands. -/
  | runTask (iter task issued : Nat)
  deriving DecidableEq, Repr

/-- The host at the command port (44_scheduler_host.md). -/
structure HostState where
  /-- Command byte sequences the host is going to issue, the next one first (R70, R71). -/
  queue : List (List Byte)
  /-- What it does when `queue` is empty. -/
  phase : HostPhase
  /-- The responses delivered to it, oldest first (R83). -/
  received : List (List Byte)
  /-- `OSC_READY` (R206): if false the host never issues a command. -/
  oscReady : Bool
  deriving DecidableEq, Repr

/-- The model's own record of the free choices of TMR and of the UART environment: prescribed ones, used first, and how many have been
drawn from Config since (log entries 2, 3, 25). -/
structure Environment where
  /-- Numbers of `OnTick` steps prescribed for the next micro-steps, the next one first. -/
  tickScript : List Nat
  /-- How many numbers have been drawn from `Config.ticksBefore`. -/
  tickDraws : Nat
  /-- UART answers prescribed for the next samples, the next one first. -/
  answerScript : List Bool
  /-- How many answers have been drawn from `Config.uartAnswer`. -/
  answerDraws : Nat
  deriving DecidableEq, Repr

/-- The whole state. The first 22 fields are the registers 0 to 21 of R20, in its order. -/
structure State where
  /-- 0: `TICK` (R23). -/
  tick : Tick
  /-- 1: `TIMER_ARMED` (R24). -/
  timerArmed : Bool
  /-- 2: `TIMER_PERIOD` (R25). -/
  timerPeriod : TimerPeriod
  /-- 3: `BRR_MANT` (R27). -/
  brrMant : BitVec 12
  /-- 4: `BRR_FRAC` (R27). -/
  brrFrac : BitVec 4
  /-- 5: `BRR_SET` (R28). -/
  brrSet : Bool
  /-- 6: `TX_STATE` (R29). -/
  txState : TxState
  /-- 7: `TX_START` (R30). -/
  txStart : Tick
  /-- 8: `TX_TIMEOUT` (R30). -/
  txTimeout : Tick
  /-- 9: `TX_IDX` (R30). -/
  txIdx : Half
  /-- 10: `TX_LEN` (R30). -/
  txLen : Half
  /-- 11: `RES_STATUS` (R31). -/
  resStatus : BitVec 2
  /-- 12: `RES_TICK` (R26). -/
  resTick : Tick
  /-- 13: `W_START` (R26). -/
  wStart : Tick
  /-- 14: `W_DUR` (R26). -/
  wDur : Tick
  /-- 15: `BRIGHT` (R33). -/
  bright : Byte
  /-- 16: `COLON` (R34). -/
  colon : Bool
  /-- 17: `PIN_CLK` (R35). -/
  pinClk : Bool
  /-- 18: `PIN_DIO` (R35). -/
  pinDio : Bool
  /-- 19: `SB_SHIFT` (R36). -/
  sbShift : Byte
  /-- 20: `SB_CNT` (R36). -/
  sbCnt : BitVec 4
  /-- 21: `SEQ` (R22). -/
  seq : Seq
  /-- `TXBUF` (R51). -/
  txbuf : List Byte
  /-- `LOG`, oldest event first (R40). -/
  log : List Event
  /-- The run's "refused" mark with its reasons, oldest first (R173). -/
  refusals : List RefusalReason
  /-- The host (R160 to R166). -/
  host : HostState
  /-- The free choices of TMR and of the UART environment (R6, R32). -/
  env : Environment
  deriving DecidableEq, Repr

/-- Why the machine stops. The block itself defines no fault (R170). -/
inductive Fault where
  /-- Raised by `UartWrite(TXBUF[TX_IDX])` when `TX_IDX` is outside `TXBUF`. Safe: R51 says the index cannot be out of range, and no
  state that meets `Safety.RunInv` raises it. -/
  | txbufIndex
  deriving DecidableEq, Repr

/-- Why the model gives no next state. -/
inductive Refusal where
  /-- Raised by an arm of `exec` whose instruction has no meaning yet. Safe. No arm raises it. -/
  | notModelled (mnemonic : String)
  /-- Raised by `exec` when it is asked to run one command while another is in progress, which R165 says the host never does. Safe:
  `step` never asks for it. -/
  | commandInProgress
  deriving DecidableEq, Repr

/-- The state after reset (R200, R201): the registers at the reset column of R20, nothing logged, nothing refused, and a host that has
issued nothing. Registers the spec leaves unspecified hold the draw `Config.resetDraw` (log entry 8). -/
def State.reset : State where
  tick := Config.resetDraw.tick
  timerArmed := false
  timerPeriod := .unconfigured
  brrMant := Config.resetDraw.brrMant
  brrFrac := Config.resetDraw.brrFrac
  brrSet := false
  txState := .idle
  txStart := Config.resetDraw.txStart
  txTimeout := Config.resetDraw.txTimeout
  txIdx := Config.resetDraw.txIdx
  txLen := Config.resetDraw.txLen
  resStatus := Config.resetDraw.resStatus
  resTick := Config.resetDraw.resTick
  wStart := Config.resetDraw.wStart
  wDur := Config.resetDraw.wDur
  bright := BitVec.ofNat 8 Config.brightReset.val
  colon := Config.colonReset
  pinClk := Config.resetDraw.pinClk
  pinDio := Config.resetDraw.pinDio
  sbShift := Config.resetDraw.sbShift
  sbCnt := Config.resetDraw.sbCnt
  seq := .idle
  txbuf := []
  log := []
  refusals := []
  host := { queue := [], phase := .manual, received := [], oscReady := Config.oscReady }
  env := { tickScript := [], tickDraws := 0, answerScript := [], answerDraws := 0 }

end Sys2Proof.Machine
end

