-- ==== Sys2Proof/Machine/Flags.lean ====
section
/-! DEFINITION. The flag-like computations of the block (10_state.md R37): there are no arithmetic condition codes; what stands in
their place is the wrapped-difference test of every timed wait, the status code, and the packed divisor view. -/

namespace Sys2Proof.Machine

/-- The exit test of every timed wait: `now -_32 start >= dur`, all unsigned (R103, R115, R130). -/
def elapsedAtLeast (now start dur : Tick) : Bool := decide (dur ≤ now - start)

/-- The numeric code of a status: Ok = 0, Error = 1, Timeout = 2 (R82, decision D5). -/
def statusCode : TransferStatus → BitVec 2
  | .ok => 0
  | .error => 1
  | .timeout => 2

/-- The packed view `BRR = BRR_MANT ++ BRR_FRAC` presented to the UART collaborator (R27, R81; PRESUMED by decision D8). -/
def brr (s : State) : BitVec 16 := s.brrMant ++ s.brrFrac

end Sys2Proof.Machine
end

