-- ==== Sys2Proof/Machine/Operands.lean ====
section
/-! DEFINITION. The operand forms of the commands: the baud-rate divisor (41_seriallink.md R110, R111), decimal digits (43 R144, R146),
digit and colon operands (R141), and the bytes formed from them for the display link (30_encoding.md R80). -/

namespace Sys2Proof.Machine

/-- `K`, the quotient `clk / (16 baud)` rounded half up to four decimals and scaled by 10^4 (R111). -/
def divisorK (baud clk : Nat) : Nat := (20000 * clk + 16 * baud) / (32 * baud)

/-- `s = ceil(16 f / 10000)` of the four decimal digits `f`, 0..16 (R111). -/
def divisorS (k : Nat) : Nat := (16 * (k % 10000) + 9999) / 10000

/-- `ComputeDivisor(baud, clk)` in its integer form (R111), for `baud >= 1`: the mantissa, and the fraction 0..15. -/
def computeDivisor (baud clk : Nat) : Nat × Nat :=
  let k := divisorK baud clk
  let s := divisorS k
  (k / 10000 + (if s = 16 then 1 else 0), s % 16)

/-- A digit operand, legal 0..9 (R141); `none` for a larger value. -/
def digit? (d : Byte) : Option (Fin 10) := if h : d.toNat < 10 then some ⟨d.toNat, h⟩ else none

/-- A colon operand, legal 0 and 1 (R141, decision D18); `none` for a larger value. -/
def colon? (c : Byte) : Option Bool := if c = 0 then some false else if c = 1 then some true else none

/-- `Digits4(v)`, most significant digit first (R144). -/
def digits4 (v : Nat) : List Byte :=
  [BitVec.ofNat 8 (v / 1000), BitVec.ofNat 8 (v / 100 % 10), BitVec.ofNat 8 (v / 10 % 10), BitVec.ofNat 8 (v % 10)]

/-- `ClockDigits(h, m)`, hours in the two left positions (R146, decision D20). -/
def clockDigits (h m : Nat) : List Byte :=
  [BitVec.ofNat 8 (h / 10), BitVec.ofNat 8 (h % 10), BitVec.ofNat 8 (m / 10), BitVec.ofNat 8 (m % 10)]

/-- The four digit bytes of a frame; the colon mask goes into the second one only (R80, R141). -/
def frameBytes (c : DisplayConsts) (d0 d1 d2 d3 : Fin 10) (colon : Bool) : List Byte :=
  [c.seg d0, c.seg d1 ||| (if colon then c.colonMask else 0), c.seg d2, c.seg d3]

/-- The brightness command byte, `CMD_BRIGHT` OR'd with `BRIGHT[2:0]` (R80, R142). -/
def brightByte (c : DisplayConsts) (bright : Byte) : Byte := c.cmdBright ||| (bright &&& 7)

/-- The numbered view `x[i]` of the registers that have a width (R7, R20): the value of register number `i` as a natural number.
Registers 2 and 21 are abstract and have no number. R20 gives `TX_STATE` (register 6) two bits and three names and no codes: IDLE = 0,
WAIT_READY = 1, WAIT_COMPLETE = 2, the order of the names there, is the model's choice (DESIGN CHOICE, log entry 29). -/
def numberedView (s : State) (i : Nat) : Option Nat :=
  match i with
  | 0 => some s.tick.toNat
  | 1 => some s.timerArmed.toNat
  | 3 => some s.brrMant.toNat
  | 4 => some s.brrFrac.toNat
  | 5 => some s.brrSet.toNat
  | 6 => some (match s.txState with | .idle => 0 | .waitReady => 1 | .waitComplete => 2)
  | 7 => some s.txStart.toNat
  | 8 => some s.txTimeout.toNat
  | 9 => some s.txIdx.toNat
  | 10 => some s.txLen.toNat
  | 11 => some s.resStatus.toNat
  | 12 => some s.resTick.toNat
  | 13 => some s.wStart.toNat
  | 14 => some s.wDur.toNat
  | 15 => some s.bright.toNat
  | 16 => some s.colon.toNat
  | 17 => some s.pinClk.toNat
  | 18 => some s.pinDio.toNat
  | 19 => some s.sbShift.toNat
  | 20 => some s.sbCnt.toNat
  | _ => none

end Sys2Proof.Machine
end

