-- ==== Sys2Proof/Machine/Ops.lean ====
section
/-! DEFINITION. The named operations over the state: the collaborator primitives of 00_scope.md R7, the tick interrupt (40_tickclock.md
R101, 60_exceptions.md R179, R180), refusing and completing a command (R173, 30_encoding.md R83). -/

namespace Sys2Proof.Machine

/-- `Now()`: one atomic read of `TICK` (R56, R102). -/
def now (s : State) : Tick := s.tick

/-- `SEQ` is moved (R22). -/
def withSeq (q : Seq) (s : State) : State := { s with seq := q }

/-- An event is appended to `LOG` (R40). -/
def logEvent (e : Event) (s : State) : State := { s with log := s.log ++ [e] }

/-- `SetPin(p, v)`: the level is driven and the event recorded, also when the level repeats (R7, R57). -/
def setPin (p : Pin) (v : Bool) (s : State) : State :=
  match p with
  | .clk => { s with pinClk := v, log := s.log ++ [.pin .clk v] }
  | .dio => { s with pinDio := v, log := s.log ++ [.pin .dio v] }

/-- `UartWrite(b)`: one more byte is handed to the peripheral (R7, R57). -/
def uartWrite (b : Byte) (s : State) : State := logEvent (.uartWr b) s

/-- The environment's answer to a sample of a UART condition: the prescribed one, or a free one (R32). -/
def answerOf (c : UartCond) (e : Environment) : Bool :=
  match e.answerScript with
  | a :: _ => a
  | [] => Config.uartAnswer c e.answerDraws

/-- The record of the environment's choices after one more answer. -/
def answered (e : Environment) : Environment :=
  match e.answerScript with
  | _ :: rest => { e with answerScript := rest }
  | [] => { e with answerDraws := e.answerDraws + 1 }

/-- The state in which one of `UartErr()`, `UartReady()`, `UartComplete()` has been answered by `answerOf`: nothing of the block changes
(R32, R57). -/
def sampled (s : State) : State := { s with env := answered s.env }

/-- `OnTick`: taking the tick interrupt is this one atomic step (R101, R179). It saves nothing, and so returning from it restores
nothing: FG goes on with the micro-step it would have taken next (R180). -/
def onTick (s : State) : State := { s with tick := s.tick + 1, log := s.log ++ [.tick] }

/-- `n` steps of an armed TMR. -/
def ticks : Nat → State → State
  | 0, s => s
  | n + 1, s => ticks n (onTick s)

/-- TMR is offered `n` steps between two micro-steps of FG: `OnTick` is enabled only while `TIMER_ARMED = 1` (R6, R101). -/
def tickN (n : Nat) (s : State) : State := if s.timerArmed then ticks n s else s

/-- How many steps TMR takes before the next micro-step of FG: a prescribed number, or a free one (R6, R182). -/
def ticksChosen (e : Environment) : Nat :=
  match e.tickScript with
  | n :: _ => n
  | [] => Config.ticksBefore e.tickDraws

/-- The record of TMR's choices after one more. -/
def choseTicks (e : Environment) : Environment :=
  match e.tickScript with
  | _ :: rest => { e with tickScript := rest }
  | [] => { e with tickDraws := e.tickDraws + 1 }

/-- TMR's part of a step: while the timer is not armed it does not move and nothing is chosen (R101). -/
def tmr (s : State) : State := if s.timerArmed then ticks (ticksChosen s.env) { s with env := choseTicks s.env } else s

/-- `raise Refusal(reason)`: nothing changes but the run's mark, and the sequencer is idle (R173). -/
def refuse (r : RefusalReason) (s : State) : State := { s with seq := .idle, refusals := s.refusals ++ [r] }

/-- What a command delivers at its end (R83): TICK.NOW the four bytes of `RES_TICK`, UART.TX the code of `RES_STATUS` in one byte. -/
def response (i : Instr) (s : State) : List (List Byte) :=
  match i with
  | .tickStart => []
  | .tickNow => [wordBytes s.resTick]
  | .tickWait _ => []
  | .uartDiv _ _ => []
  | .uartTx _ _ _ => [[s.resStatus.setWidth 8]]
  | .dspStart => []
  | .dspByte _ => []
  | .dspAck => []
  | .dspStop => []
  | .dspDigits _ _ _ _ _ => []
  | .dspBright _ => []
  | .dspCounter _ => []
  | .dspClock _ _ => []

/-- `complete(...)`: the sequencer is idle and the result, if the command has one, is delivered (R22, R83). -/
def complete (i : Instr) (s : State) : State :=
  { s with seq := .idle, host := { s.host with received := s.host.received ++ response i s } }

end Sys2Proof.Machine
end

