-- ==== Sys2Proof/Machine/Micro.lean ====
section
/-! DEFINITION. What one micro-step of FG does and where the command goes on (00_scope.md R6): the pseudocode of 40 R100 to R103,
41 R113 to R117, 42 R130 to R134 and 43 R143, R147, one line a micro-step. -/

namespace Sys2Proof.Machine

/-- `Delay(k)` (R130). -/
def delay (k : DelayKind) : List Micro := [.delayDur k, .waitSample, .delayTest k]

/-- The body of the bit loop (R132). -/
def bitCell : List Micro :=
  [.pinSet .clk false, .dioBit] ++ delay .mid ++ [.pinSet .clk true] ++ delay .mid ++ [.shiftRight, .cntIncr]

/-- The test of the bit loop, `while SB_CNT < 8` (R132). -/
def bitLoop (s : State) (rest : List Micro) : List Micro := if s.sbCnt < 8 then bitCell ++ rest else rest

/-- The test of the byte loop, `while TX_IDX < TX_LEN`, and what follows the loop (R115). -/
def byteLoop (s : State) : List Micro := if s.txIdx < s.txLen then [.readyErr] else [.txEnterComplete]

/-- `finish(st)`: `RES_STATUS <- st; TX_STATE <- IDLE; complete(st)` (R115). -/
def finish (st : TransferStatus) : List Micro := [.resStatusSet st, .txEnterIdle]

/-- One micro-step `m` of FG in state `s`, with `rest` to come after it: the state it leaves and the micro-steps that remain. -/
def runMicro (m : Micro) (rest : List Micro) (s : State) : Except Fault (State × List Micro) :=
  match m with
  | .periodSet => .ok ({ s with timerPeriod := .p1ms }, rest)
  | .tickZero => .ok ({ s with tick := 0 }, rest)
  | .timerArm => .ok ({ s with timerArmed := true }, rest)
  | .resTickLatch => .ok ({ s with resTick := now s }, rest)
  | .durSet d => .ok ({ s with wDur := d }, rest)
  | .delayDur k => .ok ({ s with wDur := Config.delayTicks k }, rest)
  | .waitSample => .ok ({ s with wStart := now s }, rest)
  | .waitTest => .ok (s, if elapsedAtLeast (now s) s.wStart s.wDur then rest else .waitTest :: rest)
  | .delayTest k =>
    if elapsedAtLeast (now s) s.wStart s.wDur then .ok (logEvent (.wait k) s, rest) else .ok (s, .delayTest k :: rest)
  | .brrMantSet m => .ok ({ s with brrMant := m }, rest)
  | .brrFracSet f => .ok ({ s with brrFrac := f }, rest)
  | .brrSetMark => .ok ({ s with brrSet := true }, rest)
  | .txTimeoutSet t data => .ok ({ s with txTimeout := t, txbuf := data }, rest)
  | .txLenSet n => .ok ({ s with txLen := n }, rest)
  | .txIdxZero => .ok ({ s with txIdx := 0 }, rest)
  | .txStartSample => .ok ({ s with txStart := now s }, rest)
  | .txEnterReady => .ok ({ s with txState := .waitReady }, byteLoop s)
  | .readyErr => .ok (sampled s, if answerOf .err s.env then finish .error else [.readyPoll])
  | .readyPoll => .ok (sampled s, if answerOf .ready s.env then [.txWrite, .txIdxIncr] else [.readyTime])
  | .txWrite =>
    match s.txbuf[s.txIdx.toNat]? with
    | some b => .ok (uartWrite b s, rest)
    | none => .error .txbufIndex
  | .txIdxIncr => .ok ({ s with txIdx := s.txIdx + 1 }, byteLoop { s with txIdx := s.txIdx + 1 })
  | .readyTime => .ok (s, if elapsedAtLeast (now s) s.txStart s.txTimeout then finish .timeout else byteLoop s)
  | .txEnterComplete => .ok ({ s with txState := .waitComplete }, [.completeErr])
  | .completeErr => .ok (sampled s, if answerOf .err s.env then finish .error else [.completePoll])
  | .completePoll => .ok (sampled s, if answerOf .complete s.env then finish .ok else [.completeTime])
  | .completeTime => .ok (s, if elapsedAtLeast (now s) s.txStart s.txTimeout then finish .timeout else [.completeErr])
  | .resStatusSet st => .ok ({ s with resStatus := statusCode st }, rest)
  | .txEnterIdle => .ok ({ s with txState := .idle }, rest)
  | .pinSet p v => .ok (setPin p v s, rest)
  | .dioBit => .ok (setPin .dio (s.sbShift.getLsbD 0) s, rest)
  | .shiftSet v => .ok ({ s with sbShift := v }, rest)
  | .cntZero => .ok ({ s with sbCnt := 0 }, bitLoop { s with sbCnt := 0 } rest)
  | .shiftRight => .ok ({ s with sbShift := s.sbShift >>> 1 }, rest)
  | .cntIncr => .ok ({ s with sbCnt := s.sbCnt + 1 }, bitLoop { s with sbCnt := s.sbCnt + 1 } rest)
  | .brightSet v => .ok ({ s with bright := v }, rest)
  | .colonToggle => .ok ({ s with colon := !s.colon }, rest)

end Sys2Proof.Machine
end

