-- ==== Sys2Proof/Machine/Sequencer.lean ====
section
/-! DEFINITION. The foreground sequencer (10_state.md R22): accepting a command, taking its next micro-step, ending it. -/

namespace Sys2Proof.Machine

/-- What a command is when FG accepts it: the reason it is refused, or its micro-steps. Operand tests and pure computation come before
the first micro-step and take none of their own (R6, R178 (c); log entry 16). -/
abbrev Plan := Except RefusalReason (List Micro)

/-- Where command `i` stands after a micro-step: ended when nothing remains of it (R22). -/
def settle (i : Instr) (s : State) (rest : List Micro) : State :=
  match rest with
  | [] => complete i s
  | m :: ms => withSeq (.busy i (m :: ms)) s

/-- FG takes the next micro-step of command `i` (R6, R22). -/
def advance (i : Instr) (ms : List Micro) (s : State) : Host.Outcome State Fault Refusal :=
  match ms with
  | [] => .next (complete i s)
  | m :: rest =>
    match runMicro m rest s with
    | .ok (t, rest') => .next (settle i t rest')
    | .error f => .fault f

/-- One micro-step of command `i`: its first one, with its operand tests, when FG is idle; the next one when `i` is in progress. The
host never issues a command while another is in progress (R165). -/
def runCommand (i : Instr) (plan : State → Plan) (s : State) : Host.Outcome State Fault Refusal :=
  match s.seq with
  | .idle =>
    match plan s with
    | .ok ms => advance i ms s
    | .error r => .next (refuse r s)
  | .busy j rest => if j = i then advance i rest s else .refused .commandInProgress

end Sys2Proof.Machine
end

