-- ==== Sys2Proof/Machine/Display.lean ====
section
/-! DEFINITION. Unit DSP (42_display_framing.md, 43_display_commands.md): the four framing primitives and the four composite commands. -/

namespace Sys2Proof.Machine

/-- The body of DSP.START (R131). -/
def startBody : List Micro := [.pinSet .clk true, .pinSet .dio true] ++ delay .short ++ [.pinSet .dio false]

/-- The body of DSP.BYTE up to the test of its loop (R132). -/
def byteBody (value : Byte) : List Micro := [.shiftSet value, .cntZero]

/-- The body of DSP.ACK (R133). -/
def ackBody : List Micro :=
  [.pinSet .clk false] ++ delay .long ++ [.pinSet .clk true] ++ delay .short ++ [.pinSet .clk false]

/-- The body of DSP.STOP (R134). -/
def stopBody : List Micro :=
  [.pinSet .clk false] ++ delay .short ++ [.pinSet .dio false] ++ delay .short ++ [.pinSet .clk true] ++ delay .short ++
    [.pinSet .dio true]

/-- `Txn([b0, ..., b(n-1)])` (R140). -/
def txn (bytes : List Byte) : List Micro := startBody ++ bytes.flatMap (fun b => byteBody b ++ ackBody) ++ stopBody

/-- `BrightTxn()` for a stored level (R142). -/
def brightTxn (bright : Byte) : List Micro := txn [brightByte Config.display bright]

/-- `WriteDigits`: the refusals of DSP.DIGITS in their order, a digit's and then the colon's, then its three transactions (R141). -/
def framePlan (bright d0 d1 d2 d3 : Byte) (colon : Option Bool) : Plan :=
  match digit? d0, digit? d1, digit? d2, digit? d3 with
  | some e0, some e1, some e2, some e3 =>
    match colon with
    | some c =>
      .ok (txn [Config.display.cmdData] ++ txn (Config.display.cmdAddr :: frameBytes Config.display e0 e1 e2 e3 c) ++
        brightTxn bright)
    | none => .error .colonNotBoolean
  | _, _, _, _ => .error .digitOutOfRange

/-- `WriteDigits` with the colon as an operand byte (R141). -/
def digitsPlan (bright d0 d1 d2 d3 colon : Byte) : Plan := framePlan bright d0 d1 d2 d3 (colon? colon)

/-- `WriteDigits` of a list of four digits; a stored colon flag is always a legal one (R145, R147). -/
def digitsOf (bright : Byte) (ds : List Byte) (colon : Option Bool) : Plan :=
  framePlan bright (ds.getD 0 0) (ds.getD 1 0) (ds.getD 2 0) (ds.getD 3 0) colon

/-- The micro-steps of DSP.START (R131). -/
def planDspStart (_ : State) : Plan := .ok startBody

/-- DSP.START (R131). -/
def execDspStart (s : State) : Host.Outcome State Fault Refusal := runCommand .dspStart planDspStart s

/-- The micro-steps of DSP.BYTE (R132). -/
def planDspByte (value : Byte) (_ : State) : Plan := .ok (byteBody value)

/-- DSP.BYTE (R132). -/
def execDspByte (value : Byte) (s : State) : Host.Outcome State Fault Refusal :=
  runCommand (.dspByte value) (planDspByte value) s

/-- The micro-steps of DSP.ACK (R133). -/
def planDspAck (_ : State) : Plan := .ok ackBody

/-- DSP.ACK (R133). -/
def execDspAck (s : State) : Host.Outcome State Fault Refusal := runCommand .dspAck planDspAck s

/-- The micro-steps of DSP.STOP (R134). -/
def planDspStop (_ : State) : Plan := .ok stopBody

/-- DSP.STOP (R134). -/
def execDspStop (s : State) : Host.Outcome State Fault Refusal := runCommand .dspStop planDspStop s

/-- DSP.DIGITS: the brightness sent is the value `BRIGHT` holds at the command's start (R141 (d)). -/
def planDspDigits (d0 d1 d2 d3 colon : Byte) (s : State) : Plan := digitsPlan s.bright d0 d1 d2 d3 colon

/-- DSP.DIGITS (R141). -/
def execDspDigits (d0 d1 d2 d3 colon : Byte) (s : State) : Host.Outcome State Fault Refusal :=
  runCommand (.dspDigits d0 d1 d2 d3 colon) (planDspDigits d0 d1 d2 d3 colon) s

/-- DSP.BRIGHT: the level is stored before the transaction, which carries it (R143 (a)). -/
def planDspBright (level : Byte) (_ : State) : Plan :=
  if 7 < level then .error .brightnessOutOfRange else .ok (.brightSet level :: brightTxn level)

/-- DSP.BRIGHT (R143). -/
def execDspBright (level : Byte) (s : State) : Host.Outcome State Fault Refusal :=
  runCommand (.dspBright level) (planDspBright level) s

/-- DSP.COUNTER: decimal digits, colon off (R145). -/
def planDspCounter (value : Half) (s : State) : Plan :=
  if 9999 < value then .error .counterOutOfRange else digitsOf s.bright (digits4 value.toNat) (colon? Config.counterColon)

/-- DSP.COUNTER (R145). -/
def execDspCounter (value : Half) (s : State) : Host.Outcome State Fault Refusal :=
  runCommand (.dspCounter value) (planDspCounter value) s

/-- DSP.CLOCK: `COLON` is toggled first and the frame carries its new value (R147). -/
def planDspClock (hours minutes : Byte) (s : State) : Plan :=
  if 99 < hours ∨ 99 < minutes then .error .clockOutOfRange
  else
    match digitsOf s.bright (clockDigits hours.toNat minutes.toNat) (some (!s.colon)) with
    | .ok ms => .ok (.colonToggle :: ms)
    | .error r => .error r

/-- DSP.CLOCK (R147). -/
def execDspClock (hours minutes : Byte) (s : State) : Host.Outcome State Fault Refusal :=
  runCommand (.dspClock hours minutes) (planDspClock hours minutes) s

end Sys2Proof.Machine
end

