-- ==== Sys2Proof/Machine/Tick.lean ====
section
/-! DEFINITION. Unit TICK (40_tickclock.md): TICK.START, TICK.NOW, TICK.WAIT. -/

namespace Sys2Proof.Machine

/-- The micro-steps of TICK.START (R100, order of decision D25). -/
def planTickStart (_ : State) : Plan := .ok [.periodSet, .tickZero, .timerArm]

/-- TICK.START (R100). -/
def execTickStart (s : State) : Host.Outcome State Fault Refusal := runCommand .tickStart planTickStart s

/-- The micro-step of TICK.NOW (R102). -/
def planTickNow (_ : State) : Plan := .ok [.resTickLatch]

/-- TICK.NOW (R102). -/
def execTickNow (s : State) : Host.Outcome State Fault Refusal := runCommand .tickNow planTickNow s

/-- The micro-steps of TICK.WAIT (R103). -/
def planTickWait (dur : Tick) (_ : State) : Plan := .ok [.durSet dur, .waitSample, .waitTest]

/-- TICK.WAIT (R103, R105). -/
def execTickWait (dur : Tick) (s : State) : Host.Outcome State Fault Refusal := runCommand (.tickWait dur) (planTickWait dur) s

end Sys2Proof.Machine
end

