-- ==== Sys2Proof/Machine/Uart.lean ====
section
/-! DEFINITION. Units DIV and TX (41_seriallink.md): UART.DIV, UART.TX. -/

namespace Sys2Proof.Machine

/-- The refusals of UART.DIV in their order, then its micro-steps (R113). -/
def planUartDiv (baud clk : BitVec 32) (s : State) : Plan :=
  if baud = 0 then .error .baudZero
  else if s.brrSet then .error .divisorAlreadySet
  else
    let d := computeDivisor baud.toNat clk.toNat
    if 2 ^ 12 ≤ d.1 then .error .mantissaOverflow
    else .ok [.brrMantSet (BitVec.ofNat 12 d.1), .brrFracSet (BitVec.ofNat 4 d.2), .brrSetMark]

/-- UART.DIV (R113). -/
def execUartDiv (baud clk : BitVec 32) (s : State) : Host.Outcome State Fault Refusal :=
  runCommand (.uartDiv baud clk) (planUartDiv baud clk) s

/-- The entry micro-steps of UART.TX; the polls follow from them (R115 to R117). -/
def planUartTx (timeout : Tick) (len : Half) (data : List Byte) (_ : State) : Plan :=
  .ok [.txTimeoutSet timeout data, .txLenSet len, .txIdxZero, .txStartSample, .txEnterReady]

/-- UART.TX (R115 to R124). -/
def execUartTx (timeout : Tick) (len : Half) (data : List Byte) (s : State) : Host.Outcome State Fault Refusal :=
  runCommand (.uartTx timeout len data) (planUartTx timeout len data) s

end Sys2Proof.Machine
end

