-- ==== Sys2Proof/Machine/Dispatch.lean ====
section
/-! DEFINITION. One arm per constructor of Instr: the meaning of every command (30_encoding.md R73). -/

namespace Sys2Proof.Machine

/-- One micro-step of FG on command `i` (00_scope.md R6): its first one when FG is idle, the next one when `i` is in progress. -/
def exec (i : Instr) (s : State) : Host.Outcome State Fault Refusal :=
  match i with
  | .tickStart => Sys2Proof.Machine.execTickStart s
  | .tickNow => Sys2Proof.Machine.execTickNow s
  | .tickWait dur => Sys2Proof.Machine.execTickWait dur s
  | .uartDiv baud clk => Sys2Proof.Machine.execUartDiv baud clk s
  | .uartTx timeout len data => Sys2Proof.Machine.execUartTx timeout len data s
  | .dspStart => Sys2Proof.Machine.execDspStart s
  | .dspByte value => Sys2Proof.Machine.execDspByte value s
  | .dspAck => Sys2Proof.Machine.execDspAck s
  | .dspStop => Sys2Proof.Machine.execDspStop s
  | .dspDigits d0 d1 d2 d3 colon => Sys2Proof.Machine.execDspDigits d0 d1 d2 d3 colon s
  | .dspBright level => Sys2Proof.Machine.execDspBright level s
  | .dspCounter value => Sys2Proof.Machine.execDspCounter value s
  | .dspClock hours minutes => Sys2Proof.Machine.execDspClock hours minutes s

end Sys2Proof.Machine
end

