-- ==== Sys2Proof/Machine/Scheduler.lean ====
section
/-! DEFINITION. The host at the command port (44_scheduler_host.md): what it issues when the sequencer is idle, its `Run()` loop, and
fetching the next command from what it issued (30_encoding.md R71). -/

namespace Sys2Proof.Machine

/-- The host makes ready to issue a command byte sequence before anything else (R165: any command, whenever `SEQ = IDLE`). -/
def issueFirst (bytes : List Byte) (s : State) : State := { s with host := { s.host with queue := bytes :: s.host.queue } }

/-- The host's boot code enters `Run()` (R205 step 6). -/
def enterRun (s : State) : State := { s with host := { s.host with phase := .runWait 0 } }

/-- The host goes to another point of `Run()`. -/
def setPhase (p : HostPhase) (s : State) : State := { s with host := { s.host with phase := p } }

/-- What the host does when FG is idle: nothing this time, or it issues a command byte sequence. -/
inductive HostMove where
  | quiet (s : State)
  | issue (bytes : List Byte) (s : State)
  deriving DecidableEq, Repr

/-- The host's move. Without a ready oscillator it never issues a command (R206). What is in its queue goes first. In `Run()` it issues
TICK.WAIT ITER_DELAY and then lets every Task run once, in list order, one command at a time (R160 to R162). -/
def hostMove (s : State) : HostMove :=
  if s.host.oscReady then
    match s.host.queue with
    | bytes :: q => .issue bytes { s with host := { s.host with queue := q } }
    | [] =>
      match s.host.phase with
      | .manual => .quiet s
      | .runWait n => .issue (encode (.tickWait Config.iterDelay)) (setPhase (.runTask n 0 0) s)
      | .runTask n t k =>
        if t < Config.taskCount then
          match Config.taskCommand t n k s.host.received with
          | some i => .issue (encode i.val) (setPhase (.runTask n t (k + 1)) s)
          | none => .quiet (setPhase (.runTask n (t + 1) 0) s)
        else .quiet (setPhase (.runWait (n + 1)) s)
  else .quiet s

/-- The bytes after a command in its sequence begin the next command (R71). -/
def keepRest (rest : List Byte) (s : State) : State :=
  match rest with
  | [] => s
  | b :: bs => issueFirst (b :: bs) s

/-- What reaches an idle FG: no command, a command that the decoder refuses, or a command to run. -/
inductive Fetch where
  | quiet (s : State)
  | refused (r : RefusalReason) (s : State)
  | run (i : Instr) (s : State)
  deriving DecidableEq, Repr

/-- A command is decoded whole before its first micro-step (R63). A refused sequence is dropped whole: it has no boundary at which a
next command could begin (DESIGN CHOICE, log entry 5). -/
def fetch (s : State) : Fetch :=
  match hostMove s with
  | .quiet t => .quiet t
  | .issue bytes t =>
    match decode bytes with
    | .ok (i, rest) => .run i (keepRest rest t)
    | .error r => .refused r t

end Sys2Proof.Machine
end

