-- ==== Sys2Proof/Machine/Step.lean ====
section
/-! DEFINITION. One step of the machine: TMR's ticks, then one micro-step of FG or, when FG is idle, the host's move (00_scope.md R5,
R6), and how the host places an instruction so that the next step fetches it. -/

namespace Sys2Proof.Machine

/-- One step. TMR takes its free number of `OnTick` steps; then FG takes the next micro-step of the command in progress, or accepts the
host's next command and takes its first micro-step; a sequence the decoder refuses leaves only the mark (R6, R63, R173). -/
def step (s : State) : Host.Outcome State Fault Refusal :=
  match (tmr s).seq with
  | .busy i _ => exec i (tmr s)
  | .idle =>
    match fetch (tmr s) with
    | .quiet t => .next t
    | .refused r t => .next (refuse r t)
    | .run i t => exec i t

/-- `s` with the instruction of table word `w` issued by the host as its next command: the sequencer is idle and the oscillator ready,
which is all that the fetch needs (log entry 7). -/
def State.withFetchWord (s : State) (nbits w : Nat) : State :=
  { s with
    seq := .idle
    host := { s.host with queue := tableBytes nbits w :: s.host.queue, oscReady := true } }

end Sys2Proof.Machine
end

