-- ==== Sys2Proof/Safety.lean ====
section
/-! DEFINITION. What claims about the machine are stated in: the event log without TMR's ticks, a whole command under every interleaving
(00_scope.md R6), the display receiver's view (42_display_framing.md R137), the invariant of every run, and the named premises of
60_exceptions.md R173 and R182. -/

namespace Sys2Proof.Safety

open Sys2Proof.Machine

/-- The events of FG: `LOG` without the optional `Tick` events (R40). -/
def visible (l : List Event) : List Event := l.filter (fun e => e != .tick)

/-- The number of `OnTick` steps a log records (R181). -/
def tickCount (l : List Event) : Nat := l.count .tick

/-- Command `i`, at its start or under way in the first state, ends in the second: FG takes its micro-steps one after another, TMR any
number of `OnTick` steps before each (R6), and SEQ is idle after the last and after no earlier one (R22). -/
inductive Completes (i : Instr) : State → State → Prop where
  | last {s t : State} (n : Nat) (run : exec i (tickN n s) = .next t) (ended : t.seq = .idle) : Completes i s t
  | more {s u t : State} (n : Nat) (run : exec i (tickN n s) = .next u) (going : u.seq ≠ .idle) (after : Completes i u t) :
      Completes i s t

/-- Command `i`, at its start or under way in the first state, comes through the second: micro-steps of FG with any number of `OnTick`
steps before each, none of which ended it (R6, R22). -/
inductive Reaches (i : Instr) : State → State → Prop where
  | here (s : State) : Reaches i s s
  | more {s u t : State} (n : Nat) (run : exec i (tickN n s) = .next u) (going : u.seq ≠ .idle) (after : Reaches i u t) :
      Reaches i s t

/-- The UART condition a micro-step samples (R116, R117). -/
def sampleOf : Micro → Option UartCond
  | .readyErr => some .err
  | .readyPoll => some .ready
  | .completeErr => some .err
  | .completePoll => some .complete
  | _ => none

/-- Command `i`, at its start or under way in `s`, can come to a sample of condition `c` that is answered `a` (R32). -/
def CanSample (i : Instr) (c : UartCond) (a : Bool) (s : State) : Prop :=
  ∃ u m rest, Reaches i s u ∧ u.seq = .busy i (m :: rest) ∧ sampleOf m = some c ∧ answerOf c u.env = a

/-- FG is about to write 0 to `TICK`: the one micro-step of TICK.START that does (R23, R100). -/
def Zeroing (s : State) : Prop := ∃ i rest, s.seq = .busy i (.tickZero :: rest)

/-- Nothing has been refused in the run so far: the premise of every claim about the hardware (R173). -/
def NothingRefused (s : State) : Prop := s.refusals = []

/-- Weak fairness of TMR (R182): its free numbers of steps are positive again and again. A liveness claim names it as a premise. -/
def WeakFairness : Prop := ∀ n, ∃ m, n ≤ m ∧ 0 < Config.ticksBefore m

/-- `t` is `s` after display activity that showed the events `evs` and left the pins, the shift register and the bit counter at the
given values; beside them only `TICK`, `W_START`, `W_DUR` and `LOG` may differ (R130 to R134). -/
def Drives (s t : State) (clk dio : Bool) (shift : Byte) (cnt : BitVec 4) (evs : List Event) : Prop :=
  ∃ k a b l, t = { s with tick := k, wStart := a, wDur := b, log := l, pinClk := clk, pinDio := dio, sbShift := shift, sbCnt := cnt } ∧
    visible l = visible s.log ++ evs

/-- A display command that samples a delay whose length has not elapsed never ends while the timer is not armed (R130, R210). -/
def HangsInDelay (i : Instr) : Prop :=
  ∀ (u : State) (k : DelayKind) (rest : List Micro), u.seq = .busy i (.delayTest k :: rest) → u.timerArmed = false →
    u.tick - u.wStart < u.wDur → ¬ ∃ t, Completes i u t

/-- How many pin events and how many waits a list of events holds. -/
def pinsAndWaits (l : List Event) : Nat × Nat :=
  (l.countP (fun e => match e with | .pin _ _ => true | _ => false), l.countP (fun e => match e with | .wait _ => true | _ => false))

/-- A receiver on the two-wire link (R137, decision D30): the levels it last saw, whether a transaction is open, how many rising clock
edges of the byte cell have passed, the bits of it so far, the bytes of the open transaction and the transactions received. -/
structure Receiver where
  clk : Bool
  dio : Bool
  isOpen : Bool
  edges : Nat
  bits : Byte
  bytes : List Byte
  received : List (List Byte)
  deriving DecidableEq, Repr

/-- What the receiver makes of one event: data falling under a high clock starts a transaction, data rising under a high clock stops it,
a rising clock edge carries a bit, least significant first, but for the ninth of each byte cell (R79, R137). -/
def see (r : Receiver) (e : Event) : Receiver :=
  match e with
  | .pin .clk v =>
    if v && !r.clk && r.isOpen then
      if r.edges < 7 then
        { r with clk := v, edges := r.edges + 1, bits := (r.bits >>> 1) ||| (if r.dio then 0x80 else 0) }
      else if r.edges = 7 then
        { r with clk := v, edges := 8, bits := 0, bytes := r.bytes ++ [(r.bits >>> 1) ||| (if r.dio then 0x80 else 0)] }
      else { r with clk := v, edges := 0 }
    else { r with clk := v }
  | .pin .dio v =>
    if r.clk && r.dio && !v then { r with dio := v, isOpen := true, edges := 0, bits := 0, bytes := [] }
    else if r.clk && !r.dio && v && r.isOpen then
      { r with dio := v, isOpen := false, received := r.received ++ [r.bytes] }
    else { r with dio := v }
  | .wait _ => r
  | .uartWr _ => r
  | .tick => r

/-- `Decode(LOG)` of R137: the transactions a receiver reads from events, given the pin levels before them. -/
def receive (clk dio : Bool) (l : List Event) : List (List Byte) :=
  (l.foldl see { clk := clk, dio := dio, isOpen := false, edges := 0, bits := 0, bytes := [], received := [] }).received

/-- Where a display command whose micro-steps are `body` can be after its first one, and what its latches hold there (R22): at a later
one of `body`, or in a bit cell of a byte `v` of it, with at most seven cells done and `v` shifted right once for each (R36, R132); after
the length of a delay is latched `W_DUR` holds it (R130), and before the bit loop `SB_SHIFT` holds the byte. -/
def displayPosition (body rest : List Micro) (s : State) : Prop :=
  s.txState = .idle ∧ rest ≠ [] ∧
  (rest <:+ body.tail ∨
    ∃ (v : Byte) (cell after : List Micro), cell ≠ [] ∧ cell <:+ bitCell ∧ rest = cell ++ after ∧
      .shiftSet v :: .cntZero :: after <:+ body ∧
      s.sbCnt ≤ 7 ∧ s.sbShift = v >>> (if cell = [.cntIncr] then s.sbCnt.toNat + 1 else s.sbCnt.toNat)) ∧
  (∀ k after, rest = .waitSample :: .delayTest k :: after ∨ rest = .delayTest k :: after → s.wDur = Config.delayTicks k) ∧
  ∀ v after, rest = .cntZero :: after → .shiftSet v :: .cntZero :: after <:+ body → s.sbShift = v

/-- Where UART.TX can be after its first micro-step, with what its registers hold there (R29, R30, R51, R115 to R118). -/
def txPosition (timeout : Tick) (len : Half) (data : List Byte) (rest : List Micro) (s : State) : Prop :=
  data.length = len.toNat ∧ s.txbuf = data ∧ s.txTimeout = timeout ∧
  (rest = [.txLenSet len, .txIdxZero, .txStartSample, .txEnterReady] ∧ s.txState = .idle ∨
   s.txLen = len ∧
    (rest = [.txIdxZero, .txStartSample, .txEnterReady] ∧ s.txState = .idle ∨
     (rest = [.txStartSample, .txEnterReady] ∨ rest = [.txEnterReady]) ∧ s.txState = .idle ∧ s.txIdx = 0 ∨
     (rest = [.readyErr] ∨ rest = [.readyPoll] ∨ rest = [.readyTime] ∨ rest = [.txWrite, .txIdxIncr] ∨ rest = [.txIdxIncr]) ∧
      s.txState = .waitReady ∧ s.txIdx < len ∨
     rest = [.txEnterComplete] ∧ s.txState = .waitReady ∧ s.txIdx = len ∨
     (rest = [.completeErr] ∨ rest = [.completePoll] ∨ rest = [.completeTime]) ∧ s.txState = .waitComplete ∧ s.txIdx = len ∨
     (∃ st, (rest = [.resStatusSet st, .txEnterIdle] ∨ rest = [.txEnterIdle] ∧ s.resStatus = statusCode st) ∧
       (st = .ok → s.txState = .waitComplete ∧ s.txIdx = len)) ∧ s.txState ≠ .idle ∧ s.txIdx ≤ len))

/-- Where command `i` can be after its first micro-step (R22): the micro-steps that can remain of it and what its latches hold there. The
micro-steps of a command are those of its plan; DSP.CLOCK has toggled `COLON` since it was accepted (R147). -/
def position (i : Instr) (rest : List Micro) (s : State) : Prop :=
  match i with
  | .tickStart => (rest = [.tickZero, .timerArm] ∨ rest = [.timerArm]) ∧ s.timerPeriod = .p1ms ∧ s.txState = .idle
  | .tickNow => False
  | .tickWait dur => (rest = [.waitSample, .waitTest] ∨ rest = [.waitTest]) ∧ s.wDur = dur ∧ s.txState = .idle
  | .uartDiv baud clk =>
    ∃ m f, planUartDiv baud clk s = .ok [.brrMantSet m, .brrFracSet f, .brrSetMark] ∧ s.brrMant = m ∧
      (rest = [.brrFracSet f, .brrSetMark] ∨ rest = [.brrSetMark] ∧ s.brrFrac = f) ∧ s.txState = .idle
  | .uartTx timeout len data => txPosition timeout len data rest s
  | .dspStart => displayPosition startBody rest s
  | .dspByte value => displayPosition (byteBody value) rest s
  | .dspAck => displayPosition ackBody rest s
  | .dspStop => displayPosition stopBody rest s
  | .dspDigits d0 d1 d2 d3 colon => ∃ body, planDspDigits d0 d1 d2 d3 colon s = .ok body ∧ displayPosition body rest s
  | .dspBright level => s.bright = level ∧ displayPosition (.brightSet level :: brightTxn level) rest s
  | .dspCounter value => ∃ body, planDspCounter value s = .ok body ∧ displayPosition body rest s
  | .dspClock hours minutes =>
    ∃ body, planDspClock hours minutes { s with colon := !s.colon } = .ok body ∧ displayPosition body rest s

/-- The invariant of every run: `BRIGHT` holds a legal level (R33), an armed timer is configured (R100), `TX_STATE` is IDLE whenever
`SEQ` is (R29), and a command under way stands at one of its own positions (R22). -/
structure RunInv (s : State) : Prop where
  bright : s.bright ≤ 7
  period : s.timerArmed = true → s.timerPeriod = .p1ms
  idle : s.seq = .idle → s.txState = .idle
  busy : ∀ i rest, s.seq = .busy i rest → position i rest s

end Sys2Proof.Safety
end

