-- ==== Sys2Proof/Certificates/Slice0/Obligations.lean ====
section
/-! DEFINITION. What is claimed of the machine, from the numbered rules of the spec. A command is a sequence of micro-steps (00_scope.md
R6): `exec i s` is one of them, `tickN n s` is `s` after TMR was offered `n` steps, `Completes i s t` is a whole command under every
interleaving. -/

open Sys2Proof Sys2Proof.Machine Sys2Proof.Safety

/-! ## Encoding -/

/-- Decoding the bytes of a well-formed command gives it back, with the bytes that follow (R70 to R72, R76). -/
def Obligations.DecodeOfEncode : Prop :=
  ∀ (i : Instr) (tail : List Byte), WellFormed i → decode (encode i ++ tail) = .ok (i, tail)

/-- What the decoder reads is a well-formed command, and its bytes are the ones it read (R70 to R72, R76). -/
def Obligations.EncodeOfDecode : Prop :=
  ∀ (bytes : List Byte) (i : Instr) (rest : List Byte), decode bytes = .ok (i, rest) → WellFormed i ∧ bytes = encode i ++ rest

/-- Words written out from the formats of R70 and the opcode map R73 decode to their commands. -/
def Obligations.WrittenOutWordsDecode : Prop :=
  decode [0x01] = .ok (.tickStart, []) ∧ decode [0x02] = .ok (.tickNow, []) ∧
  decode [0x03, 0x64, 0x00, 0x00, 0x00] = .ok (.tickWait 100, []) ∧
  decode [0x10, 0x00, 0xC2, 0x01, 0x00, 0x00, 0xA2, 0x4A, 0x04] = .ok (.uartDiv 115200 72000000, []) ∧
  decode [0x11, 0x32, 0x00, 0x00, 0x00, 0x02, 0x00, 0x48, 0x69] = .ok (.uartTx 50 2 [0x48, 0x69], []) ∧
  decode [0x20] = .ok (.dspStart, []) ∧ decode [0x21, 0x40] = .ok (.dspByte 0x40, []) ∧
  decode [0x22] = .ok (.dspAck, []) ∧ decode [0x23] = .ok (.dspStop, []) ∧
  decode [0x24, 0x01, 0x02, 0x03, 0x04, 0x01] = .ok (.dspDigits 1 2 3 4 1, []) ∧
  decode [0x25, 0x05] = .ok (.dspBright 5, []) ∧ decode [0x26, 0xD2, 0x04] = .ok (.dspCounter 1234, []) ∧
  decode [0x27, 0x0C, 0x22] = .ok (.dspClock 12 34, [])

/-- Reserved opcode bytes and truncated commands are refused; such a sequence changes nothing but the mark (R74). That the whole
sequence is dropped from the host's queue is the model's choice (log entry 5). -/
def Obligations.ReservedAndTruncatedAreRefused : Prop :=
  (∀ (b : Byte) (bs : List Byte),
    b.toNat = 0 ∨ 0x04 ≤ b.toNat ∧ b.toNat ≤ 0x0F ∨ 0x12 ≤ b.toNat ∧ b.toNat ≤ 0x1F ∨ 0x28 ≤ b.toNat →
      decode (b :: bs) = .error .reservedOpcode) ∧
  (∀ (i : Instr) (p : List Byte), WellFormed i → p ≠ [] → p <+: encode i → p ≠ encode i → decode p = .error .truncated) ∧
  (∀ (s : State) (bytes : List Byte) (q : List (List Byte)) (r : RefusalReason),
    s.seq = .idle → s.host.oscReady = true → s.host.queue = bytes :: q → decode bytes = .error r →
      step s = .next { tmr s with host := { s.host with queue := q }, refusals := s.refusals ++ [r] })

/-- Multi-byte operands are little-endian (R54, the spec's decision D4). -/
def Obligations.OperandsAreLittleEndian : Prop :=
  ∀ (a0 a1 a2 a3 b0 b1 b2 b3 : Byte) (rest : List Byte),
    (∃ dur, decode (0x03 :: a0 :: a1 :: a2 :: a3 :: rest) = .ok (.tickWait dur, rest) ∧
      dur.toNat = a0.toNat + 256 * a1.toNat + 65536 * a2.toNat + 16777216 * a3.toNat) ∧
    (∃ baud clk, decode (0x10 :: a0 :: a1 :: a2 :: a3 :: b0 :: b1 :: b2 :: b3 :: rest) = .ok (.uartDiv baud clk, rest) ∧
      baud.toNat = a0.toNat + 256 * a1.toNat + 65536 * a2.toNat + 16777216 * a3.toNat ∧
      clk.toNat = b0.toNat + 256 * b1.toNat + 65536 * b2.toNat + 16777216 * b3.toNat) ∧
    (∃ value, decode (0x26 :: a0 :: a1 :: rest) = .ok (.dspCounter value, rest) ∧ value.toNat = a0.toNat + 256 * a1.toNat) ∧
    (b0.toNat + 256 * b1.toNat ≤ rest.length →
      ∃ timeout len, decode (0x11 :: a0 :: a1 :: a2 :: a3 :: b0 :: b1 :: rest) =
          .ok (.uartTx timeout len (rest.take len.toNat), rest.drop len.toNat) ∧
        timeout.toNat = a0.toNat + 256 * a1.toNat + 65536 * a2.toNat + 16777216 * a3.toNat ∧
        len.toNat = b0.toNat + 256 * b1.toNat)

/-! ## Reset, TMR and the step -/

/-- The reset column of R20 and R200, where it gives a value or an OPEN parameter (the parameters are opaque, log entry 9). -/
def Obligations.ResetValues : Prop :=
  State.reset.seq = .idle ∧ State.reset.timerArmed = false ∧ State.reset.timerPeriod = .unconfigured ∧
  State.reset.brrSet = false ∧ State.reset.txState = .idle ∧ State.reset.bright.toNat = Config.brightReset.val ∧
  State.reset.bright ≤ 7 ∧ State.reset.colon = Config.colonReset

/-- TICK.START alone arms the timer, and nothing disarms it (R24). -/
def Obligations.OnlyTickStartArms : Prop :=
  State.reset.timerArmed = false ∧
  ∀ s t, RunInv s → step s = .next t →
    (t.timerArmed = true ↔ s.timerArmed = true ∨ s.seq = .busy .tickStart [.timerArm])

/-- `OnTick` adds one to `TICK` modulo 2^32, and is not enabled while the timer is not armed (R101). -/
def Obligations.OnTickAddsOneWhileArmed : Prop :=
  ∀ (n : Nat) (s : State),
    onTick s = { s with tick := s.tick + 1, log := s.log ++ [.tick] } ∧
    (onTick s).tick.toNat = (s.tick.toNat + 1) % 2 ^ 32 ∧
    (s.timerArmed = true → tickN (n + 1) s = onTick (tickN n s)) ∧ (s.timerArmed = false → tickN n s = s)

/-- The tick interrupt changes no register but `TICK`, and leaves `SEQ` and every latch untouched (R179, R183). -/
def Obligations.TicksChangeNothingElse : Prop :=
  ∀ (n : Nat) (s : State), { tickN n s with tick := s.tick, log := s.log } = s ∧ visible (tickN n s).log = visible s.log

/-- The elapsed-time law: along any run that does not write 0 to `TICK`, the wrapped difference of two readings is the number of
`OnTick` steps between them, modulo 2^32 (R104). -/
def Obligations.ElapsedTimeLaw : Prop :=
  ∀ (run : Nat → State) (k n : Nat), (∀ j, j < k → step (run j) = .next (run (j + 1)) ∧ ¬ Zeroing (run j)) →
    tickCount (run k).log = tickCount (run 0).log + n →
    ((run k).tick - (run 0).tick).toNat = n % 2 ^ 32 ∧ (n < 2 ^ 32 → ((run k).tick - (run 0).tick).toNat = n)

/-- TMR's part of a step, `tmr`, is some number of `OnTick` steps: the prescribed one where one is prescribed, none while the timer is
not armed (R6). That prescribed numbers are used first is the model's choice (log entries 2 and 25). -/
def Obligations.TmrTakesSomeNumberOfTicks : Prop :=
  ∀ s : State, (∃ n e, tmr s = { tickN n s with env := e }) ∧
    (∀ n rest, s.timerArmed = true → s.env.tickScript = n :: rest →
      tmr s = { tickN n s with env := { s.env with tickScript := rest } }) ∧
    (s.timerArmed = false → tmr s = s)

/-- A step runs the decoded command: at the command port when FG is idle, or the command in progress (R6, R63, R71). -/
def Obligations.StepRunsTheDecodedCommand : Prop :=
  (∀ (s : State) (bytes : List Byte) (q : List (List Byte)) (i : Instr) (rest : List Byte),
    s.seq = .idle → s.host.oscReady = true → s.host.queue = bytes :: q → decode bytes = .ok (i, rest) →
      step s = exec i { tmr s with host := { s.host with queue := if rest = [] then q else rest :: q } }) ∧
  (∀ (s : State) (i : Instr) (rest : List Micro), s.seq = .busy i rest → step s = exec i (tmr s))

/-! ## Unit TICK -/

/-- TICK.START: its three micro-steps with any ticks between them, never refused; `TICK` ends at the number of `OnTick` steps since the
write of 0 (R100). -/
def Obligations.TickStartConfiguresZeroesArms : Prop :=
  encode .tickStart = [0x01] ∧
  ∀ (s : State) (a b : Nat), s.seq = .idle → ∃ t1 t2 t3,
    exec .tickStart s = .next t1 ∧ t1 = { s with timerPeriod := .p1ms, seq := .busy .tickStart [.tickZero, .timerArm] } ∧
    exec .tickStart (tickN a t1) = .next t2 ∧ t2 = { tickN a t1 with tick := 0, seq := .busy .tickStart [.timerArm] } ∧
    exec .tickStart (tickN b t2) = .next t3 ∧ t3 = { tickN b t2 with timerArmed := true, seq := .idle } ∧
    t3.tick = (if s.timerArmed then BitVec.ofNat 32 b else 0)

/-- TICK.NOW latches `TICK` and delivers it as four bytes, little-endian (R102). -/
def Obligations.TickNowDeliversTheCounter : Prop :=
  encode .tickNow = [0x02] ∧
  ∀ s : State, s.seq = .idle → ∃ b0 b1 b2 b3 : Byte,
    exec .tickNow s = .next { s with
      resTick := s.tick
      host := { s.host with received := s.host.received ++ [[b0, b1, b2, b3]] } } ∧
    s.tick.toNat = b0.toNat + 256 * b1.toNat + 65536 * b2.toNat + 16777216 * b3.toNat

/-- TICK.WAIT: the two latches, then a sample after another until the wrapped difference reaches the duration (R103). -/
def Obligations.TickWaitSamplesUntilElapsed : Prop :=
  (∀ dur : Tick, (encode (.tickWait dur)).length = 5 ∧ (encode (.tickWait dur)).head? = some 0x03) ∧
  (∀ (dur : Tick) (s : State) (a : Nat), s.seq = .idle → ∃ t1 t2,
    exec (.tickWait dur) s = .next t1 ∧ t1 = { s with wDur := dur, seq := .busy (.tickWait dur) [.waitSample, .waitTest] } ∧
    exec (.tickWait dur) (tickN a t1) = .next t2 ∧
    t2 = { tickN a t1 with wStart := (tickN a t1).tick, seq := .busy (.tickWait dur) [.waitTest] }) ∧
  (∀ (dur : Tick) (u : State), u.seq = .busy (.tickWait dur) [.waitTest] →
    exec (.tickWait dur) u =
      .next (if u.wDur.toNat ≤ (u.tick - u.wStart).toNat then { u with seq := .idle } else u))

/-- A wait of 0 ends after exactly two samples, armed or not (R105 (a)). -/
def Obligations.TickWaitZeroTakesTwoSamples : Prop :=
  ∀ (s : State) (a b : Nat), s.seq = .idle → ∃ t1 t2 t3,
    exec (.tickWait 0) s = .next t1 ∧ t1.seq = .busy (.tickWait 0) [.waitSample, .waitTest] ∧
    exec (.tickWait 0) (tickN a t1) = .next t2 ∧ t2.seq = .busy (.tickWait 0) [.waitTest] ∧
    exec (.tickWait 0) (tickN b t2) = .next t3 ∧ t3.seq = .idle ∧ visible t3.log = visible s.log

/-- TICK.WAIT never returns early: at least `dur` ticks after its start sample; and with the timer armed it can return (R105 (b)). -/
def Obligations.TickWaitNeverReturnsEarly : Prop :=
  (∀ (dur : Tick) (u t : State), u.seq = .busy (.tickWait dur) [.waitTest] → u.wDur = dur → u.wStart = u.tick →
    Completes (.tickWait dur) u t → tickCount u.log + dur.toNat ≤ tickCount t.log) ∧
  (∀ (dur : Tick) (s : State), s.seq = .idle → s.timerArmed = true → ∃ t, Completes (.tickWait dur) s t)

/-- With the timer not armed, a wait of more than 0 never ends (R105 (c), R210). -/
def Obligations.TickWaitHangsUnarmed : Prop :=
  (∀ (dur : Tick) (s : State), dur ≠ 0 → s.seq = .idle → s.timerArmed = false → ¬ ∃ t, Completes (.tickWait dur) s t) ∧
  (∀ (dur : Tick) (u : State) (k : Nat), dur ≠ 0 → u.seq = .busy (.tickWait dur) [.waitTest] → u.wDur = dur → u.wStart = u.tick →
    u.timerArmed = false → Sys2Proof.core.run k u = .next u)

/-- With the timer armed, a wait ends if between two samples fewer ticks pass than make it lap, and enough pass in all: TMR's next
numbers of steps are `l` (R105 (b), (d), R182). -/
def Obligations.TickWaitReturnsUnderATickBound : Prop :=
  ∀ (dur : Tick) (u : State) (l : List Nat), u.seq = .busy (.tickWait dur) [.waitTest] → u.wDur = dur → u.wStart = u.tick →
    u.timerArmed = true → u.env.tickScript = l → l ≠ [] → (∀ x ∈ l, x + dur.toNat ≤ 2 ^ 32) → dur.toNat ≤ l.sum →
    ∃ k t, k ≤ l.length ∧ Sys2Proof.core.run k u = .next t ∧ t.seq = .idle

/-! ## Unit DIV -/

/-- `ComputeDivisor` in integers is the exact rational rule: round to four decimals, split, round the fraction up, carry
(R110; a tie goes up, the spec's decision D7). -/
def Obligations.DivisorIsTheExactRule : Prop :=
  ∀ baud clk : Nat, 1 ≤ baud →
    let q : ℚ := clk / (baud * 16)
    let r : ℚ := (⌊q * 10 ^ 4 + 1 / 2⌋ : ℚ) / 10 ^ 4
    let m0 : ℤ := ⌊r⌋
    let sc : ℤ := ⌈(r - m0) * 16⌉
    0 ≤ sc ∧ sc ≤ 16 ∧ ((computeDivisor baud clk).1 : ℤ) = (if sc = 16 then m0 + 1 else m0) ∧
      ((computeDivisor baud clk).2 : ℤ) = sc % 16

/-- The fraction is in 0..15, `s = 16` exactly from the digits 9376 on, and a clock of 0 gives (0, 0) (R111, R112). -/
def Obligations.DivisorFieldsInRange : Prop :=
  ∀ baud clk k : Nat, 1 ≤ baud →
    (computeDivisor baud clk).2 ≤ 15 ∧ divisorS k ≤ 16 ∧ (divisorS k = 16 ↔ 9376 ≤ k % 10000) ∧ computeDivisor baud 0 = (0, 0)

/-- UART.DIV: its three refusals in their order, each of which writes nothing, or the divisor latched in three micro-steps (R113). -/
def Obligations.UartDivLatchesTheDivisorOnce : Prop :=
  (∀ baud clk : BitVec 32, (encode (.uartDiv baud clk)).length = 9 ∧ (encode (.uartDiv baud clk)).head? = some 0x10) ∧
  ∀ (baud clk : BitVec 32) (s : State), s.seq = .idle →
    (baud = 0 → exec (.uartDiv baud clk) s = .next { s with refusals := s.refusals ++ [.baudZero] }) ∧
    (baud ≠ 0 → s.brrSet = true →
      exec (.uartDiv baud clk) s = .next { s with refusals := s.refusals ++ [.divisorAlreadySet] }) ∧
    (baud ≠ 0 → s.brrSet = false → 2 ^ 12 ≤ (computeDivisor baud.toNat clk.toNat).1 →
      exec (.uartDiv baud clk) s = .next { s with refusals := s.refusals ++ [.mantissaOverflow] }) ∧
    (baud ≠ 0 → s.brrSet = false → (computeDivisor baud.toNat clk.toNat).1 < 2 ^ 12 → ∀ a b : Nat, ∃ t1 t2 t3 m f,
      m.toNat = (computeDivisor baud.toNat clk.toNat).1 ∧ f.toNat = (computeDivisor baud.toNat clk.toNat).2 ∧
      exec (.uartDiv baud clk) s = .next t1 ∧
      t1 = { s with brrMant := m, seq := .busy (.uartDiv baud clk) [.brrFracSet f, .brrSetMark] } ∧
      exec (.uartDiv baud clk) (tickN a t1) = .next t2 ∧
      t2 = { tickN a t1 with brrFrac := f, seq := .busy (.uartDiv baud clk) [.brrSetMark] } ∧
      exec (.uartDiv baud clk) (tickN b t2) = .next t3 ∧ t3 = { tickN b t2 with brrSet := true, seq := .idle })

/-- The divisor is written once: `BRR_SET` is raised by the end of a UART.DIV alone, never lowered, and from then on the pair does not
change (R28). -/
def Obligations.DivisorIsWriteOnce : Prop :=
  State.reset.brrSet = false ∧
  ∀ s t, RunInv s → step s = .next t →
    (t.brrSet = true ↔ s.brrSet = true ∨ ∃ baud clk, s.seq = .busy (.uartDiv baud clk) [.brrSetMark]) ∧
    (s.brrSet = true → t.brrMant = s.brrMant ∧ t.brrFrac = s.brrFrac)

/-! ## Unit TX -/

/-- UART.TX latches its operands, samples the start once, and enters the byte loop (R115). -/
def Obligations.UartTxLatchesOperandsAndSamplesOnce : Prop :=
  ∀ (timeout : Tick) (len : Half) (data : List Byte) (s : State) (a b c d : Nat), s.seq = .idle → ∃ t1 t2 t3 t4,
    exec (.uartTx timeout len data) s = .next t1 ∧
    t1 = { s with
      txTimeout := timeout
      txbuf := data
      seq := .busy (.uartTx timeout len data) [.txLenSet len, .txIdxZero, .txStartSample, .txEnterReady] } ∧
    exec (.uartTx timeout len data) (tickN a t1) = .next t2 ∧
    t2 = { tickN a t1 with
      txLen := len
      seq := .busy (.uartTx timeout len data) [.txIdxZero, .txStartSample, .txEnterReady] } ∧
    exec (.uartTx timeout len data) (tickN b t2) = .next t3 ∧
    t3 = { tickN b t2 with txIdx := 0, seq := .busy (.uartTx timeout len data) [.txStartSample, .txEnterReady] } ∧
    exec (.uartTx timeout len data) (tickN c t3) = .next t4 ∧
    t4 = { tickN c t3 with txStart := (tickN c t3).tick, seq := .busy (.uartTx timeout len data) [.txEnterReady] } ∧
    exec (.uartTx timeout len data) (tickN d t4) = .next { tickN d t4 with
      txState := .waitReady
      seq := .busy (.uartTx timeout len data) (if len = 0 then [.txEnterComplete] else [.readyErr]) }

/-- One poll of the byte loop, sample by sample: error, then ready, then, only after a 0, the timeout (R116). -/
def Obligations.ByteLoopPoll : Prop :=
  ∀ (timeout : Tick) (len : Half) (data : List Byte) (u : State),
    (u.seq = .busy (.uartTx timeout len data) [.readyErr] →
      exec (.uartTx timeout len data) u = .next { u with
        env := answered u.env
        seq := .busy (.uartTx timeout len data)
          (if answerOf .err u.env then [.resStatusSet .error, .txEnterIdle] else [.readyPoll]) }) ∧
    (u.seq = .busy (.uartTx timeout len data) [.readyPoll] →
      exec (.uartTx timeout len data) u = .next { u with
        env := answered u.env
        seq := .busy (.uartTx timeout len data)
          (if answerOf .ready u.env then [.txWrite, .txIdxIncr] else [.readyTime]) }) ∧
    (u.seq = .busy (.uartTx timeout len data) [.txWrite, .txIdxIncr] → ∀ h : u.txIdx.toNat < u.txbuf.length,
      exec (.uartTx timeout len data) u = .next { u with
        log := u.log ++ [.uartWr u.txbuf[u.txIdx.toNat]]
        seq := .busy (.uartTx timeout len data) [.txIdxIncr] }) ∧
    (u.seq = .busy (.uartTx timeout len data) [.txIdxIncr] →
      exec (.uartTx timeout len data) u = .next { u with
        txIdx := u.txIdx + 1
        seq := .busy (.uartTx timeout len data) (if u.txIdx + 1 < u.txLen then [.readyErr] else [.txEnterComplete]) }) ∧
    (u.seq = .busy (.uartTx timeout len data) [.readyTime] → u.txIdx < u.txLen →
      exec (.uartTx timeout len data) u = .next { u with
        seq := .busy (.uartTx timeout len data)
          (if u.txTimeout.toNat ≤ (u.tick - u.txStart).toNat then [.resStatusSet .timeout, .txEnterIdle] else [.readyErr]) })

/-- One poll of the completion wait, sample by sample: error, then complete, then, only after a 0, the timeout (R117). -/
def Obligations.CompletionWaitPoll : Prop :=
  ∀ (timeout : Tick) (len : Half) (data : List Byte) (u : State),
    (u.seq = .busy (.uartTx timeout len data) [.txEnterComplete] →
      exec (.uartTx timeout len data) u = .next { u with
        txState := .waitComplete
        seq := .busy (.uartTx timeout len data) [.completeErr] }) ∧
    (u.seq = .busy (.uartTx timeout len data) [.completeErr] →
      exec (.uartTx timeout len data) u = .next { u with
        env := answered u.env
        seq := .busy (.uartTx timeout len data)
          (if answerOf .err u.env then [.resStatusSet .error, .txEnterIdle] else [.completePoll]) }) ∧
    (u.seq = .busy (.uartTx timeout len data) [.completePoll] →
      exec (.uartTx timeout len data) u = .next { u with
        env := answered u.env
        seq := .busy (.uartTx timeout len data)
          (if answerOf .complete u.env then [.resStatusSet .ok, .txEnterIdle] else [.completeTime]) }) ∧
    (u.seq = .busy (.uartTx timeout len data) [.completeTime] →
      exec (.uartTx timeout len data) u = .next { u with
        seq := .busy (.uartTx timeout len data)
          (if u.txTimeout.toNat ≤ (u.tick - u.txStart).toNat then [.resStatusSet .timeout, .txEnterIdle]
            else [.completeErr]) })

/-- `finish(s)`: the status is recorded and delivered as one byte with its code, the state machine and the sequencer are idle (R115,
R118, R171, R83). -/
def Obligations.FinishDeliversTheStatus : Prop :=
  ∀ (timeout : Tick) (len : Half) (data : List Byte) (st : TransferStatus) (code : Nat) (u : State) (a : Nat),
    u.seq = .busy (.uartTx timeout len data) [.resStatusSet st, .txEnterIdle] →
    code = (match st with | .ok => 0 | .error => 1 | .timeout => 2) → ∃ t1,
      exec (.uartTx timeout len data) u = .next t1 ∧
      t1 = { u with resStatus := BitVec.ofNat 2 code, seq := .busy (.uartTx timeout len data) [.txEnterIdle] } ∧
      exec (.uartTx timeout len data) (tickN a t1) = .next { tickN a t1 with
        txState := .idle
        seq := .idle
        host := { u.host with received := u.host.received ++ [[BitVec.ofNat 8 code]] } }

/-- A whole UART.TX writes a prefix of its data, in order, `TX_IDX` bytes of it, all of it if the status is Ok; it delivers its status;
and with the timer armed it can end (R123, R118). -/
def Obligations.TransmitWritesAPrefix : Prop :=
  ∀ (timeout : Tick) (len : Half) (data : List Byte) (s : State), WellFormed (.uartTx timeout len data) → s.seq = .idle →
    (s.timerArmed = true → ∃ t, Completes (.uartTx timeout len data) s t) ∧
    ∀ t, Completes (.uartTx timeout len data) s t → ∃ st : TransferStatus,
      t.txIdx.toNat ≤ len.toNat ∧ (st = .ok → t.txIdx.toNat = len.toNat) ∧
      visible t.log = visible s.log ++ (data.take t.txIdx.toNat).map Event.uartWr ∧
      t.resStatus = statusCode st ∧ t.txState = .idle ∧
      t.host.received = s.host.received ++ [[(statusCode st).setWidth 8]]

/-- An error sample of 1 ends the transmission with Error: no later byte is written (R119 (a), (c)). -/
def Obligations.ErrorEndsTheTransmission : Prop :=
  ∀ (timeout : Tick) (len : Half) (data : List Byte) (u : State),
    u.seq = .busy (.uartTx timeout len data) [.readyErr] ∨ u.seq = .busy (.uartTx timeout len data) [.completeErr] →
    answerOf .err u.env = true →
    (∃ t, Completes (.uartTx timeout len data) u t) ∧
    ∀ t, Completes (.uartTx timeout len data) u t →
      t.resStatus = 1 ∧ t.txIdx = u.txIdx ∧ visible t.log = visible u.log

/-- An empty transmission never samples the ready condition, whatever the answers: Ok after an error sample of 0 and a complete sample of
1, Error after an error sample of 1, whatever the timeout and the timer (R121). Prescribed answers are the model's own device (log entry
25). -/
def Obligations.EmptyTransmission : Prop :=
  (∀ (timeout : Tick) (s : State) (a : Bool), s.seq = .idle → ¬ CanSample (.uartTx timeout 0 []) .ready a s) ∧
  ∀ (timeout : Tick) (s : State) (rest : List Bool), s.seq = .idle →
    (s.env.answerScript = false :: true :: rest →
      (∃ t, Completes (.uartTx timeout 0 []) s t) ∧
      ∀ t, Completes (.uartTx timeout 0 []) s t →
        t.resStatus = 0 ∧ visible t.log = visible s.log ∧ t.env.answerScript = rest) ∧
    (s.env.answerScript = true :: rest →
      (∃ t, Completes (.uartTx timeout 0 []) s t) ∧
      ∀ t, Completes (.uartTx timeout 0 []) s t →
        t.resStatus = 1 ∧ visible t.log = visible s.log ∧ t.env.answerScript = rest)

/-- With a timeout of 0 a first ready sample of 0 ends the transmission with Timeout, armed or not (R122). -/
def Obligations.ZeroTimeoutEndsAtOnce : Prop :=
  ∀ (len : Half) (data : List Byte) (s : State) (rest : List Bool), len ≠ 0 → s.seq = .idle →
    s.env.answerScript = false :: false :: rest →
    (∃ t, Completes (.uartTx 0 len data) s t) ∧
    ∀ t, Completes (.uartTx 0 len data) s t →
      t.resStatus = 2 ∧ visible t.log = visible s.log ∧ t.env.answerScript = rest

/-- A peripheral that is always error-free, ready and complete gets every byte, for every timeout, 0 included (R119 (b)). -/
def Obligations.ReadyIsServedWhateverTheTimeout : Prop :=
  ∀ (timeout : Tick) (len : Half) (data : List Byte) (s : State) (rest : List Bool),
    WellFormed (.uartTx timeout len data) → s.seq = .idle →
    s.env.answerScript = (List.replicate (len.toNat + 1) [false, true]).flatten ++ rest →
    (∃ t, Completes (.uartTx timeout len data) s t) ∧
    ∀ t, Completes (.uartTx timeout len data) s t →
      t.resStatus = 0 ∧ visible t.log = visible s.log ++ data.map Event.uartWr ∧ t.env.answerScript = rest

/-- UART.TX neither reads nor writes the divisor: it runs alike whatever the divisor registers hold (R27, R124). -/
def Obligations.TransmitIgnoresTheDivisor : Prop :=
  ∀ (timeout : Tick) (len : Half) (data : List Byte) (s : State) (m : BitVec 12) (f : BitVec 4) (b : Bool), RunInv s →
    exec (.uartTx timeout len data) { s with brrMant := m, brrFrac := f, brrSet := b } =
      match exec (.uartTx timeout len data) s with
      | .next t => .next { t with brrMant := m, brrFrac := f, brrSet := b }
      | .fault x => .fault x
      | .refused r => .refused r

/-- With the timer not armed and a timeout above 0, UART.TX never ends with Timeout, and it ends only if an error sample or the awaited
condition is answered 1: from its start an error or a complete sample, from a poll of the byte loop an error or a ready sample, from a
poll of the completion wait an error or a complete sample. After any number of polls answered 0 it stands where it stood: it never ends
(R8, R124, R211). Prescribed answers are the model's own device (log entry 25). -/
def Obligations.NoTimeoutWithoutTheTimer : Prop :=
  ∀ (timeout : Tick) (len : Half) (data : List Byte) (s : State), timeout ≠ 0 → s.timerArmed = false →
    (s.seq = .idle → ∀ t, Completes (.uartTx timeout len data) s t →
      t.resStatus ≠ 2 ∧
      (CanSample (.uartTx timeout len data) .err true s ∨ CanSample (.uartTx timeout len data) .complete true s)) ∧
    (s.seq = .busy (.uartTx timeout len data) [.readyErr] → s.txTimeout = timeout → s.txStart = s.tick → s.txIdx < s.txLen →
      (∀ t, Completes (.uartTx timeout len data) s t →
        CanSample (.uartTx timeout len data) .err true s ∨ CanSample (.uartTx timeout len data) .ready true s) ∧
      ∀ (polls : Nat) (rest : List Bool), s.env.answerScript = List.replicate (2 * polls) false ++ rest →
        Sys2Proof.core.run (3 * polls) s = .next { s with env := { s.env with answerScript := rest } }) ∧
    (s.seq = .busy (.uartTx timeout len data) [.completeErr] → s.txTimeout = timeout → s.txStart = s.tick →
      (∀ t, Completes (.uartTx timeout len data) s t →
        CanSample (.uartTx timeout len data) .err true s ∨ CanSample (.uartTx timeout len data) .complete true s) ∧
      ∀ (polls : Nat) (rest : List Bool), s.env.answerScript = List.replicate (2 * polls) false ++ rest →
        Sys2Proof.core.run (3 * polls) s = .next { s with env := { s.env with answerScript := rest } })

/-! ## Unit DSP -/

/-- `Delay(k)`: its length is latched, the start sampled, and a sample taken after another until the difference reaches it; then, and
only then, `Wait(k)` is recorded (R130). -/
def Obligations.DelayWaitsForItsLength : Prop :=
  ∀ (i : Instr) (k : DelayKind) (m : Micro) (rest : List Micro) (s : State) (a : Nat),
    (s.seq = .busy i (.delayDur k :: .waitSample :: .delayTest k :: m :: rest) → ∃ t1,
      exec i s = .next t1 ∧
      t1 = { s with wDur := Config.delayTicks k, seq := .busy i (.waitSample :: .delayTest k :: m :: rest) } ∧
      exec i (tickN a t1) = .next { tickN a t1 with
        wStart := (tickN a t1).tick
        seq := .busy i (.delayTest k :: m :: rest) }) ∧
    (s.seq = .busy i (.delayTest k :: m :: rest) →
      exec i s = .next (if s.wDur.toNat ≤ (s.tick - s.wStart).toNat
        then { s with log := s.log ++ [.wait k], seq := .busy i (m :: rest) } else s)) ∧
    HangsInDelay i

/-- DSP.START (R131). -/
def Obligations.DspStartMarksTheBegin : Prop :=
  encode .dspStart = [0x20] ∧ HangsInDelay .dspStart ∧
  ∀ s : State, s.seq = .idle →
    (s.timerArmed = true → ∃ t, Completes .dspStart s t) ∧
    ∀ t, Completes .dspStart s t →
      Drives s t true false s.sbShift s.sbCnt [.pin .clk true, .pin .dio true, .wait .short, .pin .dio false]

/-- DSP.BYTE: eight bit cells, bit 0 first (R132). -/
def Obligations.DspByteSendsLeastSignificantFirst : Prop :=
  ∀ value : Byte, encode (.dspByte value) = [0x21, value] ∧ HangsInDelay (.dspByte value) ∧
  ∀ s : State, s.seq = .idle →
    (s.timerArmed = true → ∃ t, Completes (.dspByte value) s t) ∧
    ∀ t, Completes (.dspByte value) s t →
      Drives s t true (value.getLsbD 7) 0 8 ((List.range 8).flatMap fun k =>
        [.pin .clk false, .pin .dio (value.getLsbD k), .wait .mid, .pin .clk true, .wait .mid])

/-- DSP.ACK: the slot's timing, the data line left alone (R133). -/
def Obligations.DspAckLeavesTheDataLine : Prop :=
  encode .dspAck = [0x22] ∧ HangsInDelay .dspAck ∧
  ∀ s : State, s.seq = .idle →
    (s.timerArmed = true → ∃ t, Completes .dspAck s t) ∧
    ∀ t, Completes .dspAck s t →
      Drives s t false s.pinDio s.sbShift s.sbCnt
        [.pin .clk false, .wait .long, .pin .clk true, .wait .short, .pin .clk false]

/-- DSP.STOP (R134). -/
def Obligations.DspStopMarksTheEnd : Prop :=
  encode .dspStop = [0x23] ∧ HangsInDelay .dspStop ∧
  ∀ s : State, s.seq = .idle →
    (s.timerArmed = true → ∃ t, Completes .dspStop s t) ∧
    ∀ t, Completes .dspStop s t →
      Drives s t true true s.sbShift s.sbCnt
        [.pin .clk false, .wait .short, .pin .dio false, .wait .short, .pin .clk true, .wait .short, .pin .dio true]

/-- The first and the last micro-step of each framing primitive: the first is accepted whenever FG is idle, the last one ends the command
(R131 to R134). -/
def Obligations.FramingCommandsBeginAndEnd : Prop :=
  ∀ (value : Byte) (s : State),
    (s.seq = .idle →
      exec .dspStart s = .next { s with
        pinClk := true
        log := s.log ++ [.pin .clk true]
        seq := .busy .dspStart ([.pinSet .dio true] ++ delay .short ++ [.pinSet .dio false]) } ∧
      exec (.dspByte value) s = .next { s with sbShift := value, seq := .busy (.dspByte value) [.cntZero] } ∧
      exec .dspAck s = .next { s with
        pinClk := false
        log := s.log ++ [.pin .clk false]
        seq := .busy .dspAck (delay .long ++ [.pinSet .clk true] ++ delay .short ++ [.pinSet .clk false]) } ∧
      exec .dspStop s = .next { s with
        pinClk := false
        log := s.log ++ [.pin .clk false]
        seq := .busy .dspStop (delay .short ++ [.pinSet .dio false] ++ delay .short ++ [.pinSet .clk true] ++ delay .short ++
          [.pinSet .dio true]) }) ∧
    (s.seq = .busy .dspStart [.pinSet .dio false] →
      exec .dspStart s = .next { s with pinDio := false, log := s.log ++ [.pin .dio false], seq := .idle }) ∧
    (s.seq = .busy (.dspByte value) [.cntIncr] → s.sbCnt = 7 →
      exec (.dspByte value) s = .next { s with sbCnt := 8, seq := .idle }) ∧
    (s.seq = .busy .dspAck [.pinSet .clk false] →
      exec .dspAck s = .next { s with pinClk := false, log := s.log ++ [.pin .clk false], seq := .idle }) ∧
    (s.seq = .busy .dspStop [.pinSet .dio true] →
      exec .dspStop s = .next { s with pinDio := true, log := s.log ++ [.pin .dio true], seq := .idle })

/-- DSP.DIGITS: a receiver reads its three transactions, the colon in the second digit byte only, the stored brightness re-sent (R141,
R137, decisions D14 and D30). -/
def Obligations.DigitsFrameReachesTheReceiver : Prop :=
  ∀ (d0 d1 d2 d3 : Fin 10) (colon : Bool) (i : Instr) (s : State),
    i = .dspDigits (BitVec.ofNat 8 d0) (BitVec.ofNat 8 d1) (BitVec.ofNat 8 d2) (BitVec.ofNat 8 d3) (if colon then 1 else 0) →
    s.seq = .idle →
    (s.timerArmed = true → ∃ t, Completes i s t) ∧
    ∀ t, Completes i s t → ∃ evs, Drives s t true true 0 8 evs ∧ pinsAndWaits evs = (210, 138) ∧
      receive s.pinClk s.pinDio evs =
        [[Config.display.cmdData],
         [Config.display.cmdAddr, Config.display.seg d0,
          Config.display.seg d1 ||| (if colon then Config.display.colonMask else 0), Config.display.seg d2,
          Config.display.seg d3],
         [Config.display.cmdBright ||| (s.bright &&& 7)]]

/-- DSP.DIGITS with an illegal operand: the digits are tested first, then the colon; nothing changes but the mark (R141, R178 (c)). -/
def Obligations.DigitsOutOfRangeAreRefused : Prop :=
  ∀ (d0 d1 d2 d3 colon : Byte) (s : State), s.seq = .idle →
    (9 < d0 ∨ 9 < d1 ∨ 9 < d2 ∨ 9 < d3 →
      exec (.dspDigits d0 d1 d2 d3 colon) s = .next { s with refusals := s.refusals ++ [.digitOutOfRange] }) ∧
    (d0 ≤ 9 ∧ d1 ≤ 9 ∧ d2 ≤ 9 ∧ d3 ≤ 9 → 1 < colon →
      exec (.dspDigits d0 d1 d2 d3 colon) s = .next { s with refusals := s.refusals ++ [.colonNotBoolean] })

/-- DSP.BRIGHT stores the level, then sends it in one transaction; a level above 7 is refused (R143; decisions D14, D17 and D30). -/
def Obligations.BrightStoresThenSends : Prop :=
  ∀ (level : Byte) (s : State), encode (.dspBright level) = [0x25, level] ∧ HangsInDelay (.dspBright level) ∧
    (s.seq = .idle →
      (7 < level → exec (.dspBright level) s = .next { s with refusals := s.refusals ++ [.brightnessOutOfRange] }) ∧
      (level ≤ 7 →
        (∃ rest, exec (.dspBright level) s = .next { s with bright := level, seq := .busy (.dspBright level) rest }) ∧
        (s.timerArmed = true → ∃ t, Completes (.dspBright level) s t) ∧
        ∀ t, Completes (.dspBright level) s t → ∃ evs, Drives { s with bright := level } t true true 0 8 evs ∧
          pinsAndWaits evs = (34, 22) ∧ receive s.pinClk s.pinDio evs = [[Config.display.cmdBright ||| level]]))

/-- DSP.COUNTER shows the four decimal digits, most significant first, colon off (the spec's decision D19); above 9999 it is
refused (R144, R145). What a receiver reads is by decisions D14 and D30. -/
def Obligations.CounterShowsDecimalDigits : Prop :=
  ∀ (value : Half) (s : State), s.seq = .idle →
    (9999 < value → exec (.dspCounter value) s = .next { s with refusals := s.refusals ++ [.counterOutOfRange] }) ∧
    (value ≤ 9999 →
      (∃ rest, exec (.dspCounter value) s =
        .next { s with pinClk := true, log := s.log ++ [.pin .clk true], seq := .busy (.dspCounter value) rest }) ∧
      (s.timerArmed = true → ∃ t, Completes (.dspCounter value) s t) ∧
      ∀ t, Completes (.dspCounter value) s t → ∃ evs, Drives s t true true 0 8 evs ∧
        receive s.pinClk s.pinDio evs =
          [[Config.display.cmdData],
           [Config.display.cmdAddr, Config.display.seg (Fin.ofNat 10 (value.toNat / 1000)),
            Config.display.seg (Fin.ofNat 10 (value.toNat / 100 % 10)),
            Config.display.seg (Fin.ofNat 10 (value.toNat / 10 % 10)), Config.display.seg (Fin.ofNat 10 (value.toNat % 10))],
           [Config.display.cmdBright ||| (s.bright &&& 7)]])

/-- DSP.CLOCK toggles `COLON` first and sends the new value with hours left and minutes right (the spec's decision D20); above 99 it is
refused and does not toggle (R146, R147). What a receiver reads is by decisions D14 and D30. -/
def Obligations.ClockTogglesThenShows : Prop :=
  ∀ (hours minutes : Byte) (s : State), s.seq = .idle →
    (99 < hours ∨ 99 < minutes →
      exec (.dspClock hours minutes) s = .next { s with refusals := s.refusals ++ [.clockOutOfRange] }) ∧
    (hours ≤ 99 → minutes ≤ 99 →
      (∃ rest, exec (.dspClock hours minutes) s =
        .next { s with colon := !s.colon, seq := .busy (.dspClock hours minutes) rest }) ∧
      (s.timerArmed = true → ∃ t, Completes (.dspClock hours minutes) s t) ∧
      ∀ t, Completes (.dspClock hours minutes) s t → ∃ evs, Drives { s with colon := !s.colon } t true true 0 8 evs ∧
        receive s.pinClk s.pinDio evs =
          [[Config.display.cmdData],
           [Config.display.cmdAddr, Config.display.seg (Fin.ofNat 10 (hours.toNat / 10)),
            Config.display.seg (Fin.ofNat 10 (hours.toNat % 10)) ||| (if !s.colon then Config.display.colonMask else 0),
            Config.display.seg (Fin.ofNat 10 (minutes.toNat / 10)), Config.display.seg (Fin.ofNat 10 (minutes.toNat % 10))],
           [Config.display.cmdBright ||| (s.bright &&& 7)]])

/-- The composite commands end with their last pin write, which leaves FG idle (R140 to R147). -/
def Obligations.CompositeCommandsEnd : Prop :=
  ∀ (i : Instr) (d0 d1 d2 d3 colon level hours minutes : Byte) (value : Half) (s : State),
    i = .dspDigits d0 d1 d2 d3 colon ∨ i = .dspBright level ∨ i = .dspCounter value ∨ i = .dspClock hours minutes →
    s.seq = .busy i [.pinSet .dio true] →
    exec i s = .next { s with pinDio := true, log := s.log ++ [.pin .dio true], seq := .idle }

/-- DSP.DIGITS begins with its first pin write whenever FG is idle and the operands are legal (R141). -/
def Obligations.DigitsBeginWithTheStartCondition : Prop :=
  ∀ (d0 d1 d2 d3 colon : Byte) (s : State), s.seq = .idle → d0 ≤ 9 → d1 ≤ 9 → d2 ≤ 9 → d3 ≤ 9 → colon ≤ 1 →
    ∃ rest, exec (.dspDigits d0 d1 d2 d3 colon) s = .next { s with
      pinClk := true
      log := s.log ++ [.pin .clk true]
      seq := .busy (.dspDigits d0 d1 d2 d3 colon) (.pinSet .dio true :: rest) }

/-! ## The whole machine -/

/-- A refused command changes nothing but the run's mark, and a command under way is never refused (R173, R178 (c)). -/
def Obligations.RefusedCommandsChangeNothing : Prop :=
  ∀ (i : Instr) (s t : State), exec i s = .next t → t.refusals ≠ s.refusals →
    s.seq = .idle ∧ ∃ r, t = { s with refusals := s.refusals ++ [r] }

/-- The invariant holds after reset. -/
def Obligations.InvHoldsAtReset : Prop := RunInv State.reset

/-- Every step keeps the invariant: `BRIGHT` stays legal, an armed timer is configured, `TX_STATE` is IDLE whenever `SEQ` is, a command
under way stands at one of its own positions with its latches holding what they must there: the divisor's pair in UART.DIV, the index,
length and payload in UART.TX, the length of a delay and the byte and the count of a bit cell in the display commands (R22, R29, R30,
R33, R36, R100, R113, R115 to R118, R130 to R134). -/
def Obligations.StepKeepsInv : Prop := ∀ s t, RunInv s → step s = .next t → RunInv t

/-- No state that meets the invariant faults, and no state at all is refused: every step of a run has a next state (R8, R51, R165,
R170). -/
def Obligations.EveryStepHasANextState : Prop :=
  (∀ s, RunInv s → ∃ t, step s = .next t) ∧ ∀ s r, step s ≠ .refused r

/-- The only stops, each by its name: `exec` asked to run a command while another is in progress, and a write of a byte outside `TXBUF`
(the model's own, log entries 14 and 17). -/
def Obligations.StopsAreTheseTwo : Prop :=
  (∀ (i j : Instr) (s : State) (rest : List Micro), s.seq = .busy j rest → j ≠ i → exec i s = .refused .commandInProgress) ∧
  (∀ (i : Instr) (s : State) (r : Refusal), exec i s = .refused r →
    r = .commandInProgress ∧ ∃ j rest, s.seq = .busy j rest ∧ j ≠ i) ∧
  (∀ (i : Instr) (s : State) (f : Fault), exec i s = .fault f →
    f = .txbufIndex ∧ s.txbuf.length ≤ s.txIdx.toNat ∧ ∃ rest, s.seq = .busy i (.txWrite :: rest))

/-- `LOG` only grows (R40). -/
def Obligations.LogOnlyGrows : Prop := ∀ s t, step s = .next t → s.log <+: t.log

/-- What the TICK commands leave unchanged: every register of the other units, the pins, `TXBUF`, `LOG`, and of their own unit all but
what their rules name (R100, R102, R103, R183). -/
def Obligations.TickCommandsFrame : Prop :=
  ∀ (dur : Tick) (s t : State), RunInv s →
    (exec .tickStart s = .next t →
      t = { s with tick := t.tick, timerArmed := t.timerArmed, timerPeriod := t.timerPeriod, seq := t.seq }) ∧
    (exec .tickNow s = .next t →
      t = { s with resTick := t.resTick, seq := t.seq, host := { s.host with received := t.host.received } }) ∧
    (exec (.tickWait dur) s = .next t → t = { s with wDur := t.wDur, wStart := t.wStart, seq := t.seq })

/-- What UART.DIV leaves unchanged: everything but the divisor registers, SEQ and the mark (R113). -/
def Obligations.UartDivFrame : Prop :=
  ∀ (baud clk : BitVec 32) (s t : State), RunInv s → exec (.uartDiv baud clk) s = .next t →
    t = { s with brrMant := t.brrMant, brrFrac := t.brrFrac, brrSet := t.brrSet, seq := t.seq, refusals := t.refusals }

/-- What UART.TX leaves unchanged: everything but its own registers, its operand space, SEQ, the delivered status, the record of the
answers, and at most one written byte a micro-step (R115). -/
def Obligations.UartTxFrame : Prop :=
  ∀ (timeout : Tick) (len : Half) (data : List Byte) (s t : State), RunInv s → exec (.uartTx timeout len data) s = .next t →
    t = { s with
      txState := t.txState, txStart := t.txStart, txTimeout := t.txTimeout, txIdx := t.txIdx, txLen := t.txLen
      resStatus := t.resStatus, txbuf := t.txbuf, seq := t.seq, log := t.log
      env := { s.env with answerScript := t.env.answerScript, answerDraws := t.env.answerDraws }
      host := { s.host with received := t.host.received } } ∧
    (t.log = s.log ∨ ∃ b, s.txbuf[s.txIdx.toNat]? = some b ∧ t.log = s.log ++ [.uartWr b])

/-- What the display commands leave unchanged: everything but the pins, their latches, SEQ, the mark and at most one event a micro-step;
`BRIGHT` is DSP.BRIGHT's alone and `COLON` DSP.CLOCK's (R33, R34, R131 to R147). -/
def Obligations.DisplayCommandsFrame : Prop :=
  ∀ (i : Instr) (v d0 d1 d2 d3 colon level hours minutes : Byte) (value : Half) (s t : State), RunInv s →
    exec i s = .next t →
    (i = .dspStart ∨ i = .dspByte v ∨ i = .dspAck ∨ i = .dspStop ∨ i = .dspDigits d0 d1 d2 d3 colon ∨ i = .dspCounter value ∨
      i = .dspBright level ∨ i = .dspClock hours minutes) →
    t = { s with
      pinClk := t.pinClk, pinDio := t.pinDio, sbShift := t.sbShift, sbCnt := t.sbCnt, wStart := t.wStart, wDur := t.wDur
      log := t.log, seq := t.seq, refusals := t.refusals, bright := t.bright, colon := t.colon } ∧
    (t.log = s.log ∨ (∃ p b, t.log = s.log ++ [.pin p b]) ∨ ∃ k, t.log = s.log ++ [.wait k]) ∧
    (i ≠ .dspBright level → t.bright = s.bright) ∧ (i ≠ .dspClock hours minutes → t.colon = s.colon)

/-- `Run()`: TICK.WAIT ITER_DELAY, then every Task's commands in list order, one at a time, and again (R160 to R162). What a Task issues
is a parameter of the machine (log entry 18). -/
def Obligations.RunWaitsThenRunsTasksInOrder : Prop :=
  ∀ (s : State) (n task k : Nat), s.seq = .idle → s.host.oscReady = true → s.host.queue = [] →
    (s.host.phase = .runWait n → step s = exec (.tickWait Config.iterDelay) (setPhase (.runTask n 0 0) (tmr s))) ∧
    (s.host.phase = .runTask n task k →
      step s =
        if task < Config.taskCount then
          match Config.taskCommand task n k s.host.received with
          | some i => exec i.val (setPhase (.runTask n task (k + 1)) (tmr s))
          | none => .next (setPhase (.runTask n (task + 1) 0) (tmr s))
        else .next (setPhase (.runWait (n + 1)) (tmr s)))

/-- If the oscillator never becomes ready the run is an infinite wait with the block as it was (R206, decision D27; log entry 19). -/
def Obligations.OscillatorFailureHangs : Prop :=
  ∀ (s : State) (k : Nat), s.host.oscReady = false → s.seq = .idle → s.timerArmed = false → Sys2Proof.core.run k s = .next s
end

