-- ==== Sys2Proof/Laws/Decode.lean ====
section
/-! SUPPORT. The small lemmas of the encoding (30_encoding.md R72, R73): a little-endian operand and its bytes determine each other, and an
opcode byte selects its own row. -/

namespace Sys2Proof

theorem append_toNat {n : Nat} (hi : BitVec n) (lo : Byte) : (hi ++ lo).toNat = 256 * hi.toNat + lo.toNat := by
  rw [BitVec.toNat_append, Nat.shiftLeft_eq, Nat.mul_comm, ← Nat.two_pow_add_eq_or_of_lt lo.isLt]

/-- A 32-bit operand is little-endian (R54, R72). -/
theorem word_toNat (a b c d : Byte) :
    (word a b c d).toNat = a.toNat + 256 * b.toNat + 65536 * c.toNat + 16777216 * d.toNat := by
  rw [word, append_toNat, append_toNat, append_toNat]
  omega

/-- A 16-bit operand is little-endian (R54, R72). -/
theorem half_toNat (a b : Byte) : (half a b).toNat = a.toNat + 256 * b.toNat := by
  rw [half, append_toNat]
  omega

theorem byteAt_toNat {w : Nat} (v : BitVec w) (k : Nat) : (byteAt v k).toNat = v.toNat / 2 ^ (8 * k) % 256 := by
  simp [byteAt, BitVec.extractLsb'_toNat, Nat.shiftRight_eq_div_pow]

theorem word_bytes (v : BitVec 32) : word (byteAt v 0) (byteAt v 1) (byteAt v 2) (byteAt v 3) = v := by
  have := v.isLt
  apply BitVec.eq_of_toNat_eq
  simp only [word_toNat, byteAt_toNat]
  omega

theorem half_bytes (v : Half) : half (byteAt v 0) (byteAt v 1) = v := by
  have := v.isLt
  apply BitVec.eq_of_toNat_eq
  simp only [half_toNat, byteAt_toNat]
  omega

theorem bytes_word (a b c d : Byte) : wordBytes (word a b c d) = [a, b, c, d] := by
  have := a.isLt
  have := b.isLt
  have := c.isLt
  simp only [wordBytes, List.cons.injEq, and_true]
  refine ⟨?_, ?_, ?_, ?_⟩ <;>
  · apply BitVec.eq_of_toNat_eq
    simp only [byteAt_toNat, word_toNat]
    omega

theorem bytes_half (a b : Byte) : halfBytes (half a b) = [a, b] := by
  have := a.isLt
  simp only [halfBytes, List.cons.injEq, and_true]
  refine ⟨?_, ?_⟩ <;>
  · apply BitVec.eq_of_toNat_eq
    simp only [byteAt_toNat, half_toNat]
    omega

theorem ofByte_byte (op : Opcode) : Opcode.ofByte op.byte = some op := by cases op <;> decide

theorem ofByte_some {b : Byte} {op : Opcode} (h : Opcode.ofByte b = some op) : b = op.byte := by
  have := List.find?_some h
  simpa using (beq_iff_eq.mp this).symm

end Sys2Proof
end

