-- ==== Sys2Proof/Laws/State.lean ====
section
/-! SUPPORT. One lemma per field and update of the state, true by rfl: no later proof unfolds a record update. -/

namespace Sys2Proof.Machine

/-! `withSeq` moves SEQ alone. -/

@[simp] theorem withSeq_tick (q : Seq) (s : State) : (withSeq q s).tick = s.tick := rfl
@[simp] theorem withSeq_timerArmed (q : Seq) (s : State) : (withSeq q s).timerArmed = s.timerArmed := rfl
@[simp] theorem withSeq_timerPeriod (q : Seq) (s : State) : (withSeq q s).timerPeriod = s.timerPeriod := rfl
@[simp] theorem withSeq_brrMant (q : Seq) (s : State) : (withSeq q s).brrMant = s.brrMant := rfl
@[simp] theorem withSeq_brrFrac (q : Seq) (s : State) : (withSeq q s).brrFrac = s.brrFrac := rfl
@[simp] theorem withSeq_brrSet (q : Seq) (s : State) : (withSeq q s).brrSet = s.brrSet := rfl
@[simp] theorem withSeq_txState (q : Seq) (s : State) : (withSeq q s).txState = s.txState := rfl
@[simp] theorem withSeq_txStart (q : Seq) (s : State) : (withSeq q s).txStart = s.txStart := rfl
@[simp] theorem withSeq_txTimeout (q : Seq) (s : State) : (withSeq q s).txTimeout = s.txTimeout := rfl
@[simp] theorem withSeq_txIdx (q : Seq) (s : State) : (withSeq q s).txIdx = s.txIdx := rfl
@[simp] theorem withSeq_txLen (q : Seq) (s : State) : (withSeq q s).txLen = s.txLen := rfl
@[simp] theorem withSeq_resStatus (q : Seq) (s : State) : (withSeq q s).resStatus = s.resStatus := rfl
@[simp] theorem withSeq_resTick (q : Seq) (s : State) : (withSeq q s).resTick = s.resTick := rfl
@[simp] theorem withSeq_wStart (q : Seq) (s : State) : (withSeq q s).wStart = s.wStart := rfl
@[simp] theorem withSeq_wDur (q : Seq) (s : State) : (withSeq q s).wDur = s.wDur := rfl
@[simp] theorem withSeq_bright (q : Seq) (s : State) : (withSeq q s).bright = s.bright := rfl
@[simp] theorem withSeq_colon (q : Seq) (s : State) : (withSeq q s).colon = s.colon := rfl
@[simp] theorem withSeq_pinClk (q : Seq) (s : State) : (withSeq q s).pinClk = s.pinClk := rfl
@[simp] theorem withSeq_pinDio (q : Seq) (s : State) : (withSeq q s).pinDio = s.pinDio := rfl
@[simp] theorem withSeq_sbShift (q : Seq) (s : State) : (withSeq q s).sbShift = s.sbShift := rfl
@[simp] theorem withSeq_sbCnt (q : Seq) (s : State) : (withSeq q s).sbCnt = s.sbCnt := rfl
@[simp] theorem withSeq_seq (q : Seq) (s : State) : (withSeq q s).seq = q := rfl
@[simp] theorem withSeq_txbuf (q : Seq) (s : State) : (withSeq q s).txbuf = s.txbuf := rfl
@[simp] theorem withSeq_log (q : Seq) (s : State) : (withSeq q s).log = s.log := rfl
@[simp] theorem withSeq_refusals (q : Seq) (s : State) : (withSeq q s).refusals = s.refusals := rfl
@[simp] theorem withSeq_host (q : Seq) (s : State) : (withSeq q s).host = s.host := rfl
@[simp] theorem withSeq_env (q : Seq) (s : State) : (withSeq q s).env = s.env := rfl

/-! `logEvent` appends one event. -/

@[simp] theorem logEvent_tick (e : Event) (s : State) : (logEvent e s).tick = s.tick := rfl
@[simp] theorem logEvent_timerArmed (e : Event) (s : State) : (logEvent e s).timerArmed = s.timerArmed := rfl
@[simp] theorem logEvent_timerPeriod (e : Event) (s : State) : (logEvent e s).timerPeriod = s.timerPeriod := rfl
@[simp] theorem logEvent_brrMant (e : Event) (s : State) : (logEvent e s).brrMant = s.brrMant := rfl
@[simp] theorem logEvent_brrFrac (e : Event) (s : State) : (logEvent e s).brrFrac = s.brrFrac := rfl
@[simp] theorem logEvent_brrSet (e : Event) (s : State) : (logEvent e s).brrSet = s.brrSet := rfl
@[simp] theorem logEvent_txState (e : Event) (s : State) : (logEvent e s).txState = s.txState := rfl
@[simp] theorem logEvent_txStart (e : Event) (s : State) : (logEvent e s).txStart = s.txStart := rfl
@[simp] theorem logEvent_txTimeout (e : Event) (s : State) : (logEvent e s).txTimeout = s.txTimeout := rfl
@[simp] theorem logEvent_txIdx (e : Event) (s : State) : (logEvent e s).txIdx = s.txIdx := rfl
@[simp] theorem logEvent_txLen (e : Event) (s : State) : (logEvent e s).txLen = s.txLen := rfl
@[simp] theorem logEvent_resStatus (e : Event) (s : State) : (logEvent e s).resStatus = s.resStatus := rfl
@[simp] theorem logEvent_resTick (e : Event) (s : State) : (logEvent e s).resTick = s.resTick := rfl
@[simp] theorem logEvent_wStart (e : Event) (s : State) : (logEvent e s).wStart = s.wStart := rfl
@[simp] theorem logEvent_wDur (e : Event) (s : State) : (logEvent e s).wDur = s.wDur := rfl
@[simp] theorem logEvent_bright (e : Event) (s : State) : (logEvent e s).bright = s.bright := rfl
@[simp] theorem logEvent_colon (e : Event) (s : State) : (logEvent e s).colon = s.colon := rfl
@[simp] theorem logEvent_pinClk (e : Event) (s : State) : (logEvent e s).pinClk = s.pinClk := rfl
@[simp] theorem logEvent_pinDio (e : Event) (s : State) : (logEvent e s).pinDio = s.pinDio := rfl
@[simp] theorem logEvent_sbShift (e : Event) (s : State) : (logEvent e s).sbShift = s.sbShift := rfl
@[simp] theorem logEvent_sbCnt (e : Event) (s : State) : (logEvent e s).sbCnt = s.sbCnt := rfl
@[simp] theorem logEvent_seq (e : Event) (s : State) : (logEvent e s).seq = s.seq := rfl
@[simp] theorem logEvent_txbuf (e : Event) (s : State) : (logEvent e s).txbuf = s.txbuf := rfl
@[simp] theorem logEvent_log (e : Event) (s : State) : (logEvent e s).log = s.log ++ [e] := rfl
@[simp] theorem logEvent_refusals (e : Event) (s : State) : (logEvent e s).refusals = s.refusals := rfl
@[simp] theorem logEvent_host (e : Event) (s : State) : (logEvent e s).host = s.host := rfl
@[simp] theorem logEvent_env (e : Event) (s : State) : (logEvent e s).env = s.env := rfl

/-! `setPin .clk` drives one pin and appends one event. -/

@[simp] theorem setPin_clk_tick (v : Bool) (s : State) : (setPin .clk v s).tick = s.tick := rfl
@[simp] theorem setPin_clk_timerArmed (v : Bool) (s : State) : (setPin .clk v s).timerArmed = s.timerArmed := rfl
@[simp] theorem setPin_clk_timerPeriod (v : Bool) (s : State) : (setPin .clk v s).timerPeriod = s.timerPeriod := rfl
@[simp] theorem setPin_clk_brrMant (v : Bool) (s : State) : (setPin .clk v s).brrMant = s.brrMant := rfl
@[simp] theorem setPin_clk_brrFrac (v : Bool) (s : State) : (setPin .clk v s).brrFrac = s.brrFrac := rfl
@[simp] theorem setPin_clk_brrSet (v : Bool) (s : State) : (setPin .clk v s).brrSet = s.brrSet := rfl
@[simp] theorem setPin_clk_txState (v : Bool) (s : State) : (setPin .clk v s).txState = s.txState := rfl
@[simp] theorem setPin_clk_txStart (v : Bool) (s : State) : (setPin .clk v s).txStart = s.txStart := rfl
@[simp] theorem setPin_clk_txTimeout (v : Bool) (s : State) : (setPin .clk v s).txTimeout = s.txTimeout := rfl
@[simp] theorem setPin_clk_txIdx (v : Bool) (s : State) : (setPin .clk v s).txIdx = s.txIdx := rfl
@[simp] theorem setPin_clk_txLen (v : Bool) (s : State) : (setPin .clk v s).txLen = s.txLen := rfl
@[simp] theorem setPin_clk_resStatus (v : Bool) (s : State) : (setPin .clk v s).resStatus = s.resStatus := rfl
@[simp] theorem setPin_clk_resTick (v : Bool) (s : State) : (setPin .clk v s).resTick = s.resTick := rfl
@[simp] theorem setPin_clk_wStart (v : Bool) (s : State) : (setPin .clk v s).wStart = s.wStart := rfl
@[simp] theorem setPin_clk_wDur (v : Bool) (s : State) : (setPin .clk v s).wDur = s.wDur := rfl
@[simp] theorem setPin_clk_bright (v : Bool) (s : State) : (setPin .clk v s).bright = s.bright := rfl
@[simp] theorem setPin_clk_colon (v : Bool) (s : State) : (setPin .clk v s).colon = s.colon := rfl
@[simp] theorem setPin_clk_pinClk (v : Bool) (s : State) : (setPin .clk v s).pinClk = v := rfl
@[simp] theorem setPin_clk_pinDio (v : Bool) (s : State) : (setPin .clk v s).pinDio = s.pinDio := rfl
@[simp] theorem setPin_clk_sbShift (v : Bool) (s : State) : (setPin .clk v s).sbShift = s.sbShift := rfl
@[simp] theorem setPin_clk_sbCnt (v : Bool) (s : State) : (setPin .clk v s).sbCnt = s.sbCnt := rfl
@[simp] theorem setPin_clk_seq (v : Bool) (s : State) : (setPin .clk v s).seq = s.seq := rfl
@[simp] theorem setPin_clk_txbuf (v : Bool) (s : State) : (setPin .clk v s).txbuf = s.txbuf := rfl
@[simp] theorem setPin_clk_log (v : Bool) (s : State) : (setPin .clk v s).log = s.log ++ [.pin .clk v] := rfl
@[simp] theorem setPin_clk_refusals (v : Bool) (s : State) : (setPin .clk v s).refusals = s.refusals := rfl
@[simp] theorem setPin_clk_host (v : Bool) (s : State) : (setPin .clk v s).host = s.host := rfl
@[simp] theorem setPin_clk_env (v : Bool) (s : State) : (setPin .clk v s).env = s.env := rfl

/-! `setPin .dio` drives one pin and appends one event. -/

@[simp] theorem setPin_dio_tick (v : Bool) (s : State) : (setPin .dio v s).tick = s.tick := rfl
@[simp] theorem setPin_dio_timerArmed (v : Bool) (s : State) : (setPin .dio v s).timerArmed = s.timerArmed := rfl
@[simp] theorem setPin_dio_timerPeriod (v : Bool) (s : State) : (setPin .dio v s).timerPeriod = s.timerPeriod := rfl
@[simp] theorem setPin_dio_brrMant (v : Bool) (s : State) : (setPin .dio v s).brrMant = s.brrMant := rfl
@[simp] theorem setPin_dio_brrFrac (v : Bool) (s : State) : (setPin .dio v s).brrFrac = s.brrFrac := rfl
@[simp] theorem setPin_dio_brrSet (v : Bool) (s : State) : (setPin .dio v s).brrSet = s.brrSet := rfl
@[simp] theorem setPin_dio_txState (v : Bool) (s : State) : (setPin .dio v s).txState = s.txState := rfl
@[simp] theorem setPin_dio_txStart (v : Bool) (s : State) : (setPin .dio v s).txStart = s.txStart := rfl
@[simp] theorem setPin_dio_txTimeout (v : Bool) (s : State) : (setPin .dio v s).txTimeout = s.txTimeout := rfl
@[simp] theorem setPin_dio_txIdx (v : Bool) (s : State) : (setPin .dio v s).txIdx = s.txIdx := rfl
@[simp] theorem setPin_dio_txLen (v : Bool) (s : State) : (setPin .dio v s).txLen = s.txLen := rfl
@[simp] theorem setPin_dio_resStatus (v : Bool) (s : State) : (setPin .dio v s).resStatus = s.resStatus := rfl
@[simp] theorem setPin_dio_resTick (v : Bool) (s : State) : (setPin .dio v s).resTick = s.resTick := rfl
@[simp] theorem setPin_dio_wStart (v : Bool) (s : State) : (setPin .dio v s).wStart = s.wStart := rfl
@[simp] theorem setPin_dio_wDur (v : Bool) (s : State) : (setPin .dio v s).wDur = s.wDur := rfl
@[simp] theorem setPin_dio_bright (v : Bool) (s : State) : (setPin .dio v s).bright = s.bright := rfl
@[simp] theorem setPin_dio_colon (v : Bool) (s : State) : (setPin .dio v s).colon = s.colon := rfl
@[simp] theorem setPin_dio_pinClk (v : Bool) (s : State) : (setPin .dio v s).pinClk = s.pinClk := rfl
@[simp] theorem setPin_dio_pinDio (v : Bool) (s : State) : (setPin .dio v s).pinDio = v := rfl
@[simp] theorem setPin_dio_sbShift (v : Bool) (s : State) : (setPin .dio v s).sbShift = s.sbShift := rfl
@[simp] theorem setPin_dio_sbCnt (v : Bool) (s : State) : (setPin .dio v s).sbCnt = s.sbCnt := rfl
@[simp] theorem setPin_dio_seq (v : Bool) (s : State) : (setPin .dio v s).seq = s.seq := rfl
@[simp] theorem setPin_dio_txbuf (v : Bool) (s : State) : (setPin .dio v s).txbuf = s.txbuf := rfl
@[simp] theorem setPin_dio_log (v : Bool) (s : State) : (setPin .dio v s).log = s.log ++ [.pin .dio v] := rfl
@[simp] theorem setPin_dio_refusals (v : Bool) (s : State) : (setPin .dio v s).refusals = s.refusals := rfl
@[simp] theorem setPin_dio_host (v : Bool) (s : State) : (setPin .dio v s).host = s.host := rfl
@[simp] theorem setPin_dio_env (v : Bool) (s : State) : (setPin .dio v s).env = s.env := rfl

/-! `uartWrite` appends one event. -/

@[simp] theorem uartWrite_tick (b : Byte) (s : State) : (uartWrite b s).tick = s.tick := rfl
@[simp] theorem uartWrite_timerArmed (b : Byte) (s : State) : (uartWrite b s).timerArmed = s.timerArmed := rfl
@[simp] theorem uartWrite_timerPeriod (b : Byte) (s : State) : (uartWrite b s).timerPeriod = s.timerPeriod := rfl
@[simp] theorem uartWrite_brrMant (b : Byte) (s : State) : (uartWrite b s).brrMant = s.brrMant := rfl
@[simp] theorem uartWrite_brrFrac (b : Byte) (s : State) : (uartWrite b s).brrFrac = s.brrFrac := rfl
@[simp] theorem uartWrite_brrSet (b : Byte) (s : State) : (uartWrite b s).brrSet = s.brrSet := rfl
@[simp] theorem uartWrite_txState (b : Byte) (s : State) : (uartWrite b s).txState = s.txState := rfl
@[simp] theorem uartWrite_txStart (b : Byte) (s : State) : (uartWrite b s).txStart = s.txStart := rfl
@[simp] theorem uartWrite_txTimeout (b : Byte) (s : State) : (uartWrite b s).txTimeout = s.txTimeout := rfl
@[simp] theorem uartWrite_txIdx (b : Byte) (s : State) : (uartWrite b s).txIdx = s.txIdx := rfl
@[simp] theorem uartWrite_txLen (b : Byte) (s : State) : (uartWrite b s).txLen = s.txLen := rfl
@[simp] theorem uartWrite_resStatus (b : Byte) (s : State) : (uartWrite b s).resStatus = s.resStatus := rfl
@[simp] theorem uartWrite_resTick (b : Byte) (s : State) : (uartWrite b s).resTick = s.resTick := rfl
@[simp] theorem uartWrite_wStart (b : Byte) (s : State) : (uartWrite b s).wStart = s.wStart := rfl
@[simp] theorem uartWrite_wDur (b : Byte) (s : State) : (uartWrite b s).wDur = s.wDur := rfl
@[simp] theorem uartWrite_bright (b : Byte) (s : State) : (uartWrite b s).bright = s.bright := rfl
@[simp] theorem uartWrite_colon (b : Byte) (s : State) : (uartWrite b s).colon = s.colon := rfl
@[simp] theorem uartWrite_pinClk (b : Byte) (s : State) : (uartWrite b s).pinClk = s.pinClk := rfl
@[simp] theorem uartWrite_pinDio (b : Byte) (s : State) : (uartWrite b s).pinDio = s.pinDio := rfl
@[simp] theorem uartWrite_sbShift (b : Byte) (s : State) : (uartWrite b s).sbShift = s.sbShift := rfl
@[simp] theorem uartWrite_sbCnt (b : Byte) (s : State) : (uartWrite b s).sbCnt = s.sbCnt := rfl
@[simp] theorem uartWrite_seq (b : Byte) (s : State) : (uartWrite b s).seq = s.seq := rfl
@[simp] theorem uartWrite_txbuf (b : Byte) (s : State) : (uartWrite b s).txbuf = s.txbuf := rfl
@[simp] theorem uartWrite_log (b : Byte) (s : State) : (uartWrite b s).log = s.log ++ [.uartWr b] := rfl
@[simp] theorem uartWrite_refusals (b : Byte) (s : State) : (uartWrite b s).refusals = s.refusals := rfl
@[simp] theorem uartWrite_host (b : Byte) (s : State) : (uartWrite b s).host = s.host := rfl
@[simp] theorem uartWrite_env (b : Byte) (s : State) : (uartWrite b s).env = s.env := rfl

/-! `sampled` moves the record of the environment alone. -/

@[simp] theorem sampled_tick (s : State) : (sampled s).tick = s.tick := rfl
@[simp] theorem sampled_timerArmed (s : State) : (sampled s).timerArmed = s.timerArmed := rfl
@[simp] theorem sampled_timerPeriod (s : State) : (sampled s).timerPeriod = s.timerPeriod := rfl
@[simp] theorem sampled_brrMant (s : State) : (sampled s).brrMant = s.brrMant := rfl
@[simp] theorem sampled_brrFrac (s : State) : (sampled s).brrFrac = s.brrFrac := rfl
@[simp] theorem sampled_brrSet (s : State) : (sampled s).brrSet = s.brrSet := rfl
@[simp] theorem sampled_txState (s : State) : (sampled s).txState = s.txState := rfl
@[simp] theorem sampled_txStart (s : State) : (sampled s).txStart = s.txStart := rfl
@[simp] theorem sampled_txTimeout (s : State) : (sampled s).txTimeout = s.txTimeout := rfl
@[simp] theorem sampled_txIdx (s : State) : (sampled s).txIdx = s.txIdx := rfl
@[simp] theorem sampled_txLen (s : State) : (sampled s).txLen = s.txLen := rfl
@[simp] theorem sampled_resStatus (s : State) : (sampled s).resStatus = s.resStatus := rfl
@[simp] theorem sampled_resTick (s : State) : (sampled s).resTick = s.resTick := rfl
@[simp] theorem sampled_wStart (s : State) : (sampled s).wStart = s.wStart := rfl
@[simp] theorem sampled_wDur (s : State) : (sampled s).wDur = s.wDur := rfl
@[simp] theorem sampled_bright (s : State) : (sampled s).bright = s.bright := rfl
@[simp] theorem sampled_colon (s : State) : (sampled s).colon = s.colon := rfl
@[simp] theorem sampled_pinClk (s : State) : (sampled s).pinClk = s.pinClk := rfl
@[simp] theorem sampled_pinDio (s : State) : (sampled s).pinDio = s.pinDio := rfl
@[simp] theorem sampled_sbShift (s : State) : (sampled s).sbShift = s.sbShift := rfl
@[simp] theorem sampled_sbCnt (s : State) : (sampled s).sbCnt = s.sbCnt := rfl
@[simp] theorem sampled_seq (s : State) : (sampled s).seq = s.seq := rfl
@[simp] theorem sampled_txbuf (s : State) : (sampled s).txbuf = s.txbuf := rfl
@[simp] theorem sampled_log (s : State) : (sampled s).log = s.log := rfl
@[simp] theorem sampled_refusals (s : State) : (sampled s).refusals = s.refusals := rfl
@[simp] theorem sampled_host (s : State) : (sampled s).host = s.host := rfl
@[simp] theorem sampled_env (s : State) : (sampled s).env = answered s.env := rfl

/-! `onTick` writes `TICK` alone, and is recorded. -/

@[simp] theorem onTick_tick (s : State) : (onTick s).tick = s.tick + 1 := rfl
@[simp] theorem onTick_timerArmed (s : State) : (onTick s).timerArmed = s.timerArmed := rfl
@[simp] theorem onTick_timerPeriod (s : State) : (onTick s).timerPeriod = s.timerPeriod := rfl
@[simp] theorem onTick_brrMant (s : State) : (onTick s).brrMant = s.brrMant := rfl
@[simp] theorem onTick_brrFrac (s : State) : (onTick s).brrFrac = s.brrFrac := rfl
@[simp] theorem onTick_brrSet (s : State) : (onTick s).brrSet = s.brrSet := rfl
@[simp] theorem onTick_txState (s : State) : (onTick s).txState = s.txState := rfl
@[simp] theorem onTick_txStart (s : State) : (onTick s).txStart = s.txStart := rfl
@[simp] theorem onTick_txTimeout (s : State) : (onTick s).txTimeout = s.txTimeout := rfl
@[simp] theorem onTick_txIdx (s : State) : (onTick s).txIdx = s.txIdx := rfl
@[simp] theorem onTick_txLen (s : State) : (onTick s).txLen = s.txLen := rfl
@[simp] theorem onTick_resStatus (s : State) : (onTick s).resStatus = s.resStatus := rfl
@[simp] theorem onTick_resTick (s : State) : (onTick s).resTick = s.resTick := rfl
@[simp] theorem onTick_wStart (s : State) : (onTick s).wStart = s.wStart := rfl
@[simp] theorem onTick_wDur (s : State) : (onTick s).wDur = s.wDur := rfl
@[simp] theorem onTick_bright (s : State) : (onTick s).bright = s.bright := rfl
@[simp] theorem onTick_colon (s : State) : (onTick s).colon = s.colon := rfl
@[simp] theorem onTick_pinClk (s : State) : (onTick s).pinClk = s.pinClk := rfl
@[simp] theorem onTick_pinDio (s : State) : (onTick s).pinDio = s.pinDio := rfl
@[simp] theorem onTick_sbShift (s : State) : (onTick s).sbShift = s.sbShift := rfl
@[simp] theorem onTick_sbCnt (s : State) : (onTick s).sbCnt = s.sbCnt := rfl
@[simp] theorem onTick_seq (s : State) : (onTick s).seq = s.seq := rfl
@[simp] theorem onTick_txbuf (s : State) : (onTick s).txbuf = s.txbuf := rfl
@[simp] theorem onTick_log (s : State) : (onTick s).log = s.log ++ [.tick] := rfl
@[simp] theorem onTick_refusals (s : State) : (onTick s).refusals = s.refusals := rfl
@[simp] theorem onTick_host (s : State) : (onTick s).host = s.host := rfl
@[simp] theorem onTick_env (s : State) : (onTick s).env = s.env := rfl

/-! `refuse` leaves only the mark. -/

@[simp] theorem refuse_tick (r : RefusalReason) (s : State) : (refuse r s).tick = s.tick := rfl
@[simp] theorem refuse_timerArmed (r : RefusalReason) (s : State) : (refuse r s).timerArmed = s.timerArmed := rfl
@[simp] theorem refuse_timerPeriod (r : RefusalReason) (s : State) : (refuse r s).timerPeriod = s.timerPeriod := rfl
@[simp] theorem refuse_brrMant (r : RefusalReason) (s : State) : (refuse r s).brrMant = s.brrMant := rfl
@[simp] theorem refuse_brrFrac (r : RefusalReason) (s : State) : (refuse r s).brrFrac = s.brrFrac := rfl
@[simp] theorem refuse_brrSet (r : RefusalReason) (s : State) : (refuse r s).brrSet = s.brrSet := rfl
@[simp] theorem refuse_txState (r : RefusalReason) (s : State) : (refuse r s).txState = s.txState := rfl
@[simp] theorem refuse_txStart (r : RefusalReason) (s : State) : (refuse r s).txStart = s.txStart := rfl
@[simp] theorem refuse_txTimeout (r : RefusalReason) (s : State) : (refuse r s).txTimeout = s.txTimeout := rfl
@[simp] theorem refuse_txIdx (r : RefusalReason) (s : State) : (refuse r s).txIdx = s.txIdx := rfl
@[simp] theorem refuse_txLen (r : RefusalReason) (s : State) : (refuse r s).txLen = s.txLen := rfl
@[simp] theorem refuse_resStatus (r : RefusalReason) (s : State) : (refuse r s).resStatus = s.resStatus := rfl
@[simp] theorem refuse_resTick (r : RefusalReason) (s : State) : (refuse r s).resTick = s.resTick := rfl
@[simp] theorem refuse_wStart (r : RefusalReason) (s : State) : (refuse r s).wStart = s.wStart := rfl
@[simp] theorem refuse_wDur (r : RefusalReason) (s : State) : (refuse r s).wDur = s.wDur := rfl
@[simp] theorem refuse_bright (r : RefusalReason) (s : State) : (refuse r s).bright = s.bright := rfl
@[simp] theorem refuse_colon (r : RefusalReason) (s : State) : (refuse r s).colon = s.colon := rfl
@[simp] theorem refuse_pinClk (r : RefusalReason) (s : State) : (refuse r s).pinClk = s.pinClk := rfl
@[simp] theorem refuse_pinDio (r : RefusalReason) (s : State) : (refuse r s).pinDio = s.pinDio := rfl
@[simp] theorem refuse_sbShift (r : RefusalReason) (s : State) : (refuse r s).sbShift = s.sbShift := rfl
@[simp] theorem refuse_sbCnt (r : RefusalReason) (s : State) : (refuse r s).sbCnt = s.sbCnt := rfl
@[simp] theorem refuse_seq (r : RefusalReason) (s : State) : (refuse r s).seq = .idle := rfl
@[simp] theorem refuse_txbuf (r : RefusalReason) (s : State) : (refuse r s).txbuf = s.txbuf := rfl
@[simp] theorem refuse_log (r : RefusalReason) (s : State) : (refuse r s).log = s.log := rfl
@[simp] theorem refuse_refusals (r : RefusalReason) (s : State) : (refuse r s).refusals = s.refusals ++ [r] := rfl
@[simp] theorem refuse_host (r : RefusalReason) (s : State) : (refuse r s).host = s.host := rfl
@[simp] theorem refuse_env (r : RefusalReason) (s : State) : (refuse r s).env = s.env := rfl

/-! `complete` frees the sequencer and delivers. -/

@[simp] theorem complete_tick (i : Instr) (s : State) : (complete i s).tick = s.tick := rfl
@[simp] theorem complete_timerArmed (i : Instr) (s : State) : (complete i s).timerArmed = s.timerArmed := rfl
@[simp] theorem complete_timerPeriod (i : Instr) (s : State) : (complete i s).timerPeriod = s.timerPeriod := rfl
@[simp] theorem complete_brrMant (i : Instr) (s : State) : (complete i s).brrMant = s.brrMant := rfl
@[simp] theorem complete_brrFrac (i : Instr) (s : State) : (complete i s).brrFrac = s.brrFrac := rfl
@[simp] theorem complete_brrSet (i : Instr) (s : State) : (complete i s).brrSet = s.brrSet := rfl
@[simp] theorem complete_txState (i : Instr) (s : State) : (complete i s).txState = s.txState := rfl
@[simp] theorem complete_txStart (i : Instr) (s : State) : (complete i s).txStart = s.txStart := rfl
@[simp] theorem complete_txTimeout (i : Instr) (s : State) : (complete i s).txTimeout = s.txTimeout := rfl
@[simp] theorem complete_txIdx (i : Instr) (s : State) : (complete i s).txIdx = s.txIdx := rfl
@[simp] theorem complete_txLen (i : Instr) (s : State) : (complete i s).txLen = s.txLen := rfl
@[simp] theorem complete_resStatus (i : Instr) (s : State) : (complete i s).resStatus = s.resStatus := rfl
@[simp] theorem complete_resTick (i : Instr) (s : State) : (complete i s).resTick = s.resTick := rfl
@[simp] theorem complete_wStart (i : Instr) (s : State) : (complete i s).wStart = s.wStart := rfl
@[simp] theorem complete_wDur (i : Instr) (s : State) : (complete i s).wDur = s.wDur := rfl
@[simp] theorem complete_bright (i : Instr) (s : State) : (complete i s).bright = s.bright := rfl
@[simp] theorem complete_colon (i : Instr) (s : State) : (complete i s).colon = s.colon := rfl
@[simp] theorem complete_pinClk (i : Instr) (s : State) : (complete i s).pinClk = s.pinClk := rfl
@[simp] theorem complete_pinDio (i : Instr) (s : State) : (complete i s).pinDio = s.pinDio := rfl
@[simp] theorem complete_sbShift (i : Instr) (s : State) : (complete i s).sbShift = s.sbShift := rfl
@[simp] theorem complete_sbCnt (i : Instr) (s : State) : (complete i s).sbCnt = s.sbCnt := rfl
@[simp] theorem complete_seq (i : Instr) (s : State) : (complete i s).seq = .idle := rfl
@[simp] theorem complete_txbuf (i : Instr) (s : State) : (complete i s).txbuf = s.txbuf := rfl
@[simp] theorem complete_log (i : Instr) (s : State) : (complete i s).log = s.log := rfl
@[simp] theorem complete_refusals (i : Instr) (s : State) : (complete i s).refusals = s.refusals := rfl
@[simp] theorem complete_host (i : Instr) (s : State) : (complete i s).host = { s.host with received := s.host.received ++ response i s } := rfl
@[simp] theorem complete_env (i : Instr) (s : State) : (complete i s).env = s.env := rfl

end Sys2Proof.Machine
end

