-- ==== Sys2Proof/Laws/Ops.lean ====
section
/-! SUPPORT. What the shared operations do, said once: TMR's steps in closed form (40_tickclock.md R101), a UART sample (10_state.md R32),
the decoder's operand words, and the log seen without ticks. -/

namespace Sys2Proof.Machine

open Sys2Proof.Safety

/-- `n` steps of TMR in closed form: `TICK` moves on by `n` and nothing else of the block changes (R101, R179). -/
theorem ticks_eq (n : Nat) (s : State) :
    ticks n s = { s with tick := s.tick + BitVec.ofNat 32 n, log := s.log ++ List.replicate n .tick } := by
  induction n generalizing s with
  | zero => simp [ticks]
  | succ n ih =>
    rw [ticks, ih]
    simp only [onTick, List.append_assoc, List.replicate_succ, List.singleton_append, BitVec.ofNat_add]
    congr 1
    rw [BitVec.add_comm (BitVec.ofNat 32 n), ← BitVec.add_assoc]
    rfl

/-- How many of the `n` steps offered TMR takes: all while armed, none otherwise (R101). -/
def taken (n : Nat) (s : State) : Nat := if s.timerArmed then n else 0

/-- TMR between two micro-steps, in closed form. -/
theorem tickN_eq (n : Nat) (s : State) :
    tickN n s = { s with tick := s.tick + BitVec.ofNat 32 (taken n s), log := s.log ++ List.replicate (taken n s) .tick } := by
  unfold tickN taken
  split
  · exact ticks_eq n s
  · rename_i h; cases s; simp_all

theorem tickN_zero (s : State) : tickN 0 s = s := by simp [tickN, ticks]

theorem tickN_unarmed {s : State} (h : s.timerArmed = false) (n : Nat) : tickN n s = s := by simp [tickN, h]

@[simp] theorem tickN_seq (n : Nat) (s : State) : (tickN n s).seq = s.seq := by rw [tickN_eq]

@[simp] theorem tickN_timerArmed (n : Nat) (s : State) : (tickN n s).timerArmed = s.timerArmed := by rw [tickN_eq]

@[simp] theorem tickN_timerPeriod (n : Nat) (s : State) : (tickN n s).timerPeriod = s.timerPeriod := by rw [tickN_eq]
@[simp] theorem tickN_brrMant (n : Nat) (s : State) : (tickN n s).brrMant = s.brrMant := by rw [tickN_eq]
@[simp] theorem tickN_brrFrac (n : Nat) (s : State) : (tickN n s).brrFrac = s.brrFrac := by rw [tickN_eq]
@[simp] theorem tickN_brrSet (n : Nat) (s : State) : (tickN n s).brrSet = s.brrSet := by rw [tickN_eq]
@[simp] theorem tickN_txState (n : Nat) (s : State) : (tickN n s).txState = s.txState := by rw [tickN_eq]
@[simp] theorem tickN_txStart (n : Nat) (s : State) : (tickN n s).txStart = s.txStart := by rw [tickN_eq]
@[simp] theorem tickN_txTimeout (n : Nat) (s : State) : (tickN n s).txTimeout = s.txTimeout := by rw [tickN_eq]
@[simp] theorem tickN_txIdx (n : Nat) (s : State) : (tickN n s).txIdx = s.txIdx := by rw [tickN_eq]
@[simp] theorem tickN_txLen (n : Nat) (s : State) : (tickN n s).txLen = s.txLen := by rw [tickN_eq]
@[simp] theorem tickN_resStatus (n : Nat) (s : State) : (tickN n s).resStatus = s.resStatus := by rw [tickN_eq]
@[simp] theorem tickN_resTick (n : Nat) (s : State) : (tickN n s).resTick = s.resTick := by rw [tickN_eq]
@[simp] theorem tickN_wStart (n : Nat) (s : State) : (tickN n s).wStart = s.wStart := by rw [tickN_eq]
@[simp] theorem tickN_wDur (n : Nat) (s : State) : (tickN n s).wDur = s.wDur := by rw [tickN_eq]
@[simp] theorem tickN_bright (n : Nat) (s : State) : (tickN n s).bright = s.bright := by rw [tickN_eq]
@[simp] theorem tickN_colon (n : Nat) (s : State) : (tickN n s).colon = s.colon := by rw [tickN_eq]
@[simp] theorem tickN_pinClk (n : Nat) (s : State) : (tickN n s).pinClk = s.pinClk := by rw [tickN_eq]
@[simp] theorem tickN_pinDio (n : Nat) (s : State) : (tickN n s).pinDio = s.pinDio := by rw [tickN_eq]
@[simp] theorem tickN_sbShift (n : Nat) (s : State) : (tickN n s).sbShift = s.sbShift := by rw [tickN_eq]
@[simp] theorem tickN_sbCnt (n : Nat) (s : State) : (tickN n s).sbCnt = s.sbCnt := by rw [tickN_eq]
@[simp] theorem tickN_txbuf (n : Nat) (s : State) : (tickN n s).txbuf = s.txbuf := by rw [tickN_eq]
@[simp] theorem tickN_refusals (n : Nat) (s : State) : (tickN n s).refusals = s.refusals := by rw [tickN_eq]
@[simp] theorem tickN_host (n : Nat) (s : State) : (tickN n s).host = s.host := by rw [tickN_eq]
@[simp] theorem tickN_env (n : Nat) (s : State) : (tickN n s).env = s.env := by rw [tickN_eq]

/-- TMR's part of a step is some number of its steps, and the record of the choice (R6). -/
theorem tmr_eq (s : State) : ∃ n e, tmr s = { tickN n s with env := e } := by
  by_cases h : s.timerArmed
  · exact ⟨ticksChosen s.env, choseTicks s.env, by simp [tmr, h, ticks_eq, tickN_eq, taken]⟩
  · exact ⟨0, s.env, by rw [tickN_zero, tmr, if_neg h]⟩

theorem tmr_unarmed {s : State} (h : s.timerArmed = false) : tmr s = s := by simp [tmr, h]

@[simp] theorem tmr_seq (s : State) : (tmr s).seq = s.seq := by
  obtain ⟨n, e, h⟩ := tmr_eq s
  simp [h]

@[simp] theorem tmr_host (s : State) : (tmr s).host = s.host := by
  obtain ⟨n, e, h⟩ := tmr_eq s
  simp [h, tickN_eq]

@[simp] theorem visible_append (l m : List Event) : visible (l ++ m) = visible l ++ visible m := by simp [visible]

@[simp] theorem visible_ticks (n : Nat) : visible (List.replicate n .tick) = [] := by
  simp [visible]

@[simp] theorem visible_nil : visible [] = [] := rfl

@[simp] theorem visible_pin (p : Pin) (v : Bool) (l : List Event) : visible (.pin p v :: l) = .pin p v :: visible l := rfl

@[simp] theorem visible_wait (k : DelayKind) (l : List Event) : visible (.wait k :: l) = .wait k :: visible l := rfl

@[simp] theorem visible_uartWr (b : Byte) (l : List Event) : visible (.uartWr b :: l) = .uartWr b :: visible l := rfl

theorem visible_tickN (n : Nat) (s : State) : visible (tickN n s).log = visible s.log := by rw [tickN_eq]; simp

end Sys2Proof.Machine
end

