-- ==== Sys2Proof/Laws/Sequencer.lean ====
section
/-! SUPPORT. What one call of `exec` can do, said once for all commands (10_state.md R22), and the whole of a command as a run of its
micro-steps. -/

namespace Sys2Proof.Machine

open Sys2Proof.Safety

/-- The plan each meaning gives to the sequencer. -/
def planOf (i : Instr) (s : State) : Plan :=
  match i with
  | .tickStart => planTickStart s
  | .tickNow => planTickNow s
  | .tickWait dur => planTickWait dur s
  | .uartDiv baud clk => planUartDiv baud clk s
  | .uartTx timeout len data => planUartTx timeout len data s
  | .dspStart => planDspStart s
  | .dspByte value => planDspByte value s
  | .dspAck => planDspAck s
  | .dspStop => planDspStop s
  | .dspDigits d0 d1 d2 d3 colon => planDspDigits d0 d1 d2 d3 colon s
  | .dspBright level => planDspBright level s
  | .dspCounter value => planDspCounter value s
  | .dspClock hours minutes => planDspClock hours minutes s

/-- Every meaning is the sequencer applied to the command's plan. -/
theorem exec_eq (i : Instr) (s : State) : exec i s = runCommand i (planOf i) s := by cases i <;> rfl

theorem exec_idle_ok {i : Instr} {s : State} {ms : List Micro} (h : s.seq = .idle) (hp : planOf i s = .ok ms) :
    exec i s = advance i ms s := by simp [exec_eq, runCommand, h, hp]

theorem exec_idle_error {i : Instr} {s : State} {r : RefusalReason} (h : s.seq = .idle) (hp : planOf i s = .error r) :
    exec i s = .next (refuse r s) := by simp [exec_eq, runCommand, h, hp]

theorem exec_busy {i : Instr} {s : State} {rest : List Micro} (h : s.seq = .busy i rest) : exec i s = advance i rest s := by
  simp [exec_eq, runCommand, h]

theorem exec_busy_other {i j : Instr} {s : State} {rest : List Micro} (h : s.seq = .busy j rest) (hj : j ≠ i) :
    exec i s = .refused .commandInProgress := by simp [exec_eq, runCommand, h, hj]

theorem advance_ok {i : Instr} {m : Micro} {rest rest' : List Micro} {s t : State} (h : runMicro m rest s = .ok (t, rest')) :
    advance i (m :: rest) s = .next (settle i t rest') := by simp [advance, h]

/-- The first micro-step of a command that an idle FG accepts. -/
theorem exec_idle_first {i : Instr} {m : Micro} {rest rest' : List Micro} {s u : State} (h : s.seq = .idle)
    (hp : planOf i s = .ok (m :: rest)) (one : runMicro m rest s = .ok (u, rest')) : exec i s = .next (settle i u rest') := by
  rw [exec_idle_ok h hp, advance_ok one]

/-- The next micro-step of a command in progress, after any steps of TMR. -/
theorem exec_busy_tickN {i : Instr} {m : Micro} {rest rest' : List Micro} {s u : State} (n : Nat) (h : s.seq = .busy i (m :: rest))
    (one : runMicro m rest (tickN n s) = .ok (u, rest')) : exec i (tickN n s) = .next (settle i u rest') := by
  rw [exec_busy (by rw [tickN_seq]; exact h), advance_ok one]

/-- A micro-step that answers a next state did what `runMicro` says, and the command stands after it. -/
theorem advance_next {i : Instr} {m : Micro} {rest : List Micro} {s t : State} (h : advance i (m :: rest) s = .next t) :
    ∃ u rest', runMicro m rest s = .ok (u, rest') ∧ t = settle i u rest' := by
  unfold advance at h
  cases hr : runMicro m rest s with
  | error f => simp [hr] at h
  | ok p => exact ⟨p.1, p.2, rfl, by simpa [hr] using h.symm⟩

/-- Everything one call of `exec` with a next state can be: the command refused, its first micro-step, or its next one. -/
theorem exec_next {i : Instr} {s t : State} (h : exec i s = .next t) :
    s.seq = .idle ∧ (∃ r, planOf i s = .error r ∧ t = refuse r s) ∨
    s.seq = .idle ∧ (∃ ms, planOf i s = .ok ms ∧ advance i ms s = .next t) ∨
    ∃ rest, s.seq = .busy i rest ∧ advance i rest s = .next t := by
  cases hs : s.seq with
  | idle =>
    cases hp : planOf i s with
    | error r =>
      rw [exec_idle_error hs hp] at h
      exact .inl ⟨rfl, r, rfl, by injection h with h; exact h.symm⟩
    | ok ms => exact .inr (.inl ⟨rfl, ms, rfl, by rw [← exec_idle_ok hs hp]; exact h⟩)
  | busy j rest =>
    by_cases hj : j = i
    · subst hj
      exact .inr (.inr ⟨rest, rfl, by rw [← exec_busy hs]; exact h⟩)
    · rw [exec_busy_other hs hj] at h
      cases h

/-- No micro-step of a command is turned away. -/
theorem advance_ne_refused (i : Instr) (ms : List Micro) (s : State) (r : Refusal) : advance i ms s ≠ .refused r := by
  cases ms with
  | nil => simp [advance]
  | cons m rest =>
    simp only [advance]
    generalize runMicro m rest s = o
    cases o <;> simp

/-- A micro-step neither reads nor writes SEQ: the sequencer moves it. -/
theorem runMicro_withSeq (m : Micro) (rest : List Micro) (s : State) (q : Seq) :
    runMicro m rest (withSeq q s) = (runMicro m rest s).map (fun p => (withSeq q p.1, p.2)) := by
  cases m
  case delayTest k =>
    simp only [runMicro, now, withSeq_tick, withSeq_wStart, withSeq_wDur]
    by_cases h : elapsedAtLeast s.tick s.wStart s.wDur <;> simp only [h] <;> rfl
  case txWrite =>
    simp only [runMicro, withSeq_txbuf, withSeq_txIdx]
    cases s.txbuf[s.txIdx.toNat]? <;> rfl
  case pinSet p v => cases p <;> rfl
  all_goals rfl

theorem runMicro_withSeq_ok {m : Micro} {rest rest' : List Micro} {s t : State} (h : runMicro m rest s = .ok (t, rest')) (q : Seq) :
    runMicro m rest (withSeq q s) = .ok (withSeq q t, rest') := by rw [runMicro_withSeq, h]; rfl

theorem tickN_withSeq (n : Nat) (s : State) (q : Seq) : tickN n (withSeq q s) = withSeq q (tickN n s) := by
  simp [tickN_eq, taken, withSeq]

@[simp] theorem withSeq_withSeq (p q : Seq) (s : State) : withSeq p (withSeq q s) = withSeq p s := rfl

@[simp] theorem withSeq_self (s : State) : withSeq s.seq s = s := rfl

@[simp] theorem complete_withSeq (i : Instr) (s : State) (q : Seq) : complete i (withSeq q s) = complete i s := by
  cases i <;> rfl

@[simp] theorem settle_withSeq (i : Instr) (s : State) (q : Seq) (rest : List Micro) :
    settle i (withSeq q s) rest = settle i s rest := by
  cases rest with
  | nil => exact complete_withSeq i s q
  | cons m ms => rfl

/-- A command that delivers nothing ends with SEQ idle and no other change (R83). -/
theorem complete_silent {i : Instr} {s : State} (h : response i s = []) : complete i s = withSeq .idle s := by
  simp [complete, h, withSeq]

/-- After a micro-step a command has ended or stands at what remains of it. -/
theorem settle_cases (i : Instr) (u : State) (rest : List Micro) :
    (rest = [] ∧ settle i u rest = complete i u) ∨
      (rest ≠ [] ∧ settle i u rest = withSeq (.busy i rest) u) := by
  cases rest <;> simp [settle]

/-- A micro-step is an ended delay, a delay that goes on, a byte written, or one that no test precedes. -/
theorem runMicro_cases {P : Prop} {m : Micro} {rest r : List Micro} {s u : State}
    (h : runMicro m rest s = .ok (u, r))
    (hd : ∀ k, m = .delayTest k → elapsedAtLeast (now s) s.wStart s.wDur = true → u = logEvent (.wait k) s → P)
    (hd' : ∀ k, m = .delayTest k → u = s → P)
    (hw : ∀ b, m = .txWrite → s.txbuf[s.txIdx.toNat]? = some b → u = uartWrite b s → P)
    (ho : (∀ k, m ≠ .delayTest k) → m ≠ .txWrite → P) : P := by
  cases m
  case delayTest k =>
    simp only [runMicro] at h
    split at h
    · cases h; exact hd k rfl ‹_› rfl
    · cases h; exact hd' k rfl rfl
  case txWrite =>
    simp only [runMicro] at h
    split at h
    · cases h; exact hw _ rfl ‹_› rfl
    · cases h
  all_goals exact ho (by simp) (by simp)

/-- A command's plan reads nothing that TMR writes. -/
theorem planOf_tickN (i : Instr) (s : State) (n : Nat) : planOf i (tickN n s) = planOf i s := by
  rw [tickN_eq]; cases i <;> rfl

/-- The micro-steps of a list taken to their end, TMR taking any number of steps before each. SEQ plays no part in it. -/
inductive MicroRun : List Micro → State → State → Prop where
  | done (s : State) : MicroRun [] s s
  | step {m : Micro} {rest rest' : List Micro} {s u t : State} (n : Nat) (one : runMicro m rest (tickN n s) = .ok (u, rest'))
      (after : MicroRun rest' u t) : MicroRun (m :: rest) s t

theorem microRun_nil {s t : State} : MicroRun [] s t ↔ t = s := ⟨fun h => by cases h; rfl, fun h => h ▸ .done s⟩

theorem microRun_cons {m : Micro} {rest : List Micro} {s t : State} :
    MicroRun (m :: rest) s t ↔ ∃ n u rest', runMicro m rest (tickN n s) = .ok (u, rest') ∧ MicroRun rest' u t :=
  ⟨fun h => by cases h with | step n one after => exact ⟨n, _, _, one, after⟩, fun ⟨n, _, _, one, after⟩ => .step n one after⟩

theorem microRun_withSeq {ms : List Micro} {s t : State} (h : MicroRun ms s t) (q : Seq) :
    MicroRun ms (withSeq q s) (withSeq q t) := by
  induction h with
  | done s => exact .done _
  | step n one _ ih => exact .step n (by rw [tickN_withSeq]; exact runMicro_withSeq_ok one q) ih

/-- From a position of command `i`, a whole command is a run of the micro-steps that remain. -/
theorem microRun_of_completes {i : Instr} {s t : State} (h : Completes i s t) :
    ∀ m ms, s.seq = .busy i (m :: ms) → ∃ u, MicroRun (m :: ms) s u ∧ t = complete i u := by
  induction h with
  | @last s t n run ended =>
    intro m ms hs
    rw [exec_busy (by simpa using hs)] at run
    obtain ⟨u, rest', one, rfl⟩ := advance_next run
    cases rest' with
    | nil => exact ⟨u, .step n one (.done u), rfl⟩
    | cons m' ms' => simp [settle] at ended
  | @more s v t n run going after ih =>
    intro m ms hs
    rw [exec_busy (by simpa using hs)] at run
    obtain ⟨u, rest', one, rfl⟩ := advance_next run
    cases rest' with
    | nil => simp [settle] at going
    | cons m' ms' =>
      obtain ⟨w, hw, ht⟩ := ih m' ms' rfl
      exact ⟨withSeq u.seq w, .step n one (microRun_withSeq hw u.seq), by rw [ht, complete_withSeq]⟩

theorem completes_of_microRun {i : Instr} {ms : List Micro} {s u : State} (h : MicroRun ms s u) :
    ms ≠ [] → Completes i (withSeq (.busy i ms) s) (complete i u) := by
  induction h with
  | done s => exact fun h => absurd rfl h
  | @step m rest rest' s v t n one after ih =>
    intro _
    have run : exec i (tickN n (withSeq (.busy i (m :: rest)) s)) = .next (settle i v rest') := by
      rw [tickN_withSeq, exec_busy (rest := m :: rest) rfl, advance_ok (runMicro_withSeq_ok one _), settle_withSeq]
    cases rest' with
    | nil => cases after; exact .last n run rfl
    | cons m' ms' => exact .more n run (by simp [settle]) (ih (by simp))

/-- A command accepted by an idle FG runs its plan from the first micro-step to the end. -/
theorem completes_idle {i : Instr} {s t : State} {m : Micro} {ms : List Micro} (hs : s.seq = .idle)
    (hp : planOf i s = .ok (m :: ms)) :
    Completes i s t ↔ ∃ u, MicroRun (m :: ms) s u ∧ t = complete i u := by
  constructor
  · intro h
    cases h with
    | last n run ended =>
      rw [exec_idle_ok (by simpa using hs) (by rw [planOf_tickN, hp])] at run
      obtain ⟨u, rest', one, rfl⟩ := advance_next run
      cases rest' with
      | nil => exact ⟨u, .step n one (.done u), rfl⟩
      | cons m' ms' => simp [settle] at ended
    | more n run going after =>
      rw [exec_idle_ok (by simpa using hs) (by rw [planOf_tickN, hp])] at run
      obtain ⟨u, rest', one, rfl⟩ := advance_next run
      cases rest' with
      | nil => simp [settle] at going
      | cons m' ms' =>
        obtain ⟨w, hw, ht⟩ := microRun_of_completes after m' ms' rfl
        exact ⟨withSeq u.seq w, .step n one (microRun_withSeq hw u.seq), by rw [ht, complete_withSeq]⟩
  · rintro ⟨u, h, rfl⟩
    cases h with
    | @step _ _ rest' _ v _ n one after =>
      have run : exec i (tickN n s) = .next (settle i v rest') := by
        rw [exec_idle_ok (by simpa using hs) (by rw [planOf_tickN, hp]), advance_ok one]
      cases rest' with
      | nil => cases after; exact .last n run rfl
      | cons m' ms' => exact .more n run (by simp [settle]) (completes_of_microRun after (by simp))

/-- A refused command ends at once (R173). -/
theorem completes_refused {i : Instr} {s t : State} {r : RefusalReason} (hs : s.seq = .idle)
    (hp : planOf i s = .error r) : Completes i s t ↔ ∃ n, t = refuse r (tickN n s) := by
  constructor
  · intro h
    cases h with
    | last n run ended =>
      rw [exec_idle_error (by simpa using hs) (by rw [planOf_tickN, hp])] at run
      exact ⟨n, by simpa using run.symm⟩
    | more n run going after =>
      rw [exec_idle_error (by simpa using hs) (by rw [planOf_tickN, hp])] at run
      cases run
      simp at going
  · rintro ⟨n, rfl⟩
    exact .last n (exec_idle_error (by simpa using hs) (by rw [planOf_tickN, hp])) rfl

end Sys2Proof.Machine
end

