-- ==== Sys2Proof/Laws/Display.lean ====
section
/-! SUPPORT. What the display's micro-steps do together (42_display_framing.md R130 to R134, 43_display_commands.md R140): each body has
one lemma for its effect and one for its completion under an armed timer. -/

namespace Sys2Proof.Machine

open Sys2Proof.Safety

/-- The micro-steps a display command can take after its first one: pin writes, the bit loop and delays (R130 to R134). -/
def displayMicro : Micro → Bool
  | .pinSet _ _ => true
  | .dioBit => true
  | .shiftSet _ => true
  | .cntZero => true
  | .shiftRight => true
  | .cntIncr => true
  | .delayDur _ => true
  | .waitSample => true
  | .delayTest _ => true
  | _ => false

/-- A display micro-step leaves what comes after its own body alone. -/
theorem runMicro_display {m : Micro} (hm : displayMicro m = true) (A : List Micro) (hA : A.all displayMicro = true) (s : State) :
    ∃ u r, (∀ B, runMicro m (A ++ B) s = .ok (u, r ++ B)) ∧ r.all displayMicro = true := by
  have hb : bitCell.all displayMicro = true := rfl
  cases m <;> simp only [displayMicro, Bool.false_eq_true] at hm
  case delayTest k =>
    by_cases h : elapsedAtLeast (now s) s.wStart s.wDur
    · exact ⟨logEvent (.wait k) s, A, fun B => by simp [runMicro, h], hA⟩
    · exact ⟨s, .delayTest k :: A, fun B => by simp [runMicro, h], by simpa [displayMicro] using hA⟩
  case cntZero =>
    exact ⟨{ s with sbCnt := 0 }, bitCell ++ A, fun B => by simp [runMicro, bitLoop], by simp [hA, hb]⟩
  case cntIncr =>
    by_cases h : s.sbCnt + 1 < 8
    · exact ⟨{ s with sbCnt := s.sbCnt + 1 }, bitCell ++ A, fun B => by rw [runMicro, bitLoop, if_pos h, List.append_assoc], by simp [hA, hb]⟩
    · exact ⟨{ s with sbCnt := s.sbCnt + 1 }, A, fun B => by rw [runMicro, bitLoop, if_neg h], hA⟩
  all_goals exact ⟨_, A, fun B => rfl, hA⟩

theorem microRun_append {A B : List Micro} (hA : A.all displayMicro = true) {s t : State} :
    MicroRun (A ++ B) s t ↔ ∃ u, MicroRun A s u ∧ MicroRun B u t := by
  constructor
  · intro h
    generalize hms : A ++ B = ms at h
    induction h generalizing A with
    | done s =>
      obtain ⟨rfl, rfl⟩ := List.append_eq_nil_iff.mp hms
      exact ⟨s, .done s, .done s⟩
    | @step m rest rest' s v t n one after ih =>
      cases A with
      | nil => exact ⟨s, .done s, by rw [List.nil_append] at hms; subst hms; exact .step n one after⟩
      | cons m' A' =>
        obtain ⟨rfl, rfl⟩ := List.cons.inj hms
        simp only [List.all_cons, Bool.and_eq_true] at hA
        obtain ⟨u, r, hr, hd⟩ := runMicro_display hA.1 A' hA.2 (tickN n s)
        rw [show A'.append B = A' ++ B from rfl, hr B] at one
        cases one
        obtain ⟨w, h1, h2⟩ := ih hd rfl
        exact ⟨w, .step n (by simpa using hr []) (by simpa using h1), h2⟩
  · rintro ⟨u, h1, h2⟩
    induction h1 with
    | done s => exact h2
    | @step m rest rest' s v t n one _ ih =>
      simp only [List.all_cons, Bool.and_eq_true] at hA
      obtain ⟨u, r, hr, hd⟩ := runMicro_display hA.1 rest hA.2 (tickN n s)
      have := hr []
      simp only [List.append_nil] at this
      rw [this] at one
      cases one
      exact .step n (hr B) (ih hd h2)

theorem drives_tickN (n : Nat) (s : State) : Drives s (tickN n s) s.pinClk s.pinDio s.sbShift s.sbCnt [] := by
  rw [tickN_eq]; exact ⟨_, _, _, _, rfl, by simp⟩

theorem drives_trans {s t u : State} {c d c' d' : Bool} {h h' : Byte} {n n' : BitVec 4} {e e' : List Event}
    (h1 : Drives s t c d h n e) (h2 : Drives t u c' d' h' n' e') : Drives s u c' d' h' n' (e ++ e') := by
  obtain ⟨k, a, b, l, rfl, hl⟩ := h1
  obtain ⟨k', a', b', l', rfl, hl'⟩ := h2
  exact ⟨k', a', b', l', rfl, by rw [hl', hl, List.append_assoc]⟩

theorem drives_pins {s t : State} {c d : Bool} {h : Byte} {n : BitVec 4} {e : List Event} (x : Drives s t c d h n e) :
    t.pinClk = c ∧ t.pinDio = d ∧ t.sbShift = h ∧ t.sbCnt = n ∧ t.timerArmed = s.timerArmed := by
  obtain ⟨k, a, b, l, rfl, hl⟩ := x; exact ⟨rfl, rfl, rfl, rfl, rfl⟩

theorem drives_wDur (d : Tick) (s : State) : Drives s { s with wDur := d } s.pinClk s.pinDio s.sbShift s.sbCnt [] :=
  ⟨_, _, _, _, rfl, by simp⟩

theorem drives_wStart (d : Tick) (s : State) : Drives s { s with wStart := d } s.pinClk s.pinDio s.sbShift s.sbCnt [] :=
  ⟨_, _, _, _, rfl, by simp⟩

theorem drives_pinClk {v : Bool} {s t : State} (h : MicroRun [.pinSet .clk v] s t) :
    Drives s t v s.pinDio s.sbShift s.sbCnt [.pin .clk v] := by
  obtain ⟨n, u, r, one, after⟩ := microRun_cons.mp h
  cases one; cases after
  rw [tickN_eq]; exact ⟨_, _, _, _, rfl, by simp⟩

theorem drives_pinDio {v : Bool} {s t : State} (h : MicroRun [.pinSet .dio v] s t) :
    Drives s t s.pinClk v s.sbShift s.sbCnt [.pin .dio v] := by
  obtain ⟨n, u, r, one, after⟩ := microRun_cons.mp h
  cases one; cases after
  rw [tickN_eq]; exact ⟨_, _, _, _, rfl, by simp⟩

theorem drives_dioBit {s t : State} (h : MicroRun [.dioBit] s t) :
    Drives s t s.pinClk (s.sbShift.getLsbD 0) s.sbShift s.sbCnt [.pin .dio (s.sbShift.getLsbD 0)] := by
  obtain ⟨n, u, r, one, after⟩ := microRun_cons.mp h
  cases one; cases after
  rw [tickN_eq]; exact ⟨_, _, _, _, rfl, by simp⟩

theorem drives_delayTest {k : DelayKind} {s t : State} (h : MicroRun [.delayTest k] s t) :
    Drives s t s.pinClk s.pinDio s.sbShift s.sbCnt [.wait k] := by
  generalize hms : [Micro.delayTest k] = ms at h
  induction h with
  | done s => simp at hms
  | @step m rest rest' s v t n one after ih =>
    obtain ⟨rfl, rfl⟩ := List.cons.inj hms
    simp only [runMicro] at one
    split at one
    · cases one; cases after
      rw [tickN_eq]; exact ⟨_, _, _, _, rfl, by simp⟩
    · cases one
      have := drives_trans (drives_tickN n s) (ih rfl)
      rw [tickN_eq] at this
      exact this

theorem microRun_delayDur {k : DelayKind} {rest : List Micro} {s t : State} (h : MicroRun (.delayDur k :: rest) s t) :
    ∃ u, Drives s u s.pinClk s.pinDio s.sbShift s.sbCnt [] ∧ MicroRun rest u t := by
  obtain ⟨n, u, r, one, after⟩ := microRun_cons.mp h
  cases one
  refine ⟨_, drives_trans (e := []) (e' := []) (drives_tickN n s) ?_, after⟩
  simpa using drives_wDur (Config.delayTicks k) (tickN n s)

theorem microRun_waitSample {rest : List Micro} {s t : State} (h : MicroRun (.waitSample :: rest) s t) :
    ∃ u, Drives s u s.pinClk s.pinDio s.sbShift s.sbCnt [] ∧ MicroRun rest u t := by
  obtain ⟨n, u, r, one, after⟩ := microRun_cons.mp h
  cases one
  refine ⟨_, drives_trans (e := []) (e' := []) (drives_tickN n s) ?_, after⟩
  simpa using drives_wStart (now (tickN n s)) (tickN n s)

/-- `Delay(k)` shows `Wait(k)` and moves no pin (R130). -/
theorem drives_delay {k : DelayKind} {s t : State} (h : MicroRun (delay k) s t) :
    Drives s t s.pinClk s.pinDio s.sbShift s.sbCnt [.wait k] := by
  obtain ⟨u, h1, h⟩ := microRun_delayDur h
  obtain ⟨v, h2, h⟩ := microRun_waitSample h
  obtain ⟨a1, a2, a3, a4, -⟩ := drives_pins h1
  obtain ⟨b1, b2, b3, b4, -⟩ := drives_pins h2
  have h3 := drives_delayTest h
  rw [b1, b2, b3, b4, a1, a2, a3, a4] at h3
  exact drives_trans h1 (drives_trans h2 h3)

/-- A display body that can end from every state with an armed timer, leaving the timer armed. -/
def CanEnd (A : List Micro) : Prop := ∀ s : State, s.timerArmed = true → ∃ t, MicroRun A s t ∧ t.timerArmed = true

/-- Under an armed timer a delay can end: TMR may take exactly its length between the two samples (R130). -/
theorem canEnd_delay (k : DelayKind) : CanEnd (delay k) := by
  intro s h
  obtain ⟨v, hv⟩ : ∃ v, v = ({ s with wDur := Config.delayTicks k } : State) := ⟨_, rfl⟩
  obtain ⟨u, hu⟩ : ∃ u, u = ({ v with wStart := v.tick } : State) := ⟨_, rfl⟩
  have h3 : runMicro (.delayTest k) [] (tickN (Config.delayTicks k).toNat u) =
      .ok (logEvent (.wait k) (tickN (Config.delayTicks k).toNat u), []) := by
    rw [runMicro, if_pos]
    subst hu hv
    simp [elapsedAtLeast, now, tickN_eq, taken, h]
  have h2 : runMicro .waitSample [.delayTest k] (tickN 0 v) = .ok (u, [.delayTest k]) := by
    rw [tickN_zero, hu]; rfl
  have h1 : runMicro (.delayDur k) [.waitSample, .delayTest k] (tickN 0 s) = .ok (v, [.waitSample, .delayTest k]) := by
    rw [tickN_zero, hv]; rfl
  exact ⟨_, .step 0 h1 (.step 0 h2 (.step _ h3 (.done _))), by subst hu hv; simpa using h⟩

theorem canEnd_append {A B : List Micro} (hA : A.all displayMicro = true) (h1 : CanEnd A) (h2 : CanEnd B) : CanEnd (A ++ B) := by
  intro s h
  obtain ⟨u, hu, au⟩ := h1 s h
  obtain ⟨t, ht, at_⟩ := h2 u au
  exact ⟨t, (microRun_append hA).mpr ⟨u, hu, ht⟩, at_⟩

theorem canEnd_nil : CanEnd [] := fun s h => ⟨s, .done s, h⟩

theorem canEnd_pinSet (p : Pin) (v : Bool) : CanEnd [.pinSet p v] := fun s h =>
  ⟨setPin p v s, .step 0 (by rw [tickN_zero]; rfl) (.done _), by cases p <;> exact h⟩

theorem canEnd_dioBit : CanEnd [.dioBit] := fun s h =>
  ⟨setPin .dio (s.sbShift.getLsbD 0) s, .step 0 (by rw [tickN_zero]; rfl) (.done _), h⟩

/-- The events of the bit cells of `n` bits, least significant bit first (R79, R132). -/
def cellEvents : Nat → Byte → List Event
  | 0, _ => []
  | n + 1, v => [.pin .clk false, .pin .dio (v.getLsbD 0), .wait .mid, .pin .clk true, .wait .mid] ++ cellEvents n (v >>> 1)

/-- Bit cells up to the shift of the register (R132). -/
theorem drives_bitCell {s t : State}
    (h : MicroRun ([.pinSet .clk false, .dioBit] ++ delay .mid ++ [.pinSet .clk true] ++ delay .mid) s t) :
    Drives s t true (s.sbShift.getLsbD 0) s.sbShift s.sbCnt
      [.pin .clk false, .pin .dio (s.sbShift.getLsbD 0), .wait .mid, .pin .clk true, .wait .mid] := by
  obtain ⟨d, h, hd⟩ := (microRun_append rfl).mp h
  obtain ⟨c, h, hc⟩ := (microRun_append rfl).mp h
  obtain ⟨b, h, hb⟩ := (microRun_append rfl).mp h
  obtain ⟨a, h, ha⟩ := (microRun_append (A := [.pinSet .clk false]) (B := [.dioBit]) rfl).mp h
  have d1 := drives_pinClk h
  have d2 := drives_dioBit ha
  have d3 := drives_delay hb
  have d4 := drives_pinClk hc
  have d5 := drives_delay hd
  obtain ⟨e1, e2, e3, e4, -⟩ := drives_pins d1
  rw [e1, e3, e4] at d2
  obtain ⟨e1, e2, e3, e4, -⟩ := drives_pins d2
  rw [e1, e2, e3, e4] at d3
  obtain ⟨e1, e2, e3, e4, -⟩ := drives_pins d3
  rw [e2, e3, e4] at d4
  obtain ⟨e1, e2, e3, e4, -⟩ := drives_pins d4
  rw [e1, e2, e3, e4] at d5
  exact drives_trans (drives_trans (drives_trans (drives_trans d1 d2) d3) d4) d5

theorem microRun_shiftRight {rest : List Micro} {s t : State} (h : MicroRun (.shiftRight :: rest) s t) :
    ∃ u, Drives s u s.pinClk s.pinDio (s.sbShift >>> 1) s.sbCnt [] ∧ MicroRun rest u t := by
  obtain ⟨n, u, r, one, after⟩ := microRun_cons.mp h
  cases one
  refine ⟨_, ?_, after⟩
  rw [tickN_eq]; exact ⟨_, _, _, _, rfl, by simp⟩

theorem microRun_cntIncr {s t : State} (h : MicroRun [.cntIncr] s t) :
    ∃ u, Drives s u s.pinClk s.pinDio s.sbShift (s.sbCnt + 1) [] ∧ MicroRun (if s.sbCnt + 1 < 8 then bitCell else []) u t := by
  obtain ⟨n, u, r, one, after⟩ := microRun_cons.mp h
  cases one
  refine ⟨_, ?_, by simpa [bitLoop] using after⟩
  rw [tickN_eq]; exact ⟨_, _, _, _, rfl, by simp⟩

/-- One turn of the bit loop (R132). -/
theorem microRun_bitCell {s t : State} (h : MicroRun bitCell s t) :
    ∃ u, Drives s u true (s.sbShift.getLsbD 0) (s.sbShift >>> 1) (s.sbCnt + 1)
        [.pin .clk false, .pin .dio (s.sbShift.getLsbD 0), .wait .mid, .pin .clk true, .wait .mid] ∧
      MicroRun (if s.sbCnt + 1 < 8 then bitCell else []) u t := by
  obtain ⟨u, h1, h⟩ := (microRun_append (B := [.shiftRight, .cntIncr]) rfl).mp h
  have d1 := drives_bitCell h1
  obtain ⟨v, d2, h⟩ := microRun_shiftRight h
  obtain ⟨w, d3, h⟩ := microRun_cntIncr h
  obtain ⟨e1, e2, e3, e4, -⟩ := drives_pins d1
  rw [e1, e2, e3, e4] at d2
  obtain ⟨e1, e2, e3, e4, -⟩ := drives_pins d2
  rw [e1, e2, e3, e4] at d3
  rw [e4] at h
  exact ⟨w, by simpa using drives_trans (drives_trans d1 d2) d3, h⟩

/-- The bit loop from a bit cell on: the bits still to be sent, one cell each (R132). -/
theorem drives_bitLoop (n : Nat) {s t : State} (hn : s.sbCnt.toNat + n = 7) (h : MicroRun bitCell s t) :
    Drives s t true (s.sbShift.getLsbD n) (s.sbShift >>> (n + 1)) 8 (cellEvents (n + 1) s.sbShift) := by
  induction n generalizing s with
  | zero =>
    obtain ⟨u, d, h⟩ := microRun_bitCell h
    have hc : s.sbCnt = 7 := BitVec.eq_of_toNat_eq (by simpa using hn)
    rw [hc] at d h
    rw [if_neg (by decide)] at h
    rw [microRun_nil.mp h]
    simpa [cellEvents] using d
  | succ n ih =>
    obtain ⟨u, d, h⟩ := microRun_bitCell h
    obtain ⟨e1, e2, e3, e4, -⟩ := drives_pins d
    have hlt : (s.sbCnt + 1).toNat = s.sbCnt.toNat + 1 := by
      rw [BitVec.toNat_add]; simp; omega
    rw [if_pos (by rw [BitVec.lt_def, hlt]; simp; omega)] at h
    have := drives_trans d (ih (by rw [e4, hlt]; omega) h)
    rw [e3, BitVec.shiftRight_add] at this
    have hs : s.sbShift >>> 1 >>> (n + 1) = s.sbShift >>> (n + 1 + 1) := by
      rw [← BitVec.shiftRight_add]; congr 1; omega
    have hg : (s.sbShift >>> 1).getLsbD n = s.sbShift.getLsbD (n + 1) := by
      simp [Nat.add_comm]
    rw [← BitVec.shiftRight_add, hs, hg] at this
    exact this

theorem microRun_shiftSet {v : Byte} {rest : List Micro} {s t : State} (h : MicroRun (.shiftSet v :: rest) s t) :
    ∃ u, Drives s u s.pinClk s.pinDio v s.sbCnt [] ∧ MicroRun rest u t := by
  obtain ⟨n, u, r, one, after⟩ := microRun_cons.mp h
  cases one
  refine ⟨_, ?_, after⟩
  rw [tickN_eq]; exact ⟨_, _, _, _, rfl, by simp⟩

theorem microRun_cntZero {s t : State} (h : MicroRun [.cntZero] s t) :
    ∃ u, Drives s u s.pinClk s.pinDio s.sbShift 0 [] ∧ MicroRun bitCell u t := by
  obtain ⟨n, u, r, one, after⟩ := microRun_cons.mp h
  cases one
  refine ⟨_, ?_, by simpa [bitLoop] using after⟩
  rw [tickN_eq]; exact ⟨_, _, _, _, rfl, by simp⟩

/-- A whole byte on the link (R132). -/
theorem drives_byteBody {v : Byte} {s t : State} (h : MicroRun (byteBody v) s t) :
    Drives s t true (v.getLsbD 7) 0 8 (cellEvents 8 v) := by
  obtain ⟨u, d1, h⟩ := microRun_shiftSet h
  obtain ⟨w, d2, h⟩ := microRun_cntZero h
  obtain ⟨e1, e2, e3, e4, -⟩ := drives_pins d1
  rw [e1, e2, e3] at d2
  obtain ⟨e1, e2, e3, e4, -⟩ := drives_pins d2
  have d3 := drives_bitLoop 7 (by rw [e4]; rfl) h
  rw [e3] at d3
  have hz : v >>> (7 + 1) = 0 := BitVec.eq_of_toNat_eq (by simp [Nat.shiftRight_eq_div_pow, v.isLt])
  rw [hz] at d3
  simpa using drives_trans (drives_trans d1 d2) d3

/-- The acknowledge slot (R133). -/
theorem drives_ackBody {s t : State} (h : MicroRun ackBody s t) :
    Drives s t false s.pinDio s.sbShift s.sbCnt
      [.pin .clk false, .wait .long, .pin .clk true, .wait .short, .pin .clk false] := by
  obtain ⟨d, h, hd⟩ := (microRun_append rfl).mp h
  obtain ⟨c, h, hc⟩ := (microRun_append rfl).mp h
  obtain ⟨b, h, hb⟩ := (microRun_append rfl).mp h
  obtain ⟨a, h, ha⟩ := (microRun_append rfl).mp h
  have d1 := drives_pinClk h
  have d2 := drives_delay ha
  have d3 := drives_pinClk hb
  have d4 := drives_delay hc
  have d5 := drives_pinClk hd
  obtain ⟨e1, e2, e3, e4, -⟩ := drives_pins d1
  rw [e1, e2, e3, e4] at d2
  obtain ⟨e1, e2, e3, e4, -⟩ := drives_pins d2
  rw [e2, e3, e4] at d3
  obtain ⟨e1, e2, e3, e4, -⟩ := drives_pins d3
  rw [e1, e2, e3, e4] at d4
  obtain ⟨e1, e2, e3, e4, -⟩ := drives_pins d4
  rw [e2, e3, e4] at d5
  exact drives_trans (drives_trans (drives_trans (drives_trans d1 d2) d3) d4) d5

/-- The start condition (R131). -/
theorem drives_startBody {s t : State} (h : MicroRun startBody s t) :
    Drives s t true false s.sbShift s.sbCnt [.pin .clk true, .pin .dio true, .wait .short, .pin .dio false] := by
  obtain ⟨c, h, hc⟩ := (microRun_append rfl).mp h
  obtain ⟨b, h, hb⟩ := (microRun_append rfl).mp h
  obtain ⟨a, h, ha⟩ := (microRun_append (A := [.pinSet .clk true]) (B := [.pinSet .dio true]) rfl).mp h
  have d1 := drives_pinClk h
  have d2 := drives_pinDio ha
  have d3 := drives_delay hb
  have d4 := drives_pinDio hc
  obtain ⟨e1, e2, e3, e4, -⟩ := drives_pins d1
  rw [e1, e3, e4] at d2
  obtain ⟨e1, e2, e3, e4, -⟩ := drives_pins d2
  rw [e1, e2, e3, e4] at d3
  obtain ⟨e1, e2, e3, e4, -⟩ := drives_pins d3
  rw [e1, e3, e4] at d4
  exact drives_trans (drives_trans (drives_trans d1 d2) d3) d4

/-- The stop condition (R134). -/
theorem drives_stopBody {s t : State} (h : MicroRun stopBody s t) :
    Drives s t true true s.sbShift s.sbCnt
      [.pin .clk false, .wait .short, .pin .dio false, .wait .short, .pin .clk true, .wait .short, .pin .dio true] := by
  obtain ⟨f, h, hf⟩ := (microRun_append rfl).mp h
  obtain ⟨e, h, he⟩ := (microRun_append rfl).mp h
  obtain ⟨d, h, hd⟩ := (microRun_append rfl).mp h
  obtain ⟨c, h, hc⟩ := (microRun_append rfl).mp h
  obtain ⟨b, h, hb⟩ := (microRun_append rfl).mp h
  obtain ⟨a, h, ha⟩ := (microRun_append rfl).mp h
  have d1 := drives_pinClk h
  have d2 := drives_delay ha
  have d3 := drives_pinDio hb
  have d4 := drives_delay hc
  have d5 := drives_pinClk hd
  have d6 := drives_delay he
  have d7 := drives_pinDio hf
  obtain ⟨e1, e2, e3, e4, -⟩ := drives_pins d1
  rw [e1, e2, e3, e4] at d2
  obtain ⟨e1, e2, e3, e4, -⟩ := drives_pins d2
  rw [e1, e3, e4] at d3
  obtain ⟨e1, e2, e3, e4, -⟩ := drives_pins d3
  rw [e1, e2, e3, e4] at d4
  obtain ⟨e1, e2, e3, e4, -⟩ := drives_pins d4
  rw [e2, e3, e4] at d5
  obtain ⟨e1, e2, e3, e4, -⟩ := drives_pins d5
  rw [e1, e2, e3, e4] at d6
  obtain ⟨e1, e2, e3, e4, -⟩ := drives_pins d6
  rw [e1, e3, e4] at d7
  exact drives_trans (drives_trans (drives_trans (drives_trans (drives_trans (drives_trans d1 d2) d3) d4) d5) d6) d7

/-- The events of the byte cells of a transaction: each byte with its acknowledge slot (R79). -/
def byteCellEvents (bytes : List Byte) : List Event :=
  bytes.flatMap fun b => cellEvents 8 b ++ [.pin .clk false, .wait .long, .pin .clk true, .wait .short, .pin .clk false]

/-- The events of `Txn(bytes)` (R140). -/
def txnEvents (bytes : List Byte) : List Event :=
  [.pin .clk true, .pin .dio true, .wait .short, .pin .dio false] ++ byteCellEvents bytes ++
    [.pin .clk false, .wait .short, .pin .dio false, .wait .short, .pin .clk true, .wait .short, .pin .dio true]

theorem byteCells_display (bytes : List Byte) : (bytes.flatMap fun b => byteBody b ++ ackBody).all displayMicro = true := by
  induction bytes with
  | nil => rfl
  | cons b bs ih => rw [List.flatMap_cons, List.all_append, ih]; rfl

theorem drives_byteCells (bytes : List Byte) {s t : State} (hne : bytes ≠ [])
    (h : MicroRun (bytes.flatMap fun b => byteBody b ++ ackBody) s t) : ∃ d, Drives s t false d 0 8 (byteCellEvents bytes) := by
  induction bytes generalizing s with
  | nil => exact absurd rfl hne
  | cons b bs ih =>
    rw [List.flatMap_cons] at h
    obtain ⟨u, h1, h⟩ := (microRun_append rfl).mp h
    obtain ⟨v, h0, h1⟩ := (microRun_append rfl).mp h1
    have d1 := drives_byteBody h0
    have d2 := drives_ackBody h1
    obtain ⟨e1, e2, e3, e4, -⟩ := drives_pins d1
    rw [e2, e3, e4] at d2
    have d3 := drives_trans d1 d2
    by_cases hb : bs = []
    · subst hb
      rw [List.flatMap_nil, microRun_nil] at h
      subst h
      exact ⟨_, by simpa [byteCellEvents] using d3⟩
    · obtain ⟨d, d4⟩ := ih hb h
      exact ⟨d, by simpa [byteCellEvents] using drives_trans d3 d4⟩

/-- A transaction of at least one byte (R140). -/
theorem drives_txn (bytes : List Byte) (hne : bytes ≠ []) {s t : State} (h : MicroRun (txn bytes) s t) :
    Drives s t true true 0 8 (txnEvents bytes) := by
  obtain ⟨v, h, h3⟩ := (microRun_append (by rw [List.all_append, byteCells_display]; rfl)).mp h
  obtain ⟨u, h1, h2⟩ := (microRun_append rfl).mp h
  have d1 := drives_startBody h1
  obtain ⟨d, d2⟩ := drives_byteCells bytes hne h2
  have d3 := drives_stopBody h3
  obtain ⟨e1, e2, e3, e4, -⟩ := drives_pins d2
  rw [e3, e4] at d3
  exact drives_trans (drives_trans d1 d2) d3

theorem txn_display (bytes : List Byte) : (txn bytes).all displayMicro = true := by
  rw [txn, List.all_append, List.all_append, byteCells_display]; rfl

theorem canEnd_startBody : CanEnd startBody :=
  canEnd_append rfl (canEnd_append rfl (canEnd_append (A := [.pinSet .clk true]) (B := [.pinSet .dio true]) rfl
    (canEnd_pinSet _ _) (canEnd_pinSet _ _)) (canEnd_delay _)) (canEnd_pinSet _ _)

theorem canEnd_ackBody : CanEnd ackBody :=
  canEnd_append rfl (canEnd_append rfl (canEnd_append rfl (canEnd_append rfl (canEnd_pinSet _ _) (canEnd_delay _))
    (canEnd_pinSet _ _)) (canEnd_delay _)) (canEnd_pinSet _ _)

theorem canEnd_stopBody : CanEnd stopBody :=
  canEnd_append rfl (canEnd_append rfl (canEnd_append rfl (canEnd_append rfl (canEnd_append rfl (canEnd_append rfl
    (canEnd_pinSet _ _) (canEnd_delay _)) (canEnd_pinSet _ _)) (canEnd_delay _)) (canEnd_pinSet _ _)) (canEnd_delay _))
    (canEnd_pinSet _ _)

theorem canEnd_bitCellPins : CanEnd ([.pinSet .clk false, .dioBit] ++ delay .mid ++ [.pinSet .clk true] ++ delay .mid) :=
  canEnd_append rfl (canEnd_append rfl (canEnd_append rfl
    (canEnd_append (A := [.pinSet .clk false]) (B := [.dioBit]) rfl (canEnd_pinSet _ _) canEnd_dioBit) (canEnd_delay _))
    (canEnd_pinSet _ _)) (canEnd_delay _)

theorem canEnd_bitLoop (n : Nat) : ∀ s : State, s.sbCnt.toNat + n = 7 → s.timerArmed = true →
    ∃ t, MicroRun bitCell s t ∧ t.timerArmed = true := by
  induction n with
  | zero =>
    intro s hn h
    obtain ⟨u, hu, au⟩ := canEnd_bitCellPins s h
    obtain ⟨-, -, -, e4, -⟩ := drives_pins (drives_bitCell hu)
    have hc : u.sbCnt = 7 := e4.trans (BitVec.eq_of_toNat_eq (by simpa using hn))
    have hx : ¬ (u.sbCnt + 1 < 8) := by rw [hc]; decide
    refine ⟨{ u with sbShift := u.sbShift >>> 1, sbCnt := u.sbCnt + 1 },
      (microRun_append (B := [.shiftRight, .cntIncr]) rfl).mpr ⟨u, hu, ?_⟩, au⟩
    refine .step 0 (by rw [tickN_zero]; rfl) (.step (rest' := []) 0 ?_ (.done _))
    rw [tickN_zero, runMicro, bitLoop, if_neg hx]
  | succ n ih =>
    intro s hn h
    obtain ⟨u, hu, au⟩ := canEnd_bitCellPins s h
    obtain ⟨-, -, -, e4, -⟩ := drives_pins (drives_bitCell hu)
    have hlt : (u.sbCnt + 1).toNat = u.sbCnt.toNat + 1 := by
      rw [BitVec.toNat_add, e4]; simp; omega
    obtain ⟨t, ht, at_⟩ := ih { u with sbShift := u.sbShift >>> 1, sbCnt := u.sbCnt + 1 }
      (by show (u.sbCnt + 1).toNat + n = 7; rw [hlt, e4]; omega) au
    refine ⟨t, (microRun_append (B := [.shiftRight, .cntIncr]) rfl).mpr ⟨u, hu, ?_⟩, at_⟩
    refine .step 0 (by rw [tickN_zero]; rfl) (.step (rest' := bitCell) 0 ?_ ht)
    rw [tickN_zero, runMicro, bitLoop, if_pos]
    · rfl
    · rw [BitVec.lt_def]
      show (u.sbCnt + 1).toNat < _
      rw [hlt, e4]; simp; omega

theorem canEnd_byteBody (v : Byte) : CanEnd (byteBody v) := by
  intro s h
  obtain ⟨t, ht, at_⟩ := canEnd_bitLoop 7 { s with sbShift := v, sbCnt := 0 } rfl h
  exact ⟨t, .step 0 (by rw [tickN_zero]; rfl) (.step (rest' := bitCell) 0 (by rw [tickN_zero]; rfl) ht), at_⟩

theorem canEnd_txn (bytes : List Byte) : CanEnd (txn bytes) := by
  refine canEnd_append (by rw [List.all_append, byteCells_display]; rfl) (canEnd_append rfl canEnd_startBody ?_) canEnd_stopBody
  induction bytes with
  | nil => exact canEnd_nil
  | cons b bs ih =>
    rw [List.flatMap_cons]
    exact canEnd_append rfl (canEnd_append rfl (canEnd_byteBody b) canEnd_ackBody) ih

end Sys2Proof.Machine
end

