-- ==== Sys2Proof/Laws/PerInstr.lean ====
section
/-! SUPPORT. Statements made of every command as syntax, one lemma per constructor. -/

namespace Sys2Proof.Laws.EncodedForm

/-- The bytes of a well-formed command begin with its opcode byte, which the decoder reads back as its row, and are as many as its format
has (30_encoding.md R70, R73, R76). -/
def Statement (i : Instr) : Prop :=
  WellFormed i → (encode i).head? = some i.opcode.byte ∧ Opcode.ofByte i.opcode.byte = some i.opcode ∧
    (encode i).length = i.opcode.format.byteLength (match i with | .uartTx _ len _ => len.toNat | _ => 0)

theorem tickStart : Statement .tickStart := fun _ => ⟨rfl, ofByte_byte _, rfl⟩

theorem tickNow : Statement .tickNow := fun _ => ⟨rfl, ofByte_byte _, rfl⟩

theorem tickWait (dur : Tick) : Statement (.tickWait dur) := fun _ => ⟨rfl, ofByte_byte _, rfl⟩

theorem uartDiv (baud clk : BitVec 32) : Statement (.uartDiv baud clk) := fun _ => ⟨rfl, ofByte_byte _, rfl⟩

theorem uartTx (timeout : Tick) (len : Half) (data : List Byte) : Statement (.uartTx timeout len data) := fun h => by
  have hl : data.length = len.toNat := by simpa [WellFormed, Instr.wellFormed] using h
  refine ⟨rfl, ofByte_byte _, ?_⟩
  simp only [encode, encodeOperands, wordBytes, halfBytes, List.length_cons, List.length_append, List.length_nil, hl,
    Instr.opcode, Opcode.format, Format.byteLength]
  omega

theorem dspStart : Statement .dspStart := fun _ => ⟨rfl, ofByte_byte _, rfl⟩

theorem dspByte (value : Byte) : Statement (.dspByte value) := fun _ => ⟨rfl, ofByte_byte _, rfl⟩

theorem dspAck : Statement .dspAck := fun _ => ⟨rfl, ofByte_byte _, rfl⟩

theorem dspStop : Statement .dspStop := fun _ => ⟨rfl, ofByte_byte _, rfl⟩

theorem dspDigits (d0 d1 d2 d3 colon : Byte) : Statement (.dspDigits d0 d1 d2 d3 colon) := fun _ => ⟨rfl, ofByte_byte _, rfl⟩

theorem dspBright (level : Byte) : Statement (.dspBright level) := fun _ => ⟨rfl, ofByte_byte _, rfl⟩

theorem dspCounter (value : Half) : Statement (.dspCounter value) := fun _ => ⟨rfl, ofByte_byte _, rfl⟩

theorem dspClock (hours minutes : Byte) : Statement (.dspClock hours minutes) := fun _ => ⟨rfl, ofByte_byte _, rfl⟩

end Sys2Proof.Laws.EncodedForm
end

