-- ==== Sys2Proof/Laws/Receiver.lean ====
section
/-! SUPPORT. What a receiver makes of the display's events (42_display_framing.md R137): a bit cell, a byte cell, a transaction; and the
composite commands' micro-steps as transactions (43_display_commands.md R140 to R142). -/

namespace Sys2Proof.Machine

open Sys2Proof.Safety

/-- A display micro-step leaves display micro-steps, writes only the display's own registers and records at most one event. -/
theorem runMicro_display_frame {m : Micro} (hm : displayMicro m = true) {rest rest' : List Micro}
    (hr : rest.all displayMicro = true) {s u : State} (h : runMicro m rest s = .ok (u, rest')) :
    rest'.all displayMicro = true ∧
      u = { s with
        pinClk := u.pinClk, pinDio := u.pinDio, sbShift := u.sbShift, sbCnt := u.sbCnt, wStart := u.wStart, wDur := u.wDur
        log := u.log } ∧
      (u.log = s.log ∨ (∃ p b, u.log = s.log ++ [.pin p b]) ∨ ∃ k, u.log = s.log ++ [.wait k]) := by
  have hb : bitCell.all displayMicro = true := rfl
  cases m <;> simp only [displayMicro, Bool.false_eq_true] at hm
  case delayTest k =>
    simp only [runMicro] at h
    split at h
    · cases h; exact ⟨hr, rfl, .inr (.inr ⟨_, rfl⟩)⟩
    · cases h; exact ⟨by simpa [displayMicro] using hr, rfl, .inl rfl⟩
  case pinSet p v => cases p <;> (cases h; exact ⟨hr, rfl, .inr (.inl ⟨_, _, rfl⟩)⟩)
  case dioBit => cases h; exact ⟨hr, rfl, .inr (.inl ⟨_, _, rfl⟩)⟩
  case cntZero => cases h; exact ⟨by simp [bitLoop, hb, hr], rfl, .inl rfl⟩
  case cntIncr => cases h; exact ⟨by unfold bitLoop; split <;> simp [hb, hr], rfl, .inl rfl⟩
  all_goals cases h; exact ⟨hr, rfl, .inl rfl⟩

/-- Legal operands give display micro-steps, at least one of them (R141). -/
theorem framePlan_display {b d0 d1 d2 d3 : Byte} {c : Option Bool} {ms : List Micro} (h : framePlan b d0 d1 d2 d3 c = .ok ms) :
    ∃ m rest, ms = m :: rest ∧ displayMicro m = true ∧ rest.all displayMicro = true := by
  have key : ∀ as bs cs, (txn as ++ txn bs ++ txn cs).all displayMicro = true := by
    intro as bs cs
    rw [List.all_append, List.all_append, txn_display, txn_display, txn_display]
    rfl
  unfold framePlan at h
  split at h
  · split at h
    · rename_i e0 e1 e2 e3 _ _ _ _ _ x
      have hk := key [Config.display.cmdData] (Config.display.cmdAddr :: frameBytes Config.display e0 e1 e2 e3 x)
        [brightByte Config.display b]
      cases h
      refine ⟨.pinSet .clk true, _, rfl, rfl, ?_⟩
      exact (Bool.and_eq_true _ _ ▸ hk : _ ∧ _).2
    · cases h
  · cases h

/-- The bits of a byte as cells, least significant first (R132). -/
theorem cellEvents_eight (v : Byte) : cellEvents 8 v = (List.range 8).flatMap fun k =>
    [.pin .clk false, .pin .dio (v.getLsbD k), .wait .mid, .pin .clk true, .wait .mid] := by
  simp [cellEvents, List.range_succ, List.range_zero, ← BitVec.shiftRight_add]

/-- The bits of the open byte after one more. -/
def shiftIn (bits : Byte) (x : Bool) : Byte := (bits >>> 1) ||| (if x then 0x80 else 0)

/-- A receiver within a transaction. -/
def inTxn (clk dio : Bool) (edges : Nat) (bits : Byte) (bytes : List Byte) (done : List (List Byte)) : Receiver :=
  { clk := clk, dio := dio, isOpen := true, edges := edges, bits := bits, bytes := bytes, received := done }

/-- A receiver between transactions. -/
def between (clk dio : Bool) (edges : Nat) (bits : Byte) (bytes : List Byte) (done : List (List Byte)) : Receiver :=
  { clk := clk, dio := dio, isOpen := false, edges := edges, bits := bits, bytes := bytes, received := done }

/-- One of the first seven bit cells. -/
theorem see_cell (c d : Bool) {n : Nat} (hn : n < 7) (bits : Byte) (bytes : List Byte) (done : List (List Byte)) (x : Bool) :
    [Event.pin .clk false, .pin .dio x, .wait .mid, .pin .clk true, .wait .mid].foldl see (inTxn c d n bits bytes done) =
      inTxn true x (n + 1) (shiftIn bits x) bytes done := by simp [see, inTxn, shiftIn, hn]

/-- The eighth bit cell. -/
theorem see_lastCell (c d : Bool) (bits : Byte) (bytes : List Byte) (done : List (List Byte)) (x : Bool) :
    [Event.pin .clk false, .pin .dio x, .wait .mid, .pin .clk true, .wait .mid].foldl see (inTxn c d 7 bits bytes done) =
      inTxn true x 8 0 (bytes ++ [shiftIn bits x]) done := by simp [see, inTxn, shiftIn]

/-- Eight bits shifted in, least significant first, are the byte. -/
theorem shiftIn_byte : ∀ v : Byte,
    shiftIn (shiftIn (shiftIn (shiftIn (shiftIn (shiftIn (shiftIn (shiftIn 0 (v.getLsbD 0)) (v.getLsbD 1)) (v.getLsbD 2))
      (v.getLsbD 3)) (v.getLsbD 4)) (v.getLsbD 5)) (v.getLsbD 6)) (v.getLsbD 7) = v := by decide

/-- A whole byte. -/
theorem see_byte (c d : Bool) (bytes : List Byte) (done : List (List Byte)) (v : Byte) :
    (cellEvents 8 v).foldl see (inTxn c d 0 0 bytes done) = inTxn true (v.getLsbD 7) 8 0 (bytes ++ [v]) done := by
  rw [cellEvents_eight, show List.range 8 = [0, 1, 2, 3, 4, 5, 6, 7] from rfl]
  simp only [List.flatMap_cons, List.flatMap_nil, List.foldl_append]
  rw [see_cell _ _ (by decide), see_cell _ _ (by decide), see_cell _ _ (by decide), see_cell _ _ (by decide),
    see_cell _ _ (by decide), see_cell _ _ (by decide), see_cell _ _ (by decide), see_lastCell, shiftIn_byte]
  rfl

/-- The acknowledge slot, whose clock edge carries no bit. -/
theorem see_ack (d : Bool) (bytes : List Byte) (done : List (List Byte)) :
    [Event.pin .clk false, .wait .long, .pin .clk true, .wait .short, .pin .clk false].foldl see (inTxn true d 8 0 bytes done) =
      inTxn false d 0 0 bytes done := by simp [see, inTxn]

/-- The byte cells of a transaction. -/
theorem see_cells (l : List Byte) : ∀ (c d : Bool) (bytes : List Byte) (done : List (List Byte)), l ≠ [] →
    ∃ x, (byteCellEvents l).foldl see (inTxn c d 0 0 bytes done) = inTxn false x 0 0 (bytes ++ l) done := by
  induction l with
  | nil => exact fun _ _ _ _ h => absurd rfl h
  | cons b l ih =>
    intro c d bytes done _
    rw [byteCellEvents, List.flatMap_cons, List.foldl_append, List.foldl_append, see_byte, see_ack]
    by_cases hl : l = []
    · subst hl; exact ⟨b.getLsbD 7, rfl⟩
    · obtain ⟨x, h⟩ := ih false (b.getLsbD 7) (bytes ++ [b]) done hl
      rw [byteCellEvents] at h
      exact ⟨x, by rw [h, List.append_assoc]; rfl⟩

/-- A transaction: the receiver has one more (R79, R137). -/
theorem see_txn (l : List Byte) (hl : l ≠ []) (c d : Bool) (e : Nat) (bits : Byte) (bytes : List Byte) (done : List (List Byte)) :
    (txnEvents l).foldl see (between c d e bits bytes done) = between true true 1 0 l (done ++ [l]) := by
  rw [txnEvents, List.foldl_append, List.foldl_append]
  have h1 : [Event.pin .clk true, .pin .dio true, .wait .short, .pin .dio false].foldl see (between c d e bits bytes done) =
      inTxn true false 0 0 [] done := by cases c <;> cases d <;> simp [see, inTxn, between]
  obtain ⟨x, h⟩ := see_cells l true false [] done hl
  rw [h1, h]
  cases x <;> simp [see, inTxn, between]

/-- The micro-steps of a frame of legal digits (R141). -/
theorem framePlan_legal (bright : Byte) (d0 d1 d2 d3 : Fin 10) (c : Bool) :
    framePlan bright (BitVec.ofNat 8 d0) (BitVec.ofNat 8 d1) (BitVec.ofNat 8 d2) (BitVec.ofNat 8 d3) (some c) =
      .ok (txn [Config.display.cmdData] ++ txn (Config.display.cmdAddr :: frameBytes Config.display d0 d1 d2 d3 c) ++
        txn [brightByte Config.display bright]) := by
  have hd : ∀ d : Fin 10, digit? (BitVec.ofNat 8 d) = some d := by decide
  simp only [framePlan, hd]
  rfl

/-- The micro-steps of DSP.DIGITS on legal operands (R141). -/
theorem digitsPlan_legal (bright : Byte) (d0 d1 d2 d3 : Fin 10) (c : Bool) :
    digitsPlan bright (BitVec.ofNat 8 d0) (BitVec.ofNat 8 d1) (BitVec.ofNat 8 d2) (BitVec.ofNat 8 d3) (if c then 1 else 0) =
      .ok (txn [Config.display.cmdData] ++ txn (Config.display.cmdAddr :: frameBytes Config.display d0 d1 d2 d3 c) ++
        txn [brightByte Config.display bright]) := by
  have hc : colon? (if c then 1 else 0) = some c := by cases c <;> rfl
  rw [digitsPlan, hc, framePlan_legal]

/-- Three transactions one after another (R141). -/
theorem drives_threeTxn {a b c : List Byte} (ha : a ≠ []) (hb : b ≠ []) (hc : c ≠ []) {s t : State}
    (h : MicroRun (txn a ++ txn b ++ txn c) s t) :
    Drives s t true true 0 8 (txnEvents a ++ txnEvents b ++ txnEvents c) := by
  obtain ⟨v, h, h3⟩ := (microRun_append (by rw [List.all_append, txn_display, txn_display]; rfl)).mp h
  obtain ⟨u, h1, h2⟩ := (microRun_append (txn_display _)).mp h
  exact drives_trans (drives_trans (drives_txn a ha h1) (drives_txn b hb h2)) (drives_txn c hc h3)

theorem canEnd_threeTxn (a b c : List Byte) : CanEnd (txn a ++ txn b ++ txn c) :=
  canEnd_append (by rw [List.all_append, txn_display, txn_display]; rfl)
    (canEnd_append (txn_display _) (canEnd_txn _) (canEnd_txn _)) (canEnd_txn _)

end Sys2Proof.Machine
end

