-- ==== Sys2Proof/Laws/Position.lean ====
section
/-! SUPPORT. Where a display command can stand (10_state.md R22): what follows what in its micro-steps (42_display_framing.md R130 to
R134), and that each micro-step leads from one of its positions to another or to its end. -/

namespace Sys2Proof.Machine

open Sys2Proof.Safety

/-- What display commands are made of: writes, whole delays, and bytes. -/
inductive Shaped : List Micro → Prop where
  | nil : Shaped []
  | write {m : Micro} {l : List Micro} (hm : (∃ p v, m = .pinSet p v) ∨ (∃ v, m = .brightSet v) ∨ m = .colonToggle) (hl : Shaped l) :
      Shaped (m :: l)
  | delay (k : DelayKind) {l : List Micro} (hl : Shaped l) : Shaped (.delayDur k :: .waitSample :: .delayTest k :: l)
  | byte (v : Byte) {l : List Micro} (hl : Shaped l) : Shaped (.shiftSet v :: .cntZero :: l)

theorem shaped_append {a b : List Micro} (ha : Shaped a) (hb : Shaped b) : Shaped (a ++ b) := by
  induction ha with
  | nil => exact hb
  | write hm _ ih => exact .write hm ih
  | delay k _ ih => exact .delay k ih
  | byte v _ ih => exact .byte v ih

theorem shaped_pinSet (p : Pin) (v : Bool) {l : List Micro} (hl : Shaped l) : Shaped (.pinSet p v :: l) := .write (.inl ⟨p, v, rfl⟩) hl

theorem shaped_startBody : Shaped startBody := shaped_pinSet _ _ (shaped_pinSet _ _ (.delay _ (shaped_pinSet _ _ .nil)))

theorem shaped_byteBody (v : Byte) : Shaped (byteBody v) := .byte v .nil

theorem shaped_ackBody : Shaped ackBody :=
  shaped_pinSet _ _ (.delay _ (shaped_pinSet _ _ (.delay _ (shaped_pinSet _ _ .nil))))

theorem shaped_stopBody : Shaped stopBody :=
  shaped_pinSet _ _ (.delay _ (shaped_pinSet _ _ (.delay _ (shaped_pinSet _ _ (.delay _ (shaped_pinSet _ _ .nil))))))

theorem shaped_txn (bytes : List Byte) : Shaped (txn bytes) := by
  refine shaped_append (shaped_append shaped_startBody ?_) shaped_stopBody
  induction bytes with
  | nil => exact .nil
  | cons b bs ih => exact shaped_append (shaped_append (shaped_byteBody b) shaped_ackBody) ih

theorem framePlan_shaped {b d0 d1 d2 d3 : Byte} {c : Option Bool} {ms : List Micro} (h : framePlan b d0 d1 d2 d3 c = .ok ms) :
    Shaped ms := by
  unfold framePlan at h
  split at h
  · split at h
    · cases h
      exact shaped_append (shaped_append (shaped_txn _) (shaped_txn _)) (shaped_txn _)
    · cases h
  · cases h

/-- Nothing whole begins in the middle of a delay or of a byte. -/
theorem shaped_head {l : List Micro} (h : Shaped l) (after : List Micro) :
    l ≠ .waitSample :: after ∧ (∀ k, l ≠ .delayTest k :: after) ∧ l ≠ .cntZero :: after := by
  cases h with
  | nil => simp
  | write hm _ => rcases hm with ⟨_, _, rfl⟩ | ⟨_, rfl⟩ | rfl <;> simp
  | delay k _ => simp
  | byte v _ => simp

/-- Every place in a display command's micro-steps: what stands there and what follows. -/
theorem shaped_suffix {body : List Micro} (hb : Shaped body) {m : Micro} {ms : List Micro} (h : m :: ms <:+ body) :
    ((∃ p v, m = .pinSet p v) ∨ (∃ v, m = .brightSet v) ∨ m = .colonToggle) ∧ Shaped ms ∨
    (∃ k after, m = .delayDur k ∧ ms = .waitSample :: .delayTest k :: after ∧ Shaped after) ∨
    (∃ k after, m = .waitSample ∧ ms = .delayTest k :: after ∧ Shaped after) ∨
    (∃ k, m = .delayTest k ∧ Shaped ms) ∨
    (∃ v after, m = .shiftSet v ∧ ms = .cntZero :: after ∧ Shaped after) ∨
    m = .cntZero ∧ Shaped ms ∧ ∃ v, .shiftSet v :: m :: ms <:+ body := by
  induction hb with
  | nil => simp at h
  | write hm hl ih =>
    rcases List.suffix_cons_iff.mp h with e | h
    · cases e; exact .inl ⟨hm, hl⟩
    · rcases ih h with a | a | a | a | a | ⟨a, b, v, c⟩
      · exact .inl a
      · exact .inr (.inl a)
      · exact .inr (.inr (.inl a))
      · exact .inr (.inr (.inr (.inl a)))
      · exact .inr (.inr (.inr (.inr (.inl a))))
      · exact .inr (.inr (.inr (.inr (.inr ⟨a, b, v, c.trans (List.suffix_cons ..)⟩))))
  | delay k hl ih =>
    rcases List.suffix_cons_iff.mp h with e | h
    · cases e; exact .inr (.inl ⟨k, _, rfl, rfl, hl⟩)
    rcases List.suffix_cons_iff.mp h with e | h
    · cases e; exact .inr (.inr (.inl ⟨k, _, rfl, rfl, hl⟩))
    rcases List.suffix_cons_iff.mp h with e | h
    · cases e; exact .inr (.inr (.inr (.inl ⟨k, rfl, hl⟩)))
    · rcases ih h with a | a | a | a | a | ⟨a, b, v, c⟩
      · exact .inl a
      · exact .inr (.inl a)
      · exact .inr (.inr (.inl a))
      · exact .inr (.inr (.inr (.inl a)))
      · exact .inr (.inr (.inr (.inr (.inl a))))
      · exact .inr (.inr (.inr (.inr (.inr ⟨a, b, v, c.trans (List.suffix_append [_, _, _] _)⟩))))
  | byte v hl ih =>
    rcases List.suffix_cons_iff.mp h with e | h
    · cases e; exact .inr (.inr (.inr (.inr (.inl ⟨v, _, rfl, rfl, hl⟩))))
    rcases List.suffix_cons_iff.mp h with e | h
    · cases e; exact .inr (.inr (.inr (.inr (.inr ⟨rfl, hl, v, List.suffix_rfl⟩))))
    · rcases ih h with a | a | a | a | a | ⟨a, b, w, c⟩
      · exact .inl a
      · exact .inr (.inl a)
      · exact .inr (.inr (.inl a))
      · exact .inr (.inr (.inr (.inl a)))
      · exact .inr (.inr (.inr (.inr (.inl a))))
      · exact .inr (.inr (.inr (.inr (.inr ⟨a, b, w, c.trans (List.suffix_append [_, _] _)⟩))))

/-- The places of a bit cell (R132). -/
theorem bitCell_suffix {cell : List Micro} (h : cell <:+ bitCell) (hne : cell ≠ []) : ∃ n, n < 11 ∧ cell = bitCell.drop n := by
  obtain ⟨pre, h⟩ := h
  have hl : pre.length + cell.length = 11 := by rw [← List.length_append, h]; rfl
  exact ⟨pre.length, by have := List.length_pos_of_ne_nil hne; omega, by rw [← h, List.drop_left]⟩

/-- A position at whole micro-steps: nothing is asked of the latches there. -/
theorem displayPosition_whole {body rest : List Micro} {s : State} (htx : s.txState = .idle) (hne : rest ≠ [])
    (h : rest <:+ body.tail) (hs : Shaped rest) : displayPosition body rest s :=
  ⟨htx, hne, .inl h,
    fun k _ hr => (hr.elim (fun e => (shaped_head hs _).1 e) (fun e => (shaped_head hs _).2.1 k e)).elim,
    fun _ _ hr => ((shaped_head hs _).2.2 hr).elim⟩

/-- From each of its positions a display command takes a micro-step, to another of its positions or to its end (R130 to R134). -/
theorem displayPosition_step {body rest : List Micro} {s : State} (hb : Shaped body) (hd : body.tail.all displayMicro = true)
    (hp : displayPosition body rest s) :
    ∃ m ms u r, rest = m :: ms ∧ runMicro m ms s = .ok (u, r) ∧ displayMicro m = true ∧ ms.all displayMicro = true ∧
      (r ≠ [] → displayPosition body r u) := by
  obtain ⟨htx, hne, hpl, hwait, hshift⟩ := hp
  rcases hpl with hsuf | ⟨v, cell, after, hcell, hc, rfl, hv, hcnt, hsh⟩
  · obtain ⟨m, ms, rfl⟩ := List.exists_cons_of_ne_nil hne
    have hall : (m :: ms).all displayMicro = true := by
      obtain ⟨pre, e⟩ := hsuf
      rw [← e, List.all_append, Bool.and_eq_true] at hd
      exact hd.2
    obtain ⟨hm, hms⟩ := (Bool.and_eq_true _ _).mp hall
    have htl : ms <:+ body.tail := (List.suffix_cons m ms).trans hsuf
    refine ⟨m, ms, ?_⟩
    rcases shaped_suffix hb (hsuf.trans (List.tail_suffix body)) with ⟨hw, hl⟩ | ⟨k, after, rfl, rfl, hl⟩ | ⟨k, after, rfl, rfl, hl⟩ |
      ⟨k, rfl, hl⟩ | ⟨v, after, rfl, rfl, hl⟩ | ⟨rfl, hl, v, hv⟩
    · rcases hw with ⟨p, v, rfl⟩ | ⟨v, rfl⟩ | rfl
      · refine ⟨setPin p v s, ms, rfl, rfl, hm, hms, fun h => displayPosition_whole ?_ h htl hl⟩
        cases p <;> exact htx
      · cases hm
      · cases hm
    · refine ⟨_, _, rfl, rfl, hm, hms, fun _ => ⟨htx, by simp, .inl htl, fun k' l h => ?_, fun v l h => by cases h⟩⟩
      rcases h with h | h
      · cases h; rfl
      · cases h
    · refine ⟨_, _, rfl, rfl, hm, hms, fun _ => ⟨htx, by simp, .inl htl, fun k' l h => ?_, fun v l h => by cases h⟩⟩
      rcases h with h | h
      · cases h
      · cases h; exact hwait k after (.inl rfl)
    · by_cases he : elapsedAtLeast (now s) s.wStart s.wDur
      · exact ⟨logEvent (.wait k) s, ms, rfl, by simp [runMicro, he], hm, hms, fun h => displayPosition_whole htx h htl hl⟩
      · exact ⟨s, .delayTest k :: ms, rfl, by simp [runMicro, he], hm, hms, fun _ => ⟨htx, hne, .inl hsuf, hwait, hshift⟩⟩
    · refine ⟨_, _, rfl, rfl, hm, hms, fun _ => ⟨htx, by simp, .inl htl, fun k' l h => ?_, fun w l h hw => ?_⟩⟩
      · rcases h with h | h <;> cases h
      · cases h
        have e : Micro.shiftSet w :: .cntZero :: after = .shiftSet v :: .cntZero :: after :=
          (List.suffix_of_suffix_length_le hw (hsuf.trans (List.tail_suffix body)) (by simp)).eq_of_length (by simp)
        cases e
        rfl
    · refine ⟨{ s with sbCnt := 0 }, bitCell ++ ms, rfl, by simp [runMicro, bitLoop], hm, hms, fun _ =>
        ⟨htx, by simp [bitCell],
          .inr ⟨v, bitCell, ms, by simp [bitCell], List.suffix_rfl, rfl, hv, (by show (0 : BitVec 4) ≤ 7; decide), ?_⟩, ?_, ?_⟩⟩
      · rw [if_neg (by simp [bitCell, delay])]
        exact (hshift v ms rfl hv).trans (by simp)
      · intro k l h; rcases h with h | h <;> cases h
      · intro w l h; cases h
  · have hl : Shaped after := by
      rcases shaped_suffix hb hv with ⟨h, -⟩ | ⟨_, _, h, -⟩ | ⟨_, _, h, -⟩ | ⟨_, h, -⟩ | ⟨_, _, -, h, hl⟩ | ⟨h, -⟩
      · rcases h with ⟨_, _, h⟩ | ⟨_, h⟩ | h <;> cases h
      · cases h
      · cases h
      · cases h
      · cases h; exact hl
      · cases h
    have htl : after <:+ body.tail := by
      obtain ⟨pre, e⟩ := hv
      cases pre with
      | nil => exact ⟨[.cntZero], by rw [← e]; rfl⟩
      | cons x pre => exact ⟨pre ++ [.shiftSet v, .cntZero], by rw [← e]; simp⟩
    have hms : after.all displayMicro = true := by
      obtain ⟨pre, e⟩ := htl
      rw [← e, List.all_append, Bool.and_eq_true] at hd
      exact hd.2
    have inCell : ∀ (u : State) (c : List Micro), u.txState = .idle → c ≠ [] → c <:+ bitCell → u.sbCnt ≤ 7 →
        u.sbShift = v >>> (if c = [.cntIncr] then u.sbCnt.toNat + 1 else u.sbCnt.toNat) →
        (∀ k l, c ++ after = .waitSample :: .delayTest k :: l ∨ c ++ after = .delayTest k :: l → u.wDur = Config.delayTicks k) →
        (∀ l, c ++ after ≠ .cntZero :: l) → displayPosition body (c ++ after) u := fun u c h1 h2 h3 h4 h5 h6 h7 =>
      ⟨h1, by simp [h2], .inr ⟨v, c, after, h2, h3, rfl, hv, h4, h5⟩, h6, fun _ l h => (h7 l h).elim⟩
    obtain ⟨n, hn, rfl⟩ := bitCell_suffix hc hcell
    have h11 : n = 0 ∨ n = 1 ∨ n = 2 ∨ n = 3 ∨ n = 4 ∨ n = 5 ∨ n = 6 ∨ n = 7 ∨ n = 8 ∨ n = 9 ∨ n = 10 := by omega
    have sub : ∀ j, bitCell.drop j <:+ bitCell := fun j => List.drop_suffix j bitCell
    have disp : ∀ j, (bitCell.drop j ++ after).all displayMicro = true := fun j => by
      rw [List.all_append, hms, Bool.and_true, List.all_eq_true]
      exact fun m hm => List.all_eq_true.mp (show bitCell.all displayMicro = true from rfl) m (List.mem_of_mem_drop hm)
    have ne : ∀ j, j < 11 → bitCell.drop j ≠ [] := fun j hj h => by simp [bitCell, delay] at h; omega
    rcases h11 with rfl | rfl | rfl | rfl | rfl | rfl | rfl | rfl | rfl | rfl | rfl
    · exact ⟨_, _, setPin .clk false s, bitCell.drop 1 ++ after, rfl, rfl, rfl, disp 1, fun _ => inCell _ _ htx (ne 1 (by omega)) (sub 1) hcnt hsh
        (by intro k l h; rcases h with h | h <;> cases h) (by intro l h; cases h)⟩
    · exact ⟨_, _, setPin .dio (s.sbShift.getLsbD 0) s, bitCell.drop 2 ++ after, rfl, rfl, rfl, disp 2,
        fun _ => inCell _ _ htx (ne 2 (by omega)) (sub 2) hcnt hsh
        (by intro k l h; rcases h with h | h <;> cases h) (by intro l h; cases h)⟩
    · exact ⟨_, _, { s with wDur := Config.delayTicks .mid }, bitCell.drop 3 ++ after, rfl, rfl, rfl, disp 3,
        fun _ => inCell _ _ htx (ne 3 (by omega)) (sub 3) hcnt hsh
        (by intro k l h; rcases h with h | h <;> cases h; rfl) (by intro l h; cases h)⟩
    · exact ⟨_, _, { s with wStart := now s }, bitCell.drop 4 ++ after, rfl, rfl, rfl, disp 4,
        fun _ => inCell _ _ htx (ne 4 (by omega)) (sub 4) hcnt hsh
        (by intro k l h; rcases h with h | h <;> cases h; exact hwait _ _ (.inl rfl)) (by intro l h; cases h)⟩
    · by_cases he : elapsedAtLeast (now s) s.wStart s.wDur
      · exact ⟨_, bitCell.drop 5 ++ after, logEvent (.wait .mid) s, bitCell.drop 5 ++ after, rfl,
          if_pos he, rfl, disp 5, fun _ => inCell _ _ htx (ne 5 (by omega)) (sub 5) hcnt hsh
          (by intro k l h; rcases h with h | h <;> cases h) (by intro l h; cases h)⟩
      · exact ⟨_, bitCell.drop 5 ++ after, s, bitCell.drop 4 ++ after, rfl, if_neg he, rfl, disp 5, fun _ =>
          inCell _ _ htx (ne 4 (by omega)) (sub 4) hcnt hsh
          (by intro k l h; exact hwait k l h) (by intro l h; cases h)⟩
    · exact ⟨_, _, setPin .clk true s, bitCell.drop 6 ++ after, rfl, rfl, rfl, disp 6, fun _ => inCell _ _ htx (ne 6 (by omega)) (sub 6) hcnt hsh
        (by intro k l h; rcases h with h | h <;> cases h) (by intro l h; cases h)⟩
    · exact ⟨_, _, { s with wDur := Config.delayTicks .mid }, bitCell.drop 7 ++ after, rfl, rfl, rfl, disp 7,
        fun _ => inCell _ _ htx (ne 7 (by omega)) (sub 7) hcnt hsh
        (by intro k l h; rcases h with h | h <;> cases h; rfl) (by intro l h; cases h)⟩
    · exact ⟨_, _, { s with wStart := now s }, bitCell.drop 8 ++ after, rfl, rfl, rfl, disp 8,
        fun _ => inCell _ _ htx (ne 8 (by omega)) (sub 8) hcnt hsh
        (by intro k l h; rcases h with h | h <;> cases h; exact hwait _ _ (.inl rfl)) (by intro l h; cases h)⟩
    · by_cases he : elapsedAtLeast (now s) s.wStart s.wDur
      · exact ⟨_, bitCell.drop 9 ++ after, logEvent (.wait .mid) s, bitCell.drop 9 ++ after, rfl,
          if_pos he, rfl, disp 9, fun _ => inCell _ _ htx (ne 9 (by omega)) (sub 9) hcnt hsh
          (by intro k l h; rcases h with h | h <;> cases h) (by intro l h; cases h)⟩
      · exact ⟨_, bitCell.drop 9 ++ after, s, bitCell.drop 8 ++ after, rfl, if_neg he, rfl, disp 9, fun _ =>
          inCell _ _ htx (ne 8 (by omega)) (sub 8) hcnt hsh
          (by intro k l h; exact hwait k l h) (by intro l h; cases h)⟩
    · refine ⟨_, _, { s with sbShift := s.sbShift >>> 1 }, bitCell.drop 10 ++ after, rfl, rfl, rfl, disp 10, fun _ =>
        inCell _ _ htx (ne 10 (by omega)) (sub 10) hcnt ?_ (by intro k l h; rcases h with h | h <;> cases h) (by intro l h; cases h)⟩
      show s.sbShift >>> 1 = v >>> (s.sbCnt.toNat + 1)
      rw [hsh, BitVec.shiftRight_add]
      rfl
    · refine ⟨.cntIncr, after, { s with sbCnt := s.sbCnt + 1 }, bitLoop { s with sbCnt := s.sbCnt + 1 } after, rfl, rfl, rfl, hms,
        fun hr => ?_⟩
      have hsh' : s.sbShift = v >>> (s.sbCnt.toNat + 1) := hsh
      unfold bitLoop at hr ⊢
      split at hr <;> rename_i hlt
      · rw [if_pos hlt]
        have h8 : s.sbCnt + 1 < 8 := hlt
        refine inCell _ bitCell htx (ne 0 (by omega)) List.suffix_rfl (by show s.sbCnt + 1 ≤ 7; bv_omega) ?_
          (by intro k l h; rcases h with h | h <;> cases h) (by intro l h; cases h)
        rw [if_neg (by simp [bitCell, delay])]
        have e : (s.sbCnt + 1).toNat = s.sbCnt.toNat + 1 := by bv_omega
        show s.sbShift = v >>> (s.sbCnt + 1).toNat
        rw [hsh', e]
      · rw [if_neg hlt]
        exact displayPosition_whole htx hr htl hl

/-- The commands of unit DSP. -/
def isDisplay : Instr → Bool
  | .tickStart => false
  | .tickNow => false
  | .tickWait _ => false
  | .uartDiv _ _ => false
  | .uartTx _ _ _ => false
  | .dspStart => true
  | .dspByte _ => true
  | .dspAck => true
  | .dspStop => true
  | .dspDigits _ _ _ _ _ => true
  | .dspBright _ => true
  | .dspCounter _ => true
  | .dspClock _ _ => true

/-- Micro-steps a display command can be made of: nothing but its first one writes `BRIGHT` or `COLON`. -/
def DisplayBody (body : List Micro) : Prop := Shaped body ∧ body.tail.all displayMicro = true

theorem displayBody_frame {b d0 d1 d2 d3 : Byte} {c : Option Bool} {ms : List Micro} (h : framePlan b d0 d1 d2 d3 c = .ok ms) :
    DisplayBody ms ∧ ms.all displayMicro = true := by
  obtain ⟨m, r, rfl, hm, hr⟩ := framePlan_display h
  exact ⟨⟨framePlan_shaped h, hr⟩, by rw [List.all_cons, hm, hr]; rfl⟩

theorem displayBody_counter {value : Half} {s : State} {ms : List Micro} (h : planDspCounter value s = .ok ms) :
    DisplayBody ms ∧ ms.all displayMicro = true := by
  unfold planDspCounter at h
  split at h
  · cases h
  · exact displayBody_frame h

theorem displayBody_clock {hours minutes : Byte} {s : State} {ms : List Micro} (h : planDspClock hours minutes s = .ok ms) :
    DisplayBody ms ∧ ∃ l, ms = .colonToggle :: l ∧ l ≠ [] := by
  unfold planDspClock at h
  split at h
  · cases h
  · split at h
    · rename_i l hl
      cases h
      obtain ⟨m, r, rfl, hm, hr⟩ := framePlan_display hl
      exact ⟨⟨.write (.inr (.inr rfl)) (framePlan_shaped hl), by rw [List.tail_cons, List.all_cons, hm, hr]; rfl⟩, _, rfl, by simp⟩
    · cases h

theorem displayBody_bright (level : Byte) : DisplayBody (.brightSet level :: brightTxn level) :=
  ⟨.write (.inr (.inl ⟨level, rfl⟩)) (shaped_txn _), txn_display _⟩

/-- Where a display command stands, whichever it is. -/
theorem position_display {i : Instr} (hi : isDisplay i = true) {rest : List Micro} {s : State} (h : position i rest s) :
    ∃ body, DisplayBody body ∧ displayPosition body rest s := by
  cases i <;> simp only [isDisplay, Bool.false_eq_true] at hi
  case dspStart => exact ⟨_, ⟨shaped_startBody, rfl⟩, h⟩
  case dspByte v => exact ⟨_, ⟨shaped_byteBody v, rfl⟩, h⟩
  case dspAck => exact ⟨_, ⟨shaped_ackBody, rfl⟩, h⟩
  case dspStop => exact ⟨_, ⟨shaped_stopBody, rfl⟩, h⟩
  case dspDigits =>
    obtain ⟨body, hp, h⟩ := h
    exact ⟨body, (displayBody_frame hp).1, h⟩
  case dspBright level => exact ⟨_, displayBody_bright level, h.2⟩
  case dspCounter =>
    obtain ⟨body, hp, h⟩ := h
    exact ⟨body, (displayBody_counter hp).1, h⟩
  case dspClock =>
    obtain ⟨body, hp, h⟩ := h
    exact ⟨body, (displayBody_clock hp).1, h⟩

/-- A position of a display command moves with the state as long as `BRIGHT` and `COLON` do not change. -/
theorem position_of_display {i : Instr} (hi : isDisplay i = true) {rest r : List Micro} {s u : State} (h : position i rest s)
    (hb : u.bright = s.bright) (hc : u.colon = s.colon)
    (move : ∀ body, DisplayBody body → displayPosition body rest s → displayPosition body r u) : position i r u := by
  cases i <;> simp only [isDisplay, Bool.false_eq_true] at hi
  case dspStart => exact move _ ⟨shaped_startBody, rfl⟩ h
  case dspByte v => exact move _ ⟨shaped_byteBody v, rfl⟩ h
  case dspAck => exact move _ ⟨shaped_ackBody, rfl⟩ h
  case dspStop => exact move _ ⟨shaped_stopBody, rfl⟩ h
  case dspDigits =>
    obtain ⟨body, hp, h⟩ := h
    exact ⟨body, by unfold planDspDigits at hp ⊢; rw [hb]; exact hp, move _ (displayBody_frame hp).1 h⟩
  case dspBright level => exact ⟨hb.trans h.1, move _ (displayBody_bright level) h.2⟩
  case dspCounter =>
    obtain ⟨body, hp, h⟩ := h
    exact ⟨body, by unfold planDspCounter at hp ⊢; rw [hb]; exact hp, move _ (displayBody_counter hp).1 h⟩
  case dspClock =>
    obtain ⟨body, hp, h⟩ := h
    exact ⟨body, by unfold planDspClock at hp ⊢; simp only [hb, hc]; exact hp, move _ (displayBody_clock hp).1 h⟩

/-- One micro-step of a display command under way: it is total, writes only the display's own registers, and leads to another position or
to the end. -/
theorem display_step {i : Instr} (hi : isDisplay i = true) {rest : List Micro} {s : State} (h : position i rest s) :
    ∃ m ms u r, rest = m :: ms ∧ runMicro m ms s = .ok (u, r) ∧ displayMicro m = true ∧ ms.all displayMicro = true ∧
      s.txState = .idle ∧ (r ≠ [] → position i r u) := by
  obtain ⟨body, hb, hp⟩ := position_display hi h
  obtain ⟨m, ms, u, r, rfl, one, hm, hms, -⟩ := displayPosition_step hb.1 hb.2 hp
  refine ⟨m, ms, u, r, rfl, one, hm, hms, hp.1, fun hr => ?_⟩
  have fr := (runMicro_display_frame hm hms one).2.1
  refine position_of_display hi h (by rw [fr]) (by rw [fr]) fun body hb hp => ?_
  obtain ⟨m', ms', u', r', e, one', -, -, hp'⟩ := displayPosition_step hb.1 hb.2 hp
  cases e
  rw [one] at one'
  cases one'
  exact hp' hr

end Sys2Proof.Machine
end

