-- ==== Sys2Proof/Laws/Step.lean ====
section
/-! SUPPORT. What one step of the machine can do, said once (00_scope.md R6, 30_encoding.md R71): the micro-step of the command in
progress, or the host's move and what reaches FG by it. -/

namespace Sys2Proof.Machine

open Sys2Proof.Safety

@[simp] theorem tmr_timerArmed (s : State) : (tmr s).timerArmed = s.timerArmed := by
  obtain ⟨n, e, h⟩ := tmr_eq s
  simp [h]

@[simp] theorem tmr_timerPeriod (s : State) : (tmr s).timerPeriod = s.timerPeriod := by
  obtain ⟨n, e, h⟩ := tmr_eq s
  simp [h]

@[simp] theorem tmr_brrMant (s : State) : (tmr s).brrMant = s.brrMant := by
  obtain ⟨n, e, h⟩ := tmr_eq s
  simp [h]

@[simp] theorem tmr_brrFrac (s : State) : (tmr s).brrFrac = s.brrFrac := by
  obtain ⟨n, e, h⟩ := tmr_eq s
  simp [h]

@[simp] theorem tmr_brrSet (s : State) : (tmr s).brrSet = s.brrSet := by
  obtain ⟨n, e, h⟩ := tmr_eq s
  simp [h]

@[simp] theorem tmr_txState (s : State) : (tmr s).txState = s.txState := by
  obtain ⟨n, e, h⟩ := tmr_eq s
  simp [h]

@[simp] theorem tmr_txTimeout (s : State) : (tmr s).txTimeout = s.txTimeout := by
  obtain ⟨n, e, h⟩ := tmr_eq s
  simp [h]

@[simp] theorem tmr_txIdx (s : State) : (tmr s).txIdx = s.txIdx := by
  obtain ⟨n, e, h⟩ := tmr_eq s
  simp [h]

@[simp] theorem tmr_txLen (s : State) : (tmr s).txLen = s.txLen := by
  obtain ⟨n, e, h⟩ := tmr_eq s
  simp [h]

@[simp] theorem tmr_txbuf (s : State) : (tmr s).txbuf = s.txbuf := by
  obtain ⟨n, e, h⟩ := tmr_eq s
  simp [h]

@[simp] theorem tmr_wDur (s : State) : (tmr s).wDur = s.wDur := by
  obtain ⟨n, e, h⟩ := tmr_eq s
  simp [h]

@[simp] theorem tmr_bright (s : State) : (tmr s).bright = s.bright := by
  obtain ⟨n, e, h⟩ := tmr_eq s
  simp [h]

@[simp] theorem tmr_refusals (s : State) : (tmr s).refusals = s.refusals := by
  obtain ⟨n, e, h⟩ := tmr_eq s
  simp [h]

/-- TMR keeps the invariant: it writes only `TICK` and `LOG` (R179). -/
theorem runInv_tmr {s : State} (h : RunInv s) : RunInv (tmr s) where
  bright := by simpa using h.bright
  period := by simpa using h.period
  idle := by simpa using h.idle
  busy i rest hs := by
    have := h.busy i rest (by simpa using hs)
    obtain ⟨n, e, ht⟩ := tmr_eq s
    rw [ht, tickN_eq]
    cases i <;> exact this

/-- A step while a command is in progress is that command's next micro-step, after TMR's steps. -/
theorem step_busy {s : State} {i : Instr} {rest : List Micro} (h : s.seq = .busy i rest) : step s = exec i (tmr s) := by
  simp [step, h]

/-- The host's record is moved. -/
def withHost (g : HostState) (s : State) : State := { s with host := g }

/-- The host's move writes the host's own record only. -/
theorem hostMove_cases (s : State) :
    (∃ g, hostMove s = .quiet (withHost g s)) ∨ ∃ bytes g, hostMove s = .issue bytes (withHost g s) := by
  unfold hostMove
  split
  · split
    · exact .inr ⟨_, _, rfl⟩
    · split
      · exact .inl ⟨s.host, rfl⟩
      · exact .inr ⟨_, _, rfl⟩
      · split
        · split
          · exact .inr ⟨_, _, rfl⟩
          · exact .inl ⟨_, rfl⟩
        · exact .inl ⟨_, rfl⟩
  · exact .inl ⟨s.host, rfl⟩

theorem keepRest_host (rest : List Byte) (s : State) : ∃ g, keepRest rest s = withHost g s := by
  cases rest with
  | nil => exact ⟨s.host, rfl⟩
  | cons b bs => exact ⟨_, rfl⟩

/-- What a step of an idle FG can be: nothing reaches it, a refused sequence does, or a command that the decoder read. -/
theorem step_idle {s : State} (h : s.seq = .idle) :
    (∃ g, step s = .next (withHost g (tmr s))) ∨
    (∃ g r, step s = .next (refuse r (withHost g (tmr s)))) ∨
    ∃ g i bytes rest, decode bytes = .ok (i, rest) ∧ step s = exec i (withHost g (tmr s)) := by
  unfold step
  rw [tmr_seq, h]
  simp only [fetch]
  generalize tmr s = u
  rcases hostMove_cases u with ⟨g, hm⟩ | ⟨bytes, g, hm⟩
  · exact .inl ⟨g, by rw [hm]⟩
  · rw [hm]
    simp only
    cases hd : decode bytes with
    | error r => exact .inr (.inl ⟨g, r, rfl⟩)
    | ok p =>
      obtain ⟨i, rest⟩ := p
      obtain ⟨g', hk⟩ := keepRest_host rest (withHost g u)
      exact .inr (.inr ⟨g', i, bytes, rest, hd, by simp only [hk]; rfl⟩)

theorem run_succ {M : Host.Core} {s t : M.State} (h : M.step s = .next t) (k : Nat) : M.run (k + 1) s = M.run k t := by
  rw [Host.Core.run, h]

/-- A state that steps to itself is where every run from it stays: an infinite run (60_exceptions.md R174). -/
theorem run_fixed {M : Host.Core} {u : M.State} (h : M.step u = .next u) (k : Nat) : M.run k u = .next u := by
  induction k with
  | zero => rfl
  | succ k ih => rw [run_succ h, ih]

/-- The decoder reads well-formed commands only (R70). -/
theorem decode_wellFormed {bytes rest : List Byte} {i : Instr} (h : decode bytes = .ok (i, rest)) : WellFormed i := by
  cases bytes with
  | nil => simp [decode] at h
  | cons b bs =>
    simp only [decode] at h
    split at h
    · rename_i op _
      cases op <;> simp only [decodeOperands] at h
      case uartTx =>
        split at h
        · split at h
          · cases h
          · cases h
            simp only [WellFormed, Instr.wellFormed, List.length_take, beq_iff_eq]
            omega
        · cases h
      all_goals first | (cases h; rfl) | (split at h <;> first | (cases h; rfl) | cases h)
    · cases h

end Sys2Proof.Machine
end

