-- ==== Sys2Proof/Laws/Uart.lean ====
section
/-! SUPPORT. What a transmission does, said once (41_seriallink.md R115 to R117): the micro-step of each of its positions, its entry, and
that a budget of ticks always suffices to end a wait. -/

namespace Sys2Proof.Machine

open Sys2Proof.Safety

/-- The part of a transmission's position that holds once `TX_LEN` is latched (R115 to R118). -/
def inLoop (len : Half) (rest : List Micro) (s : State) : Prop :=
  rest = [.txIdxZero, .txStartSample, .txEnterReady] ∧ s.txState = .idle ∨
  (rest = [.txStartSample, .txEnterReady] ∨ rest = [.txEnterReady]) ∧ s.txState = .idle ∧ s.txIdx = 0 ∨
  (rest = [.readyErr] ∨ rest = [.readyPoll] ∨ rest = [.readyTime] ∨ rest = [.txWrite, .txIdxIncr] ∨ rest = [.txIdxIncr]) ∧
    s.txState = .waitReady ∧ s.txIdx < len ∨
  rest = [.txEnterComplete] ∧ s.txState = .waitReady ∧ s.txIdx = len ∨
  (rest = [.completeErr] ∨ rest = [.completePoll] ∨ rest = [.completeTime]) ∧ s.txState = .waitComplete ∧ s.txIdx = len ∨
  (∃ st, (rest = [.resStatusSet st, .txEnterIdle] ∨ rest = [.txEnterIdle] ∧ s.resStatus = statusCode st) ∧
    (st = .ok → s.txState = .waitComplete ∧ s.txIdx = len)) ∧ s.txState ≠ .idle ∧ s.txIdx ≤ len

theorem inLoop_finish {len : Half} {s : State} (st : TransferStatus) (hs : s.txState ≠ .idle) (hi : s.txIdx ≤ len)
    (ok : st = .ok → s.txState = .waitComplete ∧ s.txIdx = len) : inLoop len (finish st) s :=
  .inr (.inr (.inr (.inr (.inr ⟨⟨st, .inl rfl, ok⟩, hs, hi⟩))))

theorem byteLoop_ne (s : State) : byteLoop s ≠ [] := by
  unfold byteLoop
  split <;> simp

/-- The test of the byte loop leads to a poll or to the completion wait (R115). -/
theorem inLoop_byteLoop {len : Half} {s : State} (hlen : s.txLen = len) (hs : s.txState = .waitReady) (hi : s.txIdx ≤ len) :
    inLoop len (byteLoop s) s := by
  unfold byteLoop
  split <;> rename_i h <;> rw [hlen] at h
  · exact .inr (.inr (.inl ⟨.inl rfl, hs, h⟩))
  · exact .inr (.inr (.inr (.inl ⟨rfl, hs, by bv_omega⟩)))

/-- From each of its positions a transmission takes a micro-step, to another of its positions or to its end (R115 to R118). -/
theorem tx_step {timeout : Tick} {len : Half} {data : List Byte} {rest : List Micro} {s : State}
    (hp : txPosition timeout len data rest s) :
    ∃ m ms u r, rest = m :: ms ∧ runMicro m ms s = .ok (u, r) ∧ (r ≠ [] → txPosition timeout len data r u) ∧
      (r = [] → u.txState = .idle) ∧ u.bright = s.bright ∧ u.timerArmed = s.timerArmed ∧ u.timerPeriod = s.timerPeriod := by
  obtain ⟨hl, hb, ht, hp⟩ := hp
  have pos : ∀ {u : State} {r : List Micro}, u.txbuf = s.txbuf → u.txTimeout = s.txTimeout → u.txLen = len → inLoop len r u →
      txPosition timeout len data r u := fun h1 h2 h3 h4 => ⟨hl, h1.trans hb, h2.trans ht, .inr ⟨h3, h4⟩⟩
  rcases hp with ⟨rfl, hst⟩ | ⟨hlen, hp⟩
  · exact ⟨_, _, _, _, rfl, rfl, fun _ => pos rfl rfl rfl (.inl ⟨rfl, hst⟩), by simp, rfl, rfl, rfl⟩
  · rcases hp with ⟨rfl, hst⟩ | ⟨h, hst, hi⟩ | ⟨h, hst, hi⟩ | ⟨rfl, hst, hi⟩ | ⟨h, hst, hi⟩ | ⟨h, hst, hi⟩
    · exact ⟨_, _, _, _, rfl, rfl, fun _ => pos rfl rfl hlen (.inr (.inl ⟨.inl rfl, hst, rfl⟩)), by simp, rfl, rfl, rfl⟩
    · rcases h with rfl | rfl
      · exact ⟨_, _, _, _, rfl, rfl, fun _ => pos rfl rfl hlen (.inr (.inl ⟨.inr rfl, hst, hi⟩)), by simp, rfl, rfl, rfl⟩
      · refine ⟨_, _, { s with txState := .waitReady }, byteLoop s, rfl, rfl, fun _ => pos rfl rfl hlen ?_,
          fun h => absurd h (byteLoop_ne s), rfl, rfl, rfl⟩
        exact inLoop_byteLoop (s := { s with txState := .waitReady }) hlen rfl (by show s.txIdx ≤ len; bv_omega)
    · rcases h with rfl | rfl | rfl | rfl | rfl
      · refine ⟨_, _, sampled s, _, rfl, rfl, fun _ => pos rfl rfl hlen ?_, by split <;> simp [finish], rfl, rfl, rfl⟩
        split
        · exact inLoop_finish _ (by rw [sampled_txState, hst]; simp) (by rw [sampled_txIdx]; bv_omega) (fun h => nomatch h)
        · exact .inr (.inr (.inl ⟨.inr (.inl rfl), hst, hi⟩))
      · refine ⟨_, _, sampled s, _, rfl, rfl, fun _ => pos rfl rfl hlen ?_, by split <;> simp, rfl, rfl, rfl⟩
        split
        · exact .inr (.inr (.inl ⟨.inr (.inr (.inr (.inl rfl))), hst, hi⟩))
        · exact .inr (.inr (.inl ⟨.inr (.inr (.inl rfl)), hst, hi⟩))
      · refine ⟨_, _, s, _, rfl, rfl, fun _ => pos rfl rfl hlen ?_, ?_, rfl, rfl, rfl⟩
        · split
          · exact inLoop_finish _ (by rw [hst]; simp) (by bv_omega) (fun h => nomatch h)
          · exact inLoop_byteLoop hlen hst (by bv_omega)
        · split
          · simp [finish]
          · exact fun h => absurd h (byteLoop_ne s)
      · have hlt : s.txIdx.toNat < s.txbuf.length := by rw [hb, hl]; bv_omega
        refine ⟨_, _, uartWrite s.txbuf[s.txIdx.toNat] s, _, rfl, by simp only [runMicro]; rw [List.getElem?_eq_getElem hlt],
          fun _ => pos rfl rfl hlen ?_, by simp, rfl, rfl, rfl⟩
        exact .inr (.inr (.inl ⟨.inr (.inr (.inr (.inr rfl))), hst, hi⟩))
      · refine ⟨_, _, { s with txIdx := s.txIdx + 1 }, _, rfl, rfl, fun _ => pos rfl rfl hlen ?_,
          fun h => absurd h (byteLoop_ne _), rfl, rfl, rfl⟩
        exact inLoop_byteLoop (s := { s with txIdx := s.txIdx + 1 }) hlen hst (by show s.txIdx + 1 ≤ len; bv_omega)
    · exact ⟨_, _, _, _, rfl, rfl, fun _ => pos rfl rfl hlen (.inr (.inr (.inr (.inr (.inl ⟨.inl rfl, rfl, hi⟩))))), by simp,
        rfl, rfl, rfl⟩
    · have hle : s.txIdx ≤ len := by bv_omega
      rcases h with rfl | rfl | rfl
      · refine ⟨_, _, sampled s, _, rfl, rfl, fun _ => pos rfl rfl hlen ?_, by split <;> simp [finish], rfl, rfl, rfl⟩
        split
        · exact inLoop_finish _ (by rw [sampled_txState, hst]; simp) hle (fun h => nomatch h)
        · exact .inr (.inr (.inr (.inr (.inl ⟨.inr (.inl rfl), hst, hi⟩))))
      · refine ⟨_, _, sampled s, _, rfl, rfl, fun _ => pos rfl rfl hlen ?_, by split <;> simp [finish], rfl, rfl, rfl⟩
        split
        · exact inLoop_finish _ (by rw [sampled_txState, hst]; simp) hle (fun _ => ⟨hst, hi⟩)
        · exact .inr (.inr (.inr (.inr (.inl ⟨.inr (.inr rfl), hst, hi⟩))))
      · refine ⟨_, _, s, _, rfl, rfl, fun _ => pos rfl rfl hlen ?_, by split <;> simp [finish], rfl, rfl, rfl⟩
        split
        · exact inLoop_finish _ (by rw [hst]; simp) hle (fun h => nomatch h)
        · exact .inr (.inr (.inr (.inr (.inl ⟨.inl rfl, hst, hi⟩))))
    · obtain ⟨st, rfl | ⟨rfl, -⟩, ok⟩ := h
      · exact ⟨_, _, { s with resStatus := statusCode st }, [.txEnterIdle], rfl, rfl,
          fun _ => pos rfl rfl hlen (.inr (.inr (.inr (.inr (.inr ⟨⟨st, .inr ⟨rfl, rfl⟩, ok⟩, hst, hi⟩))))), by simp, rfl, rfl, rfl⟩
      · exact ⟨_, _, { s with txState := .idle }, [], rfl, rfl, by simp, fun _ => rfl, rfl, rfl, rfl⟩

/-- `finish(st)` can always end (R115). -/
theorem can_finish {s : State} (st : TransferStatus) : ∃ t, MicroRun (finish st) s t :=
  ⟨_, .step 0 (by rw [tickN_zero]; rfl)
    (.step (s := { s with resStatus := statusCode st }) 0 (by rw [tickN_zero]; rfl) (.done _))⟩

/-- With the timer armed, TMR can take as many steps as make any duration elapse (R101, R104). -/
theorem can_elapse (s : State) (ha : s.timerArmed = true) (start dur : Tick) :
    ∃ n, elapsedAtLeast (now (tickN n s)) start dur = true := by
  refine ⟨(start + dur - s.tick).toNat, ?_⟩
  have : s.tick + (start + dur - s.tick) - start = dur := by bv_omega
  rw [tickN_eq]
  simp only [elapsedAtLeast, now, taken, ha, if_true, BitVec.ofNat_toNat, BitVec.setWidth_eq, this, decide_eq_true_eq]
  bv_omega

/-- What a whole transmission has done when it reaches the byte loop (R115). -/
theorem tx_entry {timeout : Tick} {len : Half} {data : List Byte} {s t : State} (hs : s.seq = .idle)
    (hc : Completes (.uartTx timeout len data) s t) :
    ∃ v w : State, t = complete (.uartTx timeout len data) w ∧ MicroRun (byteLoop v) v w ∧ v.txbuf = data ∧ v.txLen = len ∧
      v.txIdx = 0 ∧ v.txTimeout = timeout ∧ v.timerArmed = s.timerArmed ∧ visible v.log = visible s.log ∧ v.host = s.host ∧
      v.env = s.env ∧ (s.timerArmed = false → v.txStart = v.tick) := by
  obtain ⟨u, hu, rfl⟩ := (completes_idle hs rfl).mp hc
  obtain ⟨n1, v, r, one, hu⟩ := microRun_cons.mp hu
  cases one
  obtain ⟨n2, v, r, one, hu⟩ := microRun_cons.mp hu
  cases one
  obtain ⟨n3, v, r, one, hu⟩ := microRun_cons.mp hu
  cases one
  obtain ⟨n4, v, r, one, hu⟩ := microRun_cons.mp hu
  cases one
  obtain ⟨n5, v, r, one, hu⟩ := microRun_cons.mp hu
  have hr : r = byteLoop v := by cases one; rfl
  subst hr
  refine ⟨v, _, rfl, hu, ?_⟩
  cases one
  simp [now, tickN_eq, taken]
  intro h
  simp [h]

/-- A transmission can end if it can from the byte loop on (R115). -/
theorem tx_start {timeout : Tick} {len : Half} {data : List Byte} {s : State} (hs : s.seq = .idle)
    (h : ∀ v : State, v.txbuf = data → v.txLen = len → v.txIdx = 0 → v.txTimeout = timeout → v.timerArmed = s.timerArmed →
      v.env = s.env → v.log = s.log → v.txStart = v.tick → ∃ w, MicroRun (byteLoop v) v w) :
    ∃ t, Completes (.uartTx timeout len data) s t := by
  obtain ⟨v, hv⟩ : ∃ v : State, v = { s with
    txTimeout := timeout, txbuf := data, txLen := len, txIdx := 0, txStart := s.tick, txState := .waitReady } := ⟨_, rfl⟩
  obtain ⟨t, ht⟩ := h v (by subst hv; rfl) (by subst hv; rfl) (by subst hv; rfl) (by subst hv; rfl) (by subst hv; rfl)
    (by subst hv; rfl) (by subst hv; rfl) (by subst hv; rfl)
  exact ⟨_, (completes_idle hs rfl).mpr ⟨t, .step 0 (by rw [tickN_zero]; rfl) (.step 0 (by rw [tickN_zero]; rfl)
    (.step 0 (by rw [tickN_zero]; rfl) (.step 0 (by rw [tickN_zero]; rfl)
      (.step (rest' := byteLoop v) (u := v) 0 (by rw [tickN_zero, hv]; rfl) ht)))), rfl⟩⟩

/-- A prescribed answer is given, and used up. -/
theorem answer_script {c : UartCond} {e : Environment} {a : Bool} {r : List Bool} (h : e.answerScript = a :: r) :
    answerOf c e = a ∧ (answered e).answerScript = r := by simp [answerOf, answered, h]

end Sys2Proof.Machine
end

