-- ==== Sys2Proof/Tests/Slice0.lean ====
section
/-! SUPPORT. The model's own tests: the smoke test of WellFormed, words written out from 30_encoding.md, the vectors of
95_test_vectors.md (named in each comment), and a witness for the hypotheses of each obligation. -/

namespace Sys2Proof.Tests

open Sys2Proof.Machine Sys2Proof.Safety

/-! ## Helpers -/

/-- An idle block with its timer armed, `TICK` = 1000, `BRIGHT` = 3. -/
def armed : State where
  tick := 1000
  timerArmed := true
  timerPeriod := .p1ms
  brrMant := 39
  brrFrac := 1
  brrSet := false
  txState := .idle
  txStart := 0
  txTimeout := 0
  txIdx := 0
  txLen := 0
  resStatus := 0
  resTick := 0
  wStart := 0
  wDur := 0
  bright := 3
  colon := false
  pinClk := true
  pinDio := true
  sbShift := 0
  sbCnt := 0
  seq := .idle
  txbuf := []
  log := []
  refusals := []
  host := { queue := [], phase := .manual, received := [], oscReady := true }
  env := { tickScript := [], tickDraws := 0, answerScript := [], answerDraws := 0 }

/-- The same with the timer not armed. -/
def unarmed : State := { armed with timerArmed := false }

/-- A block in the middle of a command. -/
def under (i : Instr) (rest : List Micro) (s : State) : State := withSeq (.busy i rest) s

/-- A field of the next state. -/
def see? {α : Type} (f : State → α) (o : Host.Outcome State Fault Refusal) : Option α :=
  match o with
  | .next t => some (f t)
  | .fault _ => none
  | .refused _ => none

/-- A state whose host is going to issue a sequence. -/
def issuing (bytes : List Byte) (s : State) : State := issueFirst bytes s

theorem runInv_idle {s : State} (h1 : s.bright ≤ 7) (h2 : s.timerArmed = true → s.timerPeriod = .p1ms) (h3 : s.seq = .idle)
    (h4 : s.txState = .idle) : RunInv s :=
  ⟨h1, h2, fun _ => h4, fun i rest h => by rw [h3] at h; cases h⟩

theorem runInv_under {i : Instr} {rest : List Micro} {s : State} (h1 : s.bright ≤ 7)
    (h2 : s.timerArmed = true → s.timerPeriod = .p1ms) (h3 : position i rest (under i rest s)) : RunInv (under i rest s) :=
  ⟨h1, h2, fun h => by (cases h), fun j r h => by cases h; exact h3⟩

/-! ## WellFormed -/

/-- A payload shorter or longer than `len` is refused (R70). -/
theorem test_wellFormed : ¬ WellFormed (.uartTx 0 2 []) ∧ ¬ WellFormed (.uartTx 0 0 [1]) ∧ WellFormed (.uartTx 50 2 [0x48, 0x69]) ∧
    WellFormed (.uartTx 0 0 []) := by decide

/-! ## Decoding (T-ENC) -/

/-- T-ENC-1 to T-ENC-4. -/
theorem test_decode_tick : decode [0x01] = .ok (.tickStart, []) ∧ decode [0x02] = .ok (.tickNow, []) ∧
    decode [0x03, 0x64, 0x00, 0x00, 0x00] = .ok (.tickWait 100, []) ∧
    decode [0x03, 0xFF, 0xFF, 0xFF, 0xFF] = .ok (.tickWait 4294967295, []) := ⟨rfl, rfl, rfl, rfl⟩

/-- T-ENC-5 to T-ENC-7. -/
theorem test_decode_uart :
    decode [0x10, 0x00, 0xC2, 0x01, 0x00, 0x00, 0xA2, 0x4A, 0x04] = .ok (.uartDiv 115200 72000000, []) ∧
    decode [0x11, 0x32, 0x00, 0x00, 0x00, 0x02, 0x00, 0x48, 0x69] = .ok (.uartTx 50 2 [0x48, 0x69], []) ∧
    decode [0x11, 0x00, 0x00, 0x00, 0x00, 0x00, 0x00] = .ok (.uartTx 0 0 [], []) := ⟨rfl, rfl, rfl⟩

/-- T-ENC-8 to T-ENC-13, T-ENC-18. -/
theorem test_decode_dsp : decode [0x20] = .ok (.dspStart, []) ∧ decode [0x22] = .ok (.dspAck, []) ∧
    decode [0x23] = .ok (.dspStop, []) ∧ decode [0x21, 0x40] = .ok (.dspByte 0x40, []) ∧
    decode [0x24, 0x01, 0x02, 0x03, 0x04, 0x01] = .ok (.dspDigits 1 2 3 4 1, []) ∧
    decode [0x25, 0x05] = .ok (.dspBright 5, []) ∧ decode [0x26, 0xD2, 0x04] = .ok (.dspCounter 1234, []) ∧
    decode [0x27, 0x0C, 0x22] = .ok (.dspClock 12 34, []) ∧ decode [0x26, 0x0F, 0x27] = .ok (.dspCounter 9999, []) ∧
    decode [0x27, 0x0F, 0x27] = .ok (.dspClock 15 39, []) :=
  ⟨rfl, rfl, rfl, rfl, rfl, rfl, rfl, rfl, rfl, rfl⟩

/-- T-ENC-14 to T-ENC-17: reserved bytes at both ends of each reserved range, and truncation. -/
theorem test_decode_refused : ([0x00, 0x04, 0x0F, 0x12, 0x1F, 0x28, 0xFF] : List Byte).all (fun b => Opcode.ofByte b == none) ∧
    decode [0x03, 0x64, 0x00, 0x00] = .error .truncated ∧
    decode [0x11, 0x32, 0x00, 0x00, 0x00, 0x02, 0x00, 0x48] = .error .truncated ∧ decode [0xFF] = .error .reservedOpcode :=
  ⟨by decide, rfl, rfl, rfl⟩

/-- The four-command stream of program P1 decodes command by command (R71). -/
theorem test_decode_stream : decode [0x01, 0x02, 0x21, 0x40] = .ok (.tickStart, [0x02, 0x21, 0x40]) ∧
    decode [0x02, 0x21, 0x40] = .ok (.tickNow, [0x21, 0x40]) := ⟨rfl, rfl⟩

/-- The table's words for one row of each format family. -/
theorem test_decodeTableWord : decodeTableWord 8 0x01 = some .tickStart ∧ decodeTableWord 40 0x6403 = some (.tickWait 100) ∧
    decodeTableWord 16 0x4021 = some (.dspByte 0x40) ∧ decodeTableWord 8 0x00 = none := by decide

/-! ## Unit TICK -/

/-- T-TICK-1: from a state whose timer is not armed, TICK.START leaves `TICK` = 0 before it arms. -/
theorem test_tickStart : see? (·.timerPeriod) (exec .tickStart unarmed) = some .p1ms ∧
    see? (·.tick) (exec .tickStart (under .tickStart [.tickZero, .timerArm] unarmed)) = some 0 := by decide

/-- T-TICK-3: the counter wraps. -/
theorem test_onTick_wraps : (onTick { armed with tick := 0xFFFFFFFF }).tick = 0 ∧ (onTick { armed with tick := 0x2A }).tick = 0x2B := by
  decide

/-- T-TICK-5: the response of TICK.NOW. -/
theorem test_tickNow : see? (·.host.received) (exec .tickNow armed) = some [[0xE8, 0x03, 0x00, 0x00]] ∧
    see? (·.resTick) (exec .tickNow armed) = some 1000 := by decide

/-- T-TICK-6: the sample 12 does not end a wait of 3 that started at 10, the sample 13 does. -/
theorem test_tickWait :
    see? (·.seq) (exec (.tickWait 3) (under (.tickWait 3) [.waitTest] { armed with tick := 12, wStart := 10, wDur := 3 })) =
      some (.busy (.tickWait 3) [.waitTest]) ∧
    see? (·.seq) (exec (.tickWait 3) (under (.tickWait 3) [.waitTest] { armed with tick := 13, wStart := 10, wDur := 3 })) =
      some .idle := by decide

/-- T-TICK-9, T-TICK-12: the wait across the wrap, and the missed window. -/
theorem test_tickWait_wrap : elapsedAtLeast 3 0xFFFFFFFE 5 = true ∧ elapsedAtLeast 2 0xFFFFFFFE 5 = false ∧
    elapsedAtLeast 0xFFFFFFFE 0 0xFFFFFFFF = false ∧ elapsedAtLeast 0 0 0xFFFFFFFF = false := by decide

/-! ## Unit DIV -/

/-- The source's divisor table, T-DIV-1 to T-DIV-11. -/
theorem test_divisor_source : computeDivisor 2400 72000000 = (1875, 0) ∧ computeDivisor 9600 72000000 = (468, 12) ∧
    computeDivisor 19200 72000000 = (234, 6) ∧ computeDivisor 57600 72000000 = (78, 2) ∧
    computeDivisor 88253 72000000 = (51, 0) ∧ computeDivisor 115200 72000000 = (39, 1) ∧
    computeDivisor 230769 72000000 = (19, 8) ∧ computeDivisor 461538 72000000 = (9, 12) ∧
    computeDivisor 923076 72000000 = (4, 14) ∧ computeDivisor 2250000 72000000 = (2, 0) ∧
    computeDivisor 4500000 72000000 = (1, 0) := by decide

/-- T-DIV-12 to T-DIV-29: ceiling, ties, carry, the edges of the mantissa. -/
theorem test_divisor_edges : computeDivisor 9600 8000000 = (52, 2) ∧ computeDivisor 115200 8000000 = (4, 6) ∧
    computeDivisor 115200 36000000 = (19, 9) ∧ computeDivisor 100000 1800080 = (1, 3) ∧ computeDivisor 9000000 72000000 = (0, 8) ∧
    computeDivisor 4294967295 72000000 = (0, 1) ∧ computeDivisor 4500001 72000000 = (1, 0) ∧
    computeDivisor 1 4294967295 = (268435455, 15) ∧ computeDivisor 1 65520 = (4095, 0) ∧ computeDivisor 1 65536 = (4096, 0) ∧
    computeDivisor 100 6553584 = (4096, 0) := by decide

/-- T-DIV-29 to T-DIV-32: the refusals and their order; the mantissa is tested after the carry. -/
theorem test_uartDiv_refused : see? (·.refusals) (exec (.uartDiv 100 6553584) armed) = some [.mantissaOverflow] ∧
    see? (·.refusals) (exec (.uartDiv 0 72000000) { armed with brrSet := true }) = some [.baudZero] ∧
    see? (·.refusals) (exec (.uartDiv 9600 72000000) { armed with brrSet := true }) = some [.divisorAlreadySet] := by decide

/-- T-DIV-27 as a command: the first latch, and what remains. -/
theorem test_uartDiv : see? (·.brrMant) (exec (.uartDiv 1 65520) armed) = some 4095 ∧
    see? (·.seq) (exec (.uartDiv 1 65520) armed) = some (.busy (.uartDiv 1 65520) [.brrFracSet 0, .brrSetMark]) := by decide

/-! ## Unit TX -/

/-- A transmission of one byte at a given place. -/
def sending (rest : List Micro) (answers : List Bool) (state : TxState) (idx : Half) : State :=
  { under (.uartTx 1 1 [0x55]) rest armed with
    txState := state, txTimeout := 1, txLen := 1, txIdx := idx, txbuf := [0x55], txStart := 995
    env := { armed.env with answerScript := answers } }

/-- T-TX-7, T-TX-8: the window has elapsed; an error sample ends the call, a ready sample of 1 is served. -/
theorem test_uartTx_poll :
    see? (·.seq) (exec (.uartTx 1 1 [0x55]) (sending [.readyErr] [true] .waitReady 0)) =
      some (.busy (.uartTx 1 1 [0x55]) [.resStatusSet .error, .txEnterIdle]) ∧
    see? (·.seq) (exec (.uartTx 1 1 [0x55]) (sending [.readyPoll] [true] .waitReady 0)) =
      some (.busy (.uartTx 1 1 [0x55]) [.txWrite, .txIdxIncr]) := by decide

/-- T-TX-10: a completion sample of 0 after the window is no Ok; the byte itself was written. -/
theorem test_uartTx_complete :
    see? (·.seq) (exec (.uartTx 1 1 [0x55]) (sending [.completeTime] [] .waitComplete 1)) =
      some (.busy (.uartTx 1 1 [0x55]) [.resStatusSet .timeout, .txEnterIdle]) ∧
    see? (·.log) (exec (.uartTx 1 1 [0x55]) (sending [.txWrite, .txIdxIncr] [] .waitReady 0)) = some [.uartWr 0x55] := by decide

/-! ## Unit DSP -/

/-- T-DSP-1, T-DSP-6, T-DSP-7: the first pin of each primitive. -/
theorem test_dsp_first : see? (·.log) (exec .dspStart armed) = some [.pin .clk true] ∧
    see? (·.log) (exec .dspAck armed) = some [.pin .clk false] ∧ see? (·.log) (exec .dspStop armed) = some [.pin .clk false] := by
  decide

/-- T-DSP-3: bit 0 of the byte goes first. -/
theorem test_dspByte :
    see? (·.log) (exec (.dspByte 1) (under (.dspByte 1) [.dioBit] { armed with sbShift := 1 })) = some [.pin .dio true] ∧
    see? (·.sbShift) (exec (.dspByte 0x81) armed) = some 0x81 := by decide

/-- T-DSP-10, T-DSP-28 with the suggested defaults: the digit bytes and the brightness byte. -/
theorem test_frameBytes_defaults : frameBytes Config.suggestedDisplay 1 2 3 4 true = [0x06, 0xDB, 0x4F, 0x66] ∧
    frameBytes Config.suggestedDisplay 2 3 5 9 true = [0x5B, 0xCF, 0x6D, 0x6F] ∧ brightByte Config.suggestedDisplay 3 = 0x8B ∧
    brightByte Config.suggestedDisplay 7 = 0x8F := by decide

/-- T-DSP-14, T-DSP-15, T-DSP-15b: the refusals of DSP.DIGITS in their order. -/
theorem test_dspDigits_refused : see? (·.refusals) (exec (.dspDigits 9 10 9 9 0) armed) = some [.digitOutOfRange] ∧
    see? (·.refusals) (exec (.dspDigits 1 2 3 4 2) armed) = some [.colonNotBoolean] ∧
    see? (·.refusals) (exec (.dspDigits 10 2 3 4 2) armed) = some [.digitOutOfRange] := by decide

/-- T-DSP-16 to T-DSP-18: the level is stored first, or refused. -/
theorem test_dspBright : see? (·.bright) (exec (.dspBright 7) armed) = some 7 ∧
    see? (fun t => (t.bright, t.refusals)) (exec (.dspBright 8) armed) = some (3, [.brightnessOutOfRange]) := ⟨rfl, rfl⟩

/-- T-DSP-20 to T-DSP-24: decimal digits with leading zeros; 10000 is refused. -/
theorem test_dspCounter : digits4 1234 = [1, 2, 3, 4] ∧ digits4 9999 = [9, 9, 9, 9] ∧ digits4 7 = [0, 0, 0, 7] ∧
    see? (·.refusals) (exec (.dspCounter 10000) armed) = some [.counterOutOfRange] := by decide

/-- T-DSP-26 to T-DSP-30: the colon is toggled first; above 99 nothing is. -/
theorem test_dspClock : clockDigits 23 59 = [2, 3, 5, 9] ∧ see? (·.colon) (exec (.dspClock 12 34) armed) = some true ∧
    see? (fun t => (t.colon, t.refusals)) (exec (.dspClock 100 0) armed) = some (false, [.clockOutOfRange]) ∧
    see? (·.refusals) (exec (.dspClock 0 100) armed) = some [.clockOutOfRange] := ⟨by decide, rfl, rfl, rfl⟩

/-- A receiver reads the byte 0x8B from T-DSP-8's events. -/
theorem test_receive : receive true true (txnEvents [0x8B]) = [[0x8B]] ∧ pinsAndWaits (txnEvents [0x8B]) = (34, 22) := by decide

/-! ## The step -/

/-- A placed instruction is what the next step runs. -/
theorem test_withFetchWord : see? (·.timerPeriod) (step (State.reset.withFetchWord 8 0x01)) = some .p1ms ∧
    see? (·.refusals) (step (State.reset.withFetchWord 8 0xFF)) = some [.reservedOpcode] := by decide

/-- Each row of the opcode table, its operands zero, decodes and runs as the first command after reset. -/
theorem test_everyRowRuns : ([0x01, 0x02, 0x03, 0x10, 0x11, 0x20, 0x21, 0x22, 0x23, 0x24, 0x25, 0x26, 0x27] : List Nat).all (fun w =>
    (decodeTableWord 8 w).isSome && (see? (fun _ => ()) (step (State.reset.withFetchWord 8 w))).isSome) = true := by decide

/-! ## Witnesses: the hypotheses of the obligations can be met -/

theorem test_witness_decodeOfEncode : WellFormed (.uartTx 50 2 [0x48, 0x69]) := by decide

theorem test_witness_encodeOfDecode : decode [0x25, 0x05, 0x01] = .ok (.dspBright 5, [0x01]) := rfl

theorem test_witness_reserved : ([0x00, 0x04, 0x0F, 0x12, 0x1F, 0x28, 0xFF] : List Byte).all (fun b =>
    b.toNat = 0 ∨ 0x04 ≤ b.toNat ∧ b.toNat ≤ 0x0F ∨ 0x12 ≤ b.toNat ∧ b.toNat ≤ 0x1F ∨ 0x28 ≤ b.toNat) := by decide

theorem test_witness_truncated : WellFormed (.tickWait 100) ∧ ([0x03, 0x64] : List Byte) ≠ [] ∧
    ([0x03, 0x64] : List Byte) <+: encode (.tickWait 100) ∧ ([0x03, 0x64] : List Byte) ≠ encode (.tickWait 100) := by decide

theorem test_witness_refusedSequence : (issuing [0xFF] armed).seq = .idle ∧ (issuing [0xFF] armed).host.oscReady = true ∧
    (issuing [0xFF] armed).host.queue = [0xFF] :: [] ∧ decode [0xFF] = .error .reservedOpcode := ⟨rfl, rfl, rfl, rfl⟩

theorem test_witness_littleEndian : (1 : Byte).toNat + 256 * (0 : Byte).toNat ≤ ([0x55] : List Byte).length := by decide

/-- A state from which the next step arms the timer, and one from which it does not. -/
theorem test_witness_arms : RunInv (under .tickStart [.timerArm] unarmed) ∧
    see? (·.timerArmed) (step (under .tickStart [.timerArm] unarmed)) = some true ∧ RunInv unarmed ∧
    see? (·.timerArmed) (step unarmed) = some false :=
  ⟨runInv_under (by decide) (fun _ => rfl) ⟨.inr rfl, rfl, rfl⟩, rfl, runInv_idle (by decide) (fun _ => rfl) rfl rfl, rfl⟩

theorem test_witness_onTick : armed.timerArmed = true ∧ unarmed.timerArmed = false := ⟨rfl, rfl⟩

/-- A run of one step with three ticks in it, for the elapsed-time law: from here on nothing more is prescribed. -/
def ticking : State := { armed with env := { armed.env with tickScript := [3] } }

theorem test_witness_elapsed : ¬ Zeroing ticking ∧ ∃ t, step ticking = .next t ∧ tickCount t.log = tickCount ticking.log + 3 :=
  ⟨fun ⟨_, _, h⟩ => by (cases h), _, rfl, by decide⟩

theorem test_witness_ticksBefore : ticking.timerArmed = true ∧ ticking.env.tickScript = 3 :: [] ∧ unarmed.timerArmed = false :=
  ⟨rfl, rfl, rfl⟩

theorem test_witness_stepRuns : (issuing [0x02, 0x01] armed).seq = .idle ∧ (issuing [0x02, 0x01] armed).host.oscReady = true ∧
    (issuing [0x02, 0x01] armed).host.queue = [0x02, 0x01] :: [] ∧ decode [0x02, 0x01] = .ok (.tickNow, [0x01]) ∧
    (under .tickStart [.timerArm] armed).seq = .busy .tickStart [.timerArm] := ⟨rfl, rfl, rfl, rfl, rfl⟩

/-- Every statement whose only hypothesis is an idle FG. -/
theorem test_witness_idle : armed.seq = .idle ∧ armed.timerArmed = true ∧ unarmed.seq = .idle ∧ unarmed.timerArmed = false :=
  ⟨rfl, rfl, rfl, rfl⟩

/-- A wait of 3 at its start sample. -/
def waiting (s : State) : State := under (.tickWait 3) [.waitTest] { s with wStart := s.tick, wDur := 3 }

theorem test_witness_tickWait : (waiting armed).seq = .busy (.tickWait 3) [.waitTest] ∧ (waiting armed).wDur = 3 ∧
    (waiting armed).wStart = (waiting armed).tick ∧ ∃ t, Completes (.tickWait 3) (waiting armed) t :=
  ⟨rfl, rfl, rfl, _, .last 3 rfl rfl⟩

theorem test_witness_tickWaitHangs : (3 : Tick) ≠ 0 ∧ (waiting unarmed).seq = .busy (.tickWait 3) [.waitTest] ∧
    (waiting unarmed).wDur = 3 ∧ (waiting unarmed).wStart = (waiting unarmed).tick ∧ (waiting unarmed).timerArmed = false :=
  ⟨by decide, rfl, rfl, rfl, rfl⟩

/-- The edge of the bound: 2^32 - 3 ticks at once still end a wait of 3. -/
theorem test_witness_tickBound : (waiting { armed with env := { armed.env with tickScript := [4294967293] } }).seq =
      .busy (.tickWait 3) [.waitTest] ∧
    (waiting { armed with env := { armed.env with tickScript := [4294967293] } }).env.tickScript = [4294967293] ∧
    ([4294967293] : List Nat) ≠ [] ∧ (∀ x ∈ ([4294967293] : List Nat), x + (3 : Tick).toNat ≤ 2 ^ 32) ∧
    (3 : Tick).toNat ≤ ([4294967293] : List Nat).sum ∧ armed.timerArmed = true :=
  ⟨rfl, rfl, by decide, by decide, by decide, rfl⟩

theorem test_witness_divisor : 1 ≤ 9600 ∧ divisorS 9376 = 16 ∧ divisorS 9375 = 15 := by decide

/-- Each case of UART.DIV, the mantissa at both sides of its edge. -/
theorem test_witness_uartDiv : armed.seq = .idle ∧ ({ armed with brrSet := true } : State).brrSet = true ∧ armed.brrSet = false ∧
    (1 : BitVec 32) ≠ 0 ∧ 2 ^ 12 ≤ (computeDivisor (1 : BitVec 32).toNat (65536 : BitVec 32).toNat).1 ∧
    (computeDivisor (1 : BitVec 32).toNat (65520 : BitVec 32).toNat).1 < 2 ^ 12 := by decide

/-- A step that sets `BRR_SET`, and one from a state in which it is set. -/
theorem test_witness_writeOnce : RunInv (under (.uartDiv 115200 72000000) [.brrSetMark] unarmed) ∧
    see? (·.brrSet) (step (under (.uartDiv 115200 72000000) [.brrSetMark] unarmed)) = some true ∧
    RunInv { unarmed with brrSet := true } ∧ see? (·.brrSet) (step { unarmed with brrSet := true }) = some true :=
  ⟨runInv_under (by decide) (fun _ => rfl) ⟨39, 1, rfl, rfl, .inr ⟨rfl, rfl⟩, rfl⟩, rfl,
    runInv_idle (by decide) (fun _ => rfl) rfl rfl, rfl⟩

/-- The positions of a poll, the last byte written and the index at its edge. -/
theorem test_witness_polls : (sending [.readyErr] [] .waitReady 0).seq = .busy (.uartTx 1 1 [0x55]) [.readyErr] ∧
    (sending [.readyPoll] [] .waitReady 0).seq = .busy (.uartTx 1 1 [0x55]) [.readyPoll] ∧
    (sending [.txWrite, .txIdxIncr] [] .waitReady 0).seq = .busy (.uartTx 1 1 [0x55]) [.txWrite, .txIdxIncr] ∧
    (sending [.txWrite, .txIdxIncr] [] .waitReady 0).txIdx.toNat < (sending [.txWrite, .txIdxIncr] [] .waitReady 0).txbuf.length ∧
    (sending [.txIdxIncr] [] .waitReady 0).seq = .busy (.uartTx 1 1 [0x55]) [.txIdxIncr] ∧
    (sending [.readyTime] [] .waitReady 0).seq = .busy (.uartTx 1 1 [0x55]) [.readyTime] ∧
    (sending [.readyTime] [] .waitReady 0).txIdx < (sending [.readyTime] [] .waitReady 0).txLen :=
  ⟨rfl, rfl, rfl, by decide, rfl, rfl, by decide⟩

theorem test_witness_completion : (sending [.txEnterComplete] [] .waitReady 1).seq = .busy (.uartTx 1 1 [0x55]) [.txEnterComplete] ∧
    (sending [.completeErr] [] .waitComplete 1).seq = .busy (.uartTx 1 1 [0x55]) [.completeErr] ∧
    (sending [.completePoll] [] .waitComplete 1).seq = .busy (.uartTx 1 1 [0x55]) [.completePoll] ∧
    (sending [.completeTime] [] .waitComplete 1).seq = .busy (.uartTx 1 1 [0x55]) [.completeTime] := ⟨rfl, rfl, rfl, rfl⟩

theorem test_witness_finish (st : TransferStatus) : (sending [.resStatusSet st, .txEnterIdle] [] .waitComplete 1).seq =
    .busy (.uartTx 1 1 [0x55]) [.resStatusSet st, .txEnterIdle] := rfl

/-- An empty transmission that ends, and the same without an armed timer (T-TX-1). -/
theorem test_witness_transmission : WellFormed (.uartTx 10 0 []) ∧ (10 : Tick) ≠ 0 ∧
    ∃ t, Completes (.uartTx 10 0 []) { unarmed with env := { unarmed.env with answerScript := [false, true] } } t :=
  ⟨by decide, by decide, _, .more 0 rfl (by decide) (.more 0 rfl (by decide) (.more 0 rfl (by decide) (.more 0 rfl (by decide)
    (.more 0 rfl (by decide) (.more 0 rfl (by decide) (.more 0 rfl (by decide) (.more 0 rfl (by decide)
      (.more 0 rfl (by decide) (.last 0 rfl rfl)))))))))⟩

/-- The same transmission with the timer not armed, at its start sample. -/
def stalled (rest : List Micro) (answers : List Bool) (state : TxState) (idx : Half) : State :=
  { sending rest answers state idx with timerArmed := false, txStart := 1000 }

/-- A stalled transmission at a poll of each loop: one that an error ends, which is a sample answered 1, and one poll answered 0. -/
theorem test_witness_stalled : (1 : Tick) ≠ 0 ∧ (stalled [.readyErr] [true] .waitReady 0).timerArmed = false ∧
    (stalled [.readyErr] [true] .waitReady 0).seq = .busy (.uartTx 1 1 [0x55]) [.readyErr] ∧
    (stalled [.readyErr] [true] .waitReady 0).txTimeout = 1 ∧
    (stalled [.readyErr] [true] .waitReady 0).txStart = (stalled [.readyErr] [true] .waitReady 0).tick ∧
    (stalled [.readyErr] [true] .waitReady 0).txIdx < (stalled [.readyErr] [true] .waitReady 0).txLen ∧
    (∃ t, Completes (.uartTx 1 1 [0x55]) (stalled [.readyErr] [true] .waitReady 0) t) ∧
    CanSample (.uartTx 1 1 [0x55]) .err true (stalled [.readyErr] [true] .waitReady 0) ∧
    (stalled [.completeErr] [true] .waitComplete 1).seq = .busy (.uartTx 1 1 [0x55]) [.completeErr] ∧
    (∃ t, Completes (.uartTx 1 1 [0x55]) (stalled [.completeErr] [true] .waitComplete 1) t) ∧
    (stalled [.readyErr] [false, false] .waitReady 0).env.answerScript = List.replicate (2 * 1) false ++ [] :=
  ⟨by decide, rfl, rfl, rfl, rfl, by decide,
    ⟨_, .more 0 rfl (by decide) (.more 0 rfl (by decide) (.last 0 rfl rfl))⟩, ⟨_, _, _, .here _, rfl, rfl, rfl⟩, rfl,
    ⟨_, .more 0 rfl (by decide) (.more 0 rfl (by decide) (.last 0 rfl rfl))⟩, rfl⟩

theorem test_witness_errors : answerOf .err (sending [.readyErr] [true] .waitReady 0).env = true ∧
    answerOf .err (sending [.completeErr] [true] .waitComplete 1).env = true := ⟨rfl, rfl⟩

/-- The prescribed answers of T-TX-1, T-TX-2, T-TX-4 and T-TX-5. -/
theorem test_witness_answers (answers : List Bool) : ({ armed with env := { armed.env with answerScript := answers } } : State).seq = .idle ∧
    ({ armed with env := { armed.env with answerScript := answers } } : State).env.answerScript = answers ∧ (1 : Half) ≠ 0 ∧
    WellFormed (.uartTx 0 2 [1, 2]) := ⟨rfl, rfl, by decide, by decide⟩

theorem test_witness_ignores : RunInv armed ∧ RunInv (sending [.readyErr] [] .waitReady 0) :=
  ⟨runInv_idle (by decide) (fun _ => rfl) rfl rfl, by decide, fun _ => rfl, fun h => by (cases h),
    fun i rest h => by
      cases h
      exact ⟨rfl, rfl, rfl, .inr ⟨rfl, .inr (.inr (.inl ⟨.inl rfl, rfl, by decide⟩))⟩⟩⟩

/-- A delay at its two places, and one that cannot end. -/
theorem test_witness_delay :
    (under .dspStart (.delayDur .short :: .waitSample :: .delayTest .short :: [.pinSet .dio false]) armed).seq =
      .busy .dspStart (.delayDur .short :: .waitSample :: .delayTest .short :: [.pinSet .dio false]) ∧
    (under .dspStart (.delayTest .short :: [.pinSet .dio false]) { unarmed with wStart := 1000, wDur := 1 }).seq =
      .busy .dspStart (.delayTest .short :: [.pinSet .dio false]) ∧ unarmed.timerArmed = false ∧
    (1000 : Tick) - 1000 < 1 := ⟨rfl, rfl, rfl, by decide⟩

/-- Display commands that end. -/
theorem test_witness_dsp : (∃ t, Completes .dspStart armed t) ∧ (∃ t, Completes (.dspByte 0x40) armed t) ∧
    (∃ t, Completes .dspAck armed t) ∧ ∃ t, Completes .dspStop armed t := by
  have key : ∀ (i : Instr) (m : Micro) (ms : List Micro), planOf i armed = .ok (m :: ms) → CanEnd (m :: ms) →
      ∃ t, Completes i armed t := fun i m ms hp hc =>
    let ⟨u, hu, _⟩ := hc armed rfl
    ⟨_, (completes_idle rfl hp).mpr ⟨u, hu, rfl⟩⟩
  exact ⟨key _ _ _ rfl canEnd_startBody, key _ _ _ rfl (canEnd_byteBody 0x40), key _ _ _ rfl canEnd_ackBody,
    key _ _ _ rfl canEnd_stopBody⟩

/-- The last micro-steps of the framing primitives. -/
theorem test_witness_framing : (under .dspStart [.pinSet .dio false] armed).seq = .busy .dspStart [.pinSet .dio false] ∧
    (under (.dspByte 1) [.cntIncr] { armed with sbCnt := 7 }).seq = .busy (.dspByte 1) [.cntIncr] ∧
    (under (.dspByte 1) [.cntIncr] { armed with sbCnt := 7 }).sbCnt = 7 ∧
    (under .dspAck [.pinSet .clk false] armed).seq = .busy .dspAck [.pinSet .clk false] ∧
    (under .dspStop [.pinSet .dio true] armed).seq = .busy .dspStop [.pinSet .dio true] := ⟨rfl, rfl, rfl, rfl, rfl⟩

/-- A whole DSP.DIGITS that ends. -/
theorem test_witness_digits : ∃ t, Completes (.dspDigits 1 2 3 4 1) armed t := by
  have hp : planOf (.dspDigits 1 2 3 4 1) armed = .ok _ := digitsPlan_legal 3 1 2 3 4 true
  have hc := canEnd_threeTxn [Config.display.cmdData] (Config.display.cmdAddr :: frameBytes Config.display 1 2 3 4 true)
    [brightByte Config.display 3]
  have hm : txn [Config.display.cmdData] ++ txn (Config.display.cmdAddr :: frameBytes Config.display 1 2 3 4 true) ++
    txn [brightByte Config.display 3] ≠ [] := by simp [txn, startBody]
  revert hp hc hm
  generalize txn [Config.display.cmdData] ++ txn (Config.display.cmdAddr :: frameBytes Config.display 1 2 3 4 true) ++
    txn [brightByte Config.display 3] = ms
  intro hp hc hm
  obtain ⟨u, hu, -⟩ := hc armed rfl
  cases ms with
  | nil => exact absurd rfl hm
  | cons m ms => exact ⟨_, (completes_idle rfl hp).mpr ⟨u, hu, rfl⟩⟩

/-- Operands at both sides of every range. -/
theorem test_witness_ranges : (9 : Byte) < 10 ∧ (9 : Byte) ≤ 9 ∧ (1 : Byte) < 2 ∧ (1 : Byte) ≤ 1 ∧ (7 : Byte) < 8 ∧ (7 : Byte) ≤ 7 ∧
    (9999 : Half) < 10000 ∧ (9999 : Half) ≤ 9999 ∧ (99 : Byte) < 100 ∧ (99 : Byte) ≤ 99 := by decide

theorem test_witness_compositeEnd : (under (.dspBright 5) [.pinSet .dio true] armed).seq = .busy (.dspBright 5) [.pinSet .dio true] :=
  rfl

theorem test_witness_refusal : exec (.dspBright 8) armed = .next (refuse .brightnessOutOfRange armed) ∧
    (refuse .brightnessOutOfRange armed).refusals ≠ armed.refusals := ⟨rfl, by decide⟩

/-- States that meet the invariant and take a step: idle, and in the middle of a command of each unit, the last bit cell of a byte among
them; and one that is no position of its command. -/
theorem test_witness_invariant : RunInv unarmed ∧ step unarmed = .next unarmed ∧
    RunInv (under (.tickWait 3) [.waitTest] { unarmed with wDur := 3 }) ∧
    RunInv (under .dspStart [.pinSet .dio false] unarmed) ∧
    RunInv (under (.dspByte 0x40) [.cntIncr] { unarmed with sbCnt := 7 }) ∧
    ¬ RunInv (under .dspAck [.shiftSet 5] unarmed) ∧ RunInv (sending [.readyErr] [] .waitReady 0) :=
  ⟨runInv_idle (by decide) (fun _ => rfl) rfl rfl, rfl, runInv_under (by decide) (fun _ => rfl) ⟨.inr rfl, rfl, rfl⟩,
    runInv_under (by decide) (fun _ => rfl) (displayPosition_whole rfl (by decide) (by decide) (shaped_pinSet _ _ .nil)),
    runInv_under (by decide) (fun _ => rfl) ⟨rfl, by decide, .inr ⟨0x40, [.cntIncr], [], by decide, by decide, rfl, by decide,
      by decide, by decide⟩, by simp, by simp⟩, fun h => absurd (h.busy _ _ rfl).2.2.1 (by
        rintro (h | ⟨v, cell, after, -, -, -, h, -⟩)
        · revert h; decide
        · have := h.mem (List.mem_cons_self ..)
          simp [ackBody, delay] at this), test_witness_ignores.2⟩

/-- Each command with a next state, for the frames. -/
theorem test_witness_frames : RunInv armed ∧ see? (·.seq) (exec .tickNow armed) = some .idle ∧
    (see? (·.seq) (exec (.uartDiv 9600 72000000) armed)).isSome ∧ (see? (·.seq) (exec (.uartTx 1 1 [0x55]) armed)).isSome ∧
    (see? (·.seq) (exec .dspStart armed)).isSome ∧ (see? (·.seq) (exec (.dspByte 1) armed)).isSome ∧
    (see? (·.seq) (exec (.dspBright 5) armed)).isSome ∧ (see? (·.seq) (exec (.dspClock 1 2) armed)).isSome ∧
    (see? (·.seq) (exec (.dspCounter 42) armed)).isSome ∧ (see? (·.seq) (exec (.dspDigits 1 2 3 4 1) armed)).isSome :=
  ⟨runInv_idle (by decide) (fun _ => rfl) rfl rfl, rfl, rfl, rfl, rfl, rfl, rfl, rfl, rfl, rfl⟩

/-- The two stops: a command asked for while another is in progress, and a byte index outside `TXBUF` in a state no run reaches. -/
theorem test_witness_stops : (under .dspAck [.pinSet .clk false] armed).seq = .busy .dspAck [.pinSet .clk false] ∧
    exec .tickNow (under .dspAck [.pinSet .clk false] armed) = .refused .commandInProgress ∧
    exec (.uartTx 1 1 [0x55]) (under (.uartTx 1 1 [0x55]) [.txWrite, .txIdxIncr] armed) = .fault .txbufIndex := ⟨rfl, rfl, rfl⟩

theorem test_witness_run : (enterRun armed).seq = .idle ∧ (enterRun armed).host.oscReady = true ∧ (enterRun armed).host.queue = [] ∧
    (enterRun armed).host.phase = .runWait 0 ∧ (setPhase (.runTask 0 1 0) armed).host.phase = .runTask 0 1 0 :=
  ⟨rfl, rfl, rfl, rfl, rfl⟩

theorem test_witness_oscillator : ({ unarmed with host := { unarmed.host with oscReady := false } } : State).host.oscReady = false ∧
    unarmed.seq = .idle ∧ unarmed.timerArmed = false := ⟨rfl, rfl, rfl⟩

end Sys2Proof.Tests
end

section
/-! The scope statements (00_scope.md R5, R6, R8): that every step of a run has a next state, TMR's part of a step, and what a step
runs. First when a micro-step, a command and the fetch answer a next state; then the statements. -/

namespace Sys2Proof.Proofs.Scope

open Sys2Proof.Machine Sys2Proof.Safety

/-! ## Micro-steps and commands that answer a next state -/

/-- The write of a byte from `TXBUF` is the only micro-step that can fault (R51). -/
theorem runMicro_total {m : Micro} (hm : m ≠ .txWrite) (rest : List Micro) (s : State) :
    ∃ u r, runMicro m rest s = .ok (u, r) := by
  cases m
  case txWrite => exact absurd rfl hm
  case delayTest k =>
    by_cases he : elapsedAtLeast (now s) s.wStart s.wDur
    · exact ⟨_, _, if_pos he⟩
    · exact ⟨_, _, if_neg he⟩
  all_goals exact ⟨_, _, rfl⟩

theorem advance_total {ms : List Micro} (h : ∀ rest, ms ≠ .txWrite :: rest) (i : Instr) (s : State) :
    ∃ t, advance i ms s = .next t := by
  cases ms with
  | nil => exact ⟨_, rfl⟩
  | cons m rest =>
    obtain ⟨u, r, one⟩ := runMicro_total (m := m) (fun e => h rest (by rw [e])) rest s
    exact ⟨_, advance_ok one⟩

theorem framePlan_ne_txWrite {b d0 d1 d2 d3 : Byte} {c : Option Bool} {rest : List Micro} :
    framePlan b d0 d1 d2 d3 c ≠ .ok (.txWrite :: rest) := by
  intro h
  obtain ⟨m, ms, e, hm, -⟩ := framePlan_display h
  cases e
  cases hm

/-- No command begins with a byte write: UART.TX latches its operands first (R115), the others hold none. -/
theorem planOf_ne_txWrite (i : Instr) (s : State) (rest : List Micro) : planOf i s ≠ .ok (.txWrite :: rest) := by
  intro h
  cases i
  case uartDiv =>
    simp only [planOf, planUartDiv] at h
    split at h
    · cases h
    split at h
    · cases h
    split at h <;> cases h
  case dspDigits => exact framePlan_ne_txWrite h
  case dspBright =>
    simp only [planOf, planDspBright] at h
    split at h <;> cases h
  case dspCounter =>
    simp only [planOf, planDspCounter] at h
    split at h
    · cases h
    · exact framePlan_ne_txWrite h
  case dspClock =>
    obtain ⟨-, l, e, -⟩ := displayBody_clock h
    cases e
  all_goals cases h

/-- An idle FG accepts or refuses every command it is asked for (R8, R173). -/
theorem exec_idle_total {s : State} (h : s.seq = .idle) (i : Instr) : ∃ t, exec i s = .next t := by
  cases hp : planOf i s with
  | error r => exact ⟨_, exec_idle_error h hp⟩
  | ok ms =>
    rw [exec_idle_ok h hp]
    exact advance_total (fun rest e => planOf_ne_txWrite i s rest (by rw [hp, e])) i s

/-- A command that stands at one of its positions has a next micro-step; in UART.TX the index is within `TXBUF` there (R51). -/
theorem advance_position_total {i : Instr} {rest : List Micro} {s : State} (h : position i rest s) :
    ∃ t, advance i rest s = .next t := by
  cases hi : isDisplay i with
  | true =>
    obtain ⟨m, ms, u, r, rfl, one, -⟩ := display_step hi h
    exact ⟨_, advance_ok one⟩
  | false =>
    cases i <;> simp only [isDisplay, Bool.true_eq_false] at hi
    case tickStart =>
      obtain ⟨rfl | rfl, -⟩ := h <;> exact ⟨_, rfl⟩
    case tickNow => exact h.elim
    case tickWait =>
      obtain ⟨rfl | rfl, -⟩ := h <;> exact ⟨_, rfl⟩
    case uartDiv =>
      obtain ⟨m, f, -, -, rfl | ⟨rfl, -⟩, -⟩ := h <;> exact ⟨_, rfl⟩
    case uartTx =>
      obtain ⟨m, ms, u, r, rfl, one, -⟩ := tx_step h
      exact ⟨_, advance_ok one⟩

/-- A step of an idle FG has a next state, whatever the host does (R8). -/
theorem step_idle_total {s : State} (h : s.seq = .idle) : ∃ t, step s = .next t := by
  rcases step_idle h with ⟨g, hs⟩ | ⟨g, r, hs⟩ | ⟨g, i, bytes, rest, -, hs⟩
  · exact ⟨_, hs⟩
  · exact ⟨_, hs⟩
  · rw [hs]
    exact exec_idle_total (s := withHost g (tmr s)) ((tmr_seq s).trans h) i

/-! ## The command the host's queue brings to FG -/

theorem hostMove_queue {s : State} {bytes : List Byte} {q : List (List Byte)} (ho : s.host.oscReady = true)
    (hq : s.host.queue = bytes :: q) : hostMove s = .issue bytes (withHost { s.host with queue := q } s) := by
  simp [hostMove, ho, hq, withHost]

theorem keepRest_queue (rest : List Byte) (g : HostState) (q : List (List Byte)) (s : State) :
    keepRest rest (withHost { g with queue := q } s) =
      withHost { g with queue := if rest = [] then q else rest :: q } s := by
  cases rest <;> rfl

/-- What FG fetches when the host's next sequence decodes: the command, the bytes after it being the host's next sequence (R71). -/
theorem fetch_queue {s : State} {bytes rest : List Byte} {q : List (List Byte)} {i : Instr} (ho : s.host.oscReady = true)
    (hq : s.host.queue = bytes :: q) (hd : decode bytes = .ok (i, rest)) :
    fetch s = .run i (withHost { s.host with queue := if rest = [] then q else rest :: q } s) := by
  simp only [fetch, hostMove_queue ho hq, hd, keepRest_queue]

/-- An idle FG runs the command it fetches after TMR's steps (R6). -/
theorem step_fetch_run {s t : State} {i : Instr} (h : s.seq = .idle) (hf : fetch (tmr s) = .run i t) : step s = exec i t := by
  simp [step, h, hf]

/-! ## TMR's part of a step -/

/-- While armed, TMR takes the number it chose, and its record of choices moves on (R6). -/
theorem tmr_armed {s : State} (h : s.timerArmed = true) :
    tmr s = { tickN (ticksChosen s.env) s with env := choseTicks s.env } := by
  simp [tmr, tickN, h, ticks_eq]

/-- A prescribed number is the one chosen, and is used up. -/
theorem ticks_script {e : Environment} {n : Nat} {rest : List Nat} (h : e.tickScript = n :: rest) :
    ticksChosen e = n ∧ choseTicks e = { e with tickScript := rest } := by simp [ticksChosen, choseTicks, h]

/-! ## The statements -/

/-- Settles O51: FG idle or at a position of its command, by what `exec` answers there; and `step` asks `exec` for no command other
than the one in progress. -/
theorem everyStepHasANextState : Obligations.EveryStepHasANextState := by
  unfold Obligations.EveryStepHasANextState
  constructor
  · intro s inv
    cases hs : s.seq with
    | idle => exact step_idle_total hs
    | busy i rest =>
      have hb : (tmr s).seq = .busy i rest := (tmr_seq s).trans hs
      rw [step_busy hs, exec_busy hb]
      exact advance_position_total ((runInv_tmr inv).busy i rest hb)
  · intro s r
    cases hs : s.seq with
    | idle =>
      obtain ⟨t, ht⟩ := step_idle_total hs
      simp [ht]
    | busy i rest =>
      rw [step_busy hs, exec_busy ((tmr_seq s).trans hs)]
      exact advance_ne_refused i rest (tmr s) r

/-- Settles O11: some number of steps by `tmr_eq`, the prescribed one while armed, none otherwise. -/
theorem tmrTakesSomeNumberOfTicks : Obligations.TmrTakesSomeNumberOfTicks := by
  unfold Obligations.TmrTakesSomeNumberOfTicks
  refine fun s => ⟨tmr_eq s, fun n rest armed script => ?_, tmr_unarmed⟩
  obtain ⟨chosen, used⟩ := ticks_script script
  rw [tmr_armed armed, chosen, used]

/-- Settles O12: an idle FG runs what it fetches from the host's queue, a busy one the command in progress. -/
theorem stepRunsTheDecodedCommand : Obligations.StepRunsTheDecodedCommand := by
  unfold Obligations.StepRunsTheDecodedCommand
  refine ⟨fun s bytes q i rest idle ready queue decoded => ?_, fun s i rest => step_busy⟩
  have fetched := fetch_queue (s := tmr s) (by rw [tmr_host, ready]) (by rw [tmr_host, queue]) decoded
  rw [step_fetch_run idle fetched, tmr_host]
  rfl

end Sys2Proof.Proofs.Scope
end

section
/-! The state statements (10_state.md): the invariant of every run, the registers one command alone may write, and the log. First which
micro-steps a command is made of and what `exec` and `step` can then be; then the statements. -/

namespace Sys2Proof.Proofs.Registers

open Sys2Proof.Machine Sys2Proof.Safety

/-! ## The micro-steps a command is made of -/

/-- The micro-steps of UART.DIV: the three writes of the divisor registers (R113). -/
def divisorMicro : Micro → Bool
  | .brrMantSet _ => true
  | .brrFracSet _ => true
  | .brrSetMark => true
  | _ => false

/-- The micro-steps of UART.TX: its entry, its polls and its exit (R115 to R118). -/
def txMicro : Micro → Bool
  | .txTimeoutSet _ _ => true
  | .txLenSet _ => true
  | .txIdxZero => true
  | .txStartSample => true
  | .txEnterReady => true
  | .readyErr => true
  | .readyPoll => true
  | .txWrite => true
  | .txIdxIncr => true
  | .readyTime => true
  | .txEnterComplete => true
  | .completeErr => true
  | .completePoll => true
  | .completeTime => true
  | .resStatusSet _ => true
  | .txEnterIdle => true
  | _ => false

/-- The micro-steps command `i` is made of. -/
def OwnMicro (i : Instr) (m : Micro) : Prop :=
  match i with
  | .tickStart => m = .periodSet ∨ m = .tickZero ∨ m = .timerArm
  | .tickNow => m = .resTickLatch
  | .tickWait dur => m = .durSet dur ∨ m = .waitSample ∨ m = .waitTest
  | .uartDiv _ _ => divisorMicro m = true
  | .uartTx _ _ _ => txMicro m = true
  | .dspStart => displayMicro m = true
  | .dspByte _ => displayMicro m = true
  | .dspAck => displayMicro m = true
  | .dspStop => displayMicro m = true
  | .dspDigits _ _ _ _ _ => displayMicro m = true
  | .dspBright level => displayMicro m = true ∨ m = .brightSet level
  | .dspCounter _ => displayMicro m = true
  | .dspClock _ _ => displayMicro m = true ∨ m = .colonToggle

theorem ownMicro_display {i : Instr} (hi : isDisplay i = true) {m : Micro} (h : displayMicro m = true) : OwnMicro i m := by
  cases i <;> simp only [isDisplay, Bool.false_eq_true] at hi
  case dspBright => exact .inl h
  case dspClock => exact .inl h
  all_goals exact h

theorem ownMicro_timerArm {i : Instr} (h : OwnMicro i .timerArm) : i = .tickStart := by
  cases i
  case tickStart => rfl
  case tickWait => rcases h with h | h | h <;> cases h
  case dspBright => rcases h with h | h <;> cases h
  case dspClock => rcases h with h | h <;> cases h
  all_goals cases h

theorem ownMicro_divisor {i : Instr} {m : Micro} (h : OwnMicro i m) (hm : divisorMicro m = true) :
    ∃ baud clk, i = .uartDiv baud clk := by
  obtain ⟨notDisplay, notTx⟩ : displayMicro m = false ∧ txMicro m = false := by
    cases m
    case brrMantSet => exact ⟨rfl, rfl⟩
    case brrFracSet => exact ⟨rfl, rfl⟩
    case brrSetMark => exact ⟨rfl, rfl⟩
    all_goals cases hm
  cases i
  case uartDiv => exact ⟨_, _, rfl⟩
  case tickStart => rcases h with rfl | rfl | rfl <;> cases hm
  case tickNow => cases h; cases hm
  case tickWait => rcases h with rfl | rfl | rfl <;> cases hm
  case uartTx => cases notTx.symm.trans h
  case dspBright =>
    rcases h with h | rfl
    · cases notDisplay.symm.trans h
    · cases hm
  case dspClock =>
    rcases h with h | rfl
    · cases notDisplay.symm.trans h
    · cases hm
  all_goals cases notDisplay.symm.trans h

/-- What UART.DIV does when it is not refused: three writes, from a state in which `BRR_SET` is 0 (R113). -/
theorem planUartDiv_ok {baud clk : BitVec 32} {s : State} {ms : List Micro} (h : planUartDiv baud clk s = .ok ms) :
    s.brrSet = false ∧ ∃ m f, ms = [.brrMantSet m, .brrFracSet f, .brrSetMark] := by
  unfold planUartDiv at h
  split at h
  · cases h
  split at h
  · cases h
  · rename_i unset
    simp only at h
    split at h
    · cases h
    · cases h
      exact ⟨Bool.eq_false_iff.mpr unset, _, _, rfl⟩

/-- A display command begins with a micro-step of its own and goes on with pin writes, the bit loop and delays. -/
theorem planOf_display {i : Instr} (hi : isDisplay i = true) {s : State} {ms : List Micro} (h : planOf i s = .ok ms) :
    ∃ m rest, ms = m :: rest ∧ OwnMicro i m ∧ rest.all displayMicro = true := by
  cases i <;> simp only [isDisplay, Bool.false_eq_true] at hi
  case dspDigits => exact framePlan_display h
  case dspBright level =>
    simp only [planOf, planDspBright] at h
    split at h
    · cases h
    · cases h
      exact ⟨_, _, rfl, .inr rfl, txn_display _⟩
  case dspCounter =>
    simp only [planOf, planDspCounter] at h
    split at h
    · cases h
    · exact framePlan_display h
  case dspClock =>
    obtain ⟨⟨-, hd⟩, l, rfl, -⟩ := displayBody_clock h
    exact ⟨_, _, rfl, .inr rfl, hd⟩
  all_goals cases h; exact ⟨_, _, rfl, rfl, rfl⟩

/-- Every command begins with a micro-step of its own. -/
theorem planOf_own {i : Instr} {s : State} {ms : List Micro} (h : planOf i s = .ok ms) :
    ∃ m rest, ms = m :: rest ∧ OwnMicro i m := by
  cases hi : isDisplay i with
  | true =>
    obtain ⟨m, rest, e, own, -⟩ := planOf_display hi h
    exact ⟨m, rest, e, own⟩
  | false =>
    cases i <;> simp only [isDisplay, Bool.true_eq_false] at hi
    case tickStart => cases h; exact ⟨_, _, rfl, .inl rfl⟩
    case tickWait => cases h; exact ⟨_, _, rfl, .inl rfl⟩
    case uartDiv =>
      obtain ⟨-, m, f, rfl⟩ := planUartDiv_ok h
      exact ⟨_, _, rfl, rfl⟩
    all_goals cases h; exact ⟨_, _, rfl, rfl⟩

theorem txPosition_own {timeout : Tick} {len : Half} {data : List Byte} {m : Micro} {ms : List Micro} {s : State}
    (h : txPosition timeout len data (m :: ms) s) : txMicro m = true := by
  obtain ⟨-, -, -, h⟩ := h
  rcases h with ⟨e, -⟩ | ⟨-, ⟨e, -⟩ | ⟨e | e, -⟩ | ⟨e | e | e | e | e, -⟩ | ⟨e, -⟩ | ⟨e | e | e, -⟩ | ⟨⟨st, e | ⟨e, -⟩, -⟩, -⟩⟩ <;>
    (cases e; rfl)

/-- A command under way stands at a micro-step of its own. -/
theorem position_own {i : Instr} {rest : List Micro} {s : State} (h : position i rest s) :
    ∃ m ms, rest = m :: ms ∧ OwnMicro i m := by
  cases hi : isDisplay i with
  | true =>
    obtain ⟨m, ms, -, -, rfl, -, hm, -⟩ := display_step hi h
    exact ⟨m, ms, rfl, ownMicro_display hi hm⟩
  | false =>
    cases i <;> simp only [isDisplay, Bool.true_eq_false] at hi
    case tickStart =>
      obtain ⟨rfl | rfl, -⟩ := h
      · exact ⟨_, _, rfl, .inr (.inl rfl)⟩
      · exact ⟨_, _, rfl, .inr (.inr rfl)⟩
    case tickNow => exact h.elim
    case tickWait =>
      obtain ⟨rfl | rfl, -⟩ := h
      · exact ⟨_, _, rfl, .inr (.inl rfl)⟩
      · exact ⟨_, _, rfl, .inr (.inr rfl)⟩
    case uartDiv => obtain ⟨m, f, -, -, rfl | ⟨rfl, -⟩, -⟩ := h <;> exact ⟨_, _, rfl, rfl⟩
    case uartTx =>
      obtain ⟨m, ms, -, -, rfl, -⟩ := tx_step h
      exact ⟨m, ms, rfl, txPosition_own h⟩

/-! ## What `exec` and `step` can be -/

/-- Micro-step `m` of command `i` is the one FG takes in `s`, `ms` standing after it: the first of the command's plan, or the one at
which the command stands. -/
def Takes (i : Instr) (m : Micro) (ms : List Micro) (s : State) : Prop :=
  s.seq = .idle ∧ planOf i s = .ok (m :: ms) ∨ s.seq = .busy i (m :: ms) ∧ position i (m :: ms) s

theorem takes_own {i : Instr} {m : Micro} {ms : List Micro} {s : State} (h : Takes i m ms s) : OwnMicro i m := by
  rcases h with ⟨-, hp⟩ | ⟨-, hp⟩
  · obtain ⟨m', ms', e, own⟩ := planOf_own hp
    cases e
    exact own
  · obtain ⟨m', ms', e, own⟩ := position_own hp
    cases e
    exact own

/-- In a state that meets the invariant a command asked for is refused, or one of its micro-steps is taken. -/
theorem exec_takes {i : Instr} {s t : State} (inv : RunInv s) (h : exec i s = .next t) :
    (s.seq = .idle ∧ ∃ r, t = refuse r s) ∨
      ∃ m ms u r, Takes i m ms s ∧ runMicro m ms s = .ok (u, r) ∧ t = settle i u r := by
  rcases exec_next h with ⟨idle, r, -, e⟩ | ⟨idle, ms, hp, ha⟩ | ⟨rest, hs, ha⟩
  · exact .inl ⟨idle, r, e⟩
  · obtain ⟨m, ms, rfl, -⟩ := planOf_own hp
    obtain ⟨u, r, one, e⟩ := advance_next ha
    exact .inr ⟨m, ms, u, r, .inl ⟨idle, hp⟩, one, e⟩
  · have hp := inv.busy i rest hs
    obtain ⟨m, ms, rfl, -⟩ := position_own hp
    obtain ⟨u, r, one, e⟩ := advance_next ha
    exact .inr ⟨m, ms, u, r, .inr ⟨hs, hp⟩, one, e⟩

/-- The state FG finds in a step: TMR's steps taken, and the host's move made. -/
def found (g : HostState) (s : State) : State := withHost g (tmr s)

@[simp] theorem found_seq (g : HostState) (s : State) : (found g s).seq = s.seq := tmr_seq s
@[simp] theorem found_timerArmed (g : HostState) (s : State) : (found g s).timerArmed = s.timerArmed := tmr_timerArmed s
@[simp] theorem found_brrMant (g : HostState) (s : State) : (found g s).brrMant = s.brrMant := tmr_brrMant s
@[simp] theorem found_brrFrac (g : HostState) (s : State) : (found g s).brrFrac = s.brrFrac := tmr_brrFrac s
@[simp] theorem found_brrSet (g : HostState) (s : State) : (found g s).brrSet = s.brrSet := tmr_brrSet s

theorem found_log (g : HostState) (s : State) : s.log <+: (found g s).log := by
  obtain ⟨n, e, ht⟩ := tmr_eq s
  simp [found, withHost, ht, tickN_eq]

theorem runInv_found {s : State} (g : HostState) (inv : RunInv s) : RunInv (found g s) where
  bright := (runInv_tmr inv).bright
  period := (runInv_tmr inv).period
  idle := (runInv_tmr inv).idle
  busy i rest hs := by
    have hp := (runInv_tmr inv).busy i rest hs
    cases i <;> exact hp

/-- A step leaves FG as it finds it, refuses a sequence, or is one `exec`, of a well-formed command where it begins one. -/
theorem step_found {s t : State} (h : step s = .next t) :
    ∃ g, s.seq = .idle ∧ (t = found g s ∨ ∃ r, t = refuse r (found g s)) ∨
      ∃ i, exec i (found g s) = .next t ∧ (s.seq = .idle → WellFormed i) := by
  cases hs : s.seq with
  | idle =>
    rcases step_idle hs with ⟨g, e⟩ | ⟨g, r, e⟩ | ⟨g, i, bytes, rest, hd, e⟩
    · rw [h] at e
      cases e
      exact ⟨g, .inl ⟨rfl, .inl rfl⟩⟩
    · rw [h] at e
      cases e
      exact ⟨g, .inl ⟨rfl, .inr ⟨r, rfl⟩⟩⟩
    · exact ⟨g, .inr ⟨i, e.symm.trans h, fun _ => decode_wellFormed hd⟩⟩
  | busy i rest => exact ⟨(tmr s).host, .inr ⟨i, (step_busy hs).symm.trans h, fun e => nomatch e⟩⟩

@[simp] theorem settle_timerArmed (i : Instr) (u : State) (r : List Micro) : (settle i u r).timerArmed = u.timerArmed := by
  cases r <;> rfl

@[simp] theorem settle_brrMant (i : Instr) (u : State) (r : List Micro) : (settle i u r).brrMant = u.brrMant := by
  cases r <;> rfl

@[simp] theorem settle_brrFrac (i : Instr) (u : State) (r : List Micro) : (settle i u r).brrFrac = u.brrFrac := by
  cases r <;> rfl

@[simp] theorem settle_brrSet (i : Instr) (u : State) (r : List Micro) : (settle i u r).brrSet = u.brrSet := by
  cases r <;> rfl

@[simp] theorem settle_log (i : Instr) (u : State) (r : List Micro) : (settle i u r).log = u.log := by
  cases r <;> rfl

/-! ## Reset -/

/-- Settles O6, from the definition of the state after reset; `BRIGHT_RESET` is a number below 8. -/
theorem resetValues : Obligations.ResetValues := by
  unfold Obligations.ResetValues
  have hv : Config.brightReset.val < 8 := Config.brightReset.isLt
  have hb : (BitVec.ofNat 8 Config.brightReset.val).toNat = Config.brightReset.val := by
    rw [BitVec.toNat_ofNat]
    omega
  refine ⟨rfl, rfl, rfl, rfl, rfl, hb, ?_, rfl⟩
  show BitVec.ofNat 8 Config.brightReset.val ≤ 7
  rw [BitVec.le_def, hb]
  exact Nat.le_of_lt_succ hv

/-! ## The invariant -/

/-- What a micro-step of command `i` must leave, with `r` to come after it, for the invariant to hold then. -/
structure Kept (i : Instr) (r : List Micro) (u : State) : Prop where
  bright : u.bright ≤ 7
  period : u.timerArmed = true → u.timerPeriod = .p1ms
  going : r ≠ [] → position i r u
  ended : r = [] → u.txState = .idle

theorem position_withSeq {i : Instr} {r : List Micro} {u : State} (h : position i r u) (q : Seq) : position i r (withSeq q u) := by
  cases i <;> exact h

theorem runInv_settle {i : Instr} {r : List Micro} {u : State} (h : Kept i r u) : RunInv (settle i u r) := by
  cases r with
  | nil => exact ⟨h.bright, h.period, fun _ => h.ended rfl, fun _ _ e => by cases e⟩
  | cons m ms =>
    refine ⟨h.bright, h.period, fun e => (by cases e), fun j rest e => ?_⟩
    cases e
    exact position_withSeq (h.going (List.cons_ne_nil m ms)) _

theorem runInv_refuse {s : State} (inv : RunInv s) (idle : s.seq = .idle) (r : RefusalReason) : RunInv (refuse r s) :=
  ⟨inv.bright, inv.period, fun _ => inv.idle idle, fun _ _ e => by cases e⟩

/-- From a position of its command FG's micro-step leads to a position of it or to its end (R22). -/
theorem kept_next {i : Instr} {rest : List Micro} {s : State} (inv : RunInv s) (hp : position i rest s) :
    ∃ m ms u r, rest = m :: ms ∧ runMicro m ms s = .ok (u, r) ∧ Kept i r u := by
  cases hi : isDisplay i with
  | true =>
    obtain ⟨m, ms, u, r, e, one, hm, hms, htx, going⟩ := display_step hi hp
    have frame := (runMicro_display_frame hm hms one).2.1
    refine ⟨m, ms, u, r, e, one, ?_, ?_, going, fun _ => ?_⟩
    · rw [frame]; exact inv.bright
    · rw [frame]; exact inv.period
    · rw [frame]; exact htx
  | false =>
    cases i <;> simp only [isDisplay, Bool.true_eq_false] at hi
    case tickStart =>
      obtain ⟨rfl | rfl, configured, htx⟩ := hp
      · exact ⟨_, _, _, _, rfl, rfl, inv.bright, inv.period, fun _ => ⟨.inr rfl, configured, htx⟩, fun _ => htx⟩
      · exact ⟨_, _, _, _, rfl, rfl, inv.bright, fun _ => configured, fun h => absurd rfl h, fun _ => htx⟩
    case tickNow => exact hp.elim
    case tickWait dur =>
      obtain ⟨rfl | rfl, hd, htx⟩ := hp
      · exact ⟨_, _, _, _, rfl, rfl, inv.bright, inv.period, fun _ => ⟨.inr rfl, hd, htx⟩, fun _ => htx⟩
      · refine ⟨_, _, _, _, rfl, rfl, inv.bright, inv.period, fun h => ⟨.inr ?_, hd, htx⟩, fun _ => htx⟩
        split at h
        · exact absurd rfl h
        · rename_i waiting
          rw [if_neg waiting]
    case uartDiv baud clk =>
      obtain ⟨m, f, plan, hm, rfl | ⟨rfl, hf⟩, htx⟩ := hp
      · exact ⟨_, _, _, _, rfl, rfl, inv.bright, inv.period, fun _ => ⟨m, f, plan, hm, .inr ⟨rfl, rfl⟩, htx⟩, fun _ => htx⟩
      · exact ⟨_, _, _, _, rfl, rfl, inv.bright, inv.period, fun h => absurd rfl h, fun _ => htx⟩
    case uartTx =>
      obtain ⟨m, ms, u, r, e, one, going, ended, hb, ha, ht⟩ := tx_step hp
      exact ⟨m, ms, u, r, e, one, hb ▸ inv.bright, by rw [ha, ht]; exact inv.period, going, ended⟩

/-- After a write that begins a display command it stands at what follows. -/
theorem displayPosition_afterWrite {m : Micro} {l : List Micro} {u : State}
    (hm : (∃ p v, m = .pinSet p v) ∨ (∃ v, m = .brightSet v) ∨ m = .colonToggle) (hb : Shaped (m :: l)) (hl : l ≠ [])
    (htx : u.txState = .idle) : displayPosition (m :: l) l u := by
  refine displayPosition_whole htx hl List.suffix_rfl ?_
  cases hb with
  | write _ h => exact h
  | delay => simp at hm
  | byte => simp at hm

/-- The first micro-step of a display command that begins with a pin write; `BRIGHT`, which its plan may read, is as it was (R141). -/
theorem kept_pinSet {i : Instr} {p : Pin} {v : Bool} {l : List Micro} {s : State} (inv : RunInv s) (htx : s.txState = .idle)
    (hb : Shaped (.pinSet p v :: l)) (hl : l ≠ [])
    (pos : ∀ u : State, u.bright = s.bright → displayPosition (.pinSet p v :: l) l u → position i l u) :
    ∃ m ms u r, Micro.pinSet p v :: l = m :: ms ∧ runMicro m ms s = .ok (u, r) ∧ Kept i r u := by
  refine ⟨_, _, setPin p v s, l, rfl, rfl, ?_⟩
  cases p <;> exact ⟨inv.bright, inv.period,
    fun _ => pos _ rfl (displayPosition_afterWrite (.inl ⟨_, _, rfl⟩) hb hl htx), fun _ => htx⟩

theorem framePlan_begins {b d0 d1 d2 d3 : Byte} {c : Option Bool} {ms : List Micro} (h : framePlan b d0 d1 d2 d3 c = .ok ms) :
    ∃ l, ms = .pinSet .clk true :: l ∧ l ≠ [] := by
  unfold framePlan at h
  split at h
  · split at h
    · cases h
      exact ⟨_, rfl, List.cons_ne_nil _ _⟩
    · cases h
  · cases h

/-- The first micro-step of a display command leads to its first position (R131 to R134, R140 to R147). -/
theorem kept_first_display {i : Instr} (hi : isDisplay i = true) {ms : List Micro} {s : State} (inv : RunInv s)
    (htx : s.txState = .idle) (hp : planOf i s = .ok ms) :
    ∃ m rest u r, ms = m :: rest ∧ runMicro m rest s = .ok (u, r) ∧ Kept i r u := by
  cases i <;> simp only [isDisplay, Bool.false_eq_true] at hi
  case dspStart =>
    cases hp
    exact kept_pinSet inv htx shaped_startBody (List.cons_ne_nil _ _) fun _ _ h => h
  case dspByte v =>
    cases hp
    refine ⟨_, _, _, _, rfl, rfl, inv.bright, inv.period, fun _ => ⟨htx, List.cons_ne_nil _ _, .inl List.suffix_rfl, ?_, ?_⟩,
      fun _ => htx⟩
    · intro k l e
      rcases e with e | e <;> cases e
    · intro w l e suffix
      cases e
      cases suffix.eq_of_length rfl
      rfl
  case dspAck =>
    cases hp
    exact kept_pinSet inv htx shaped_ackBody (List.cons_ne_nil _ _) fun _ _ h => h
  case dspStop =>
    cases hp
    exact kept_pinSet inv htx shaped_stopBody (List.cons_ne_nil _ _) fun _ _ h => h
  case dspDigits =>
    obtain ⟨l, rfl, hl⟩ := framePlan_begins hp
    refine kept_pinSet inv htx (framePlan_shaped hp) hl fun u hb h => ⟨_, ?_, h⟩
    rw [planDspDigits, hb]
    exact hp
  case dspBright level =>
    simp only [planOf, planDspBright] at hp
    split at hp
    · cases hp
    · rename_i legal
      cases hp
      exact ⟨_, _, { s with bright := level }, _, rfl, rfl, BitVec.not_lt.mp legal, inv.period,
        fun hl => ⟨rfl, displayPosition_afterWrite (.inr (.inl ⟨_, rfl⟩)) (displayBody_bright level).1 hl htx⟩, fun _ => htx⟩
  case dspCounter value =>
    have body := (displayBody_counter hp).1.1
    obtain ⟨l, rfl, hl⟩ : ∃ l, ms = .pinSet .clk true :: l ∧ l ≠ [] := by
      simp only [planOf, planDspCounter] at hp
      split at hp
      · cases hp
      · exact framePlan_begins hp
    refine kept_pinSet inv htx body hl fun u hb h => ⟨_, ?_, h⟩
    rw [planDspCounter, hb]
    exact hp
  case dspClock =>
    obtain ⟨⟨body, -⟩, l, rfl, hl⟩ := displayBody_clock hp
    refine ⟨_, _, { s with colon := !s.colon }, _, rfl, rfl, inv.bright, inv.period, fun _ => ⟨_, ?_,
      displayPosition_afterWrite (.inr (.inr rfl)) body hl htx⟩, fun _ => htx⟩
    simp only [Bool.not_not]
    exact hp

/-- The first micro-step of a well-formed command leads to its first position, or to its end (R22). -/
theorem kept_first {i : Instr} {ms : List Micro} {s : State} (inv : RunInv s) (htx : s.txState = .idle) (wf : WellFormed i)
    (hp : planOf i s = .ok ms) : ∃ m rest u r, ms = m :: rest ∧ runMicro m rest s = .ok (u, r) ∧ Kept i r u := by
  cases hi : isDisplay i with
  | true => exact kept_first_display hi inv htx hp
  | false =>
    cases i <;> simp only [isDisplay, Bool.true_eq_false] at hi
    case tickStart =>
      cases hp
      exact ⟨_, _, _, _, rfl, rfl, inv.bright, fun _ => rfl, fun _ => ⟨.inl rfl, rfl, htx⟩, fun _ => htx⟩
    case tickNow =>
      cases hp
      exact ⟨_, _, _, _, rfl, rfl, inv.bright, inv.period, fun h => absurd rfl h, fun _ => htx⟩
    case tickWait dur =>
      cases hp
      exact ⟨_, _, _, _, rfl, rfl, inv.bright, inv.period, fun _ => ⟨.inl rfl, rfl, htx⟩, fun _ => htx⟩
    case uartDiv baud clk =>
      obtain ⟨-, m, f, rfl⟩ := planUartDiv_ok hp
      exact ⟨_, _, _, _, rfl, rfl, inv.bright, inv.period, fun _ => ⟨m, f, hp, rfl, .inl rfl, htx⟩, fun _ => htx⟩
    case uartTx timeout len data =>
      cases hp
      have length : data.length = len.toNat := by simpa [WellFormed, Instr.wellFormed] using wf
      exact ⟨_, _, _, _, rfl, rfl, inv.bright, inv.period, fun _ => ⟨length, rfl, rfl, .inl ⟨rfl, htx⟩⟩, fun _ => htx⟩

/-- One call of `exec` keeps the invariant; a command it begins is a well-formed one. -/
theorem runInv_exec {i : Instr} {s t : State} (inv : RunInv s) (wf : s.seq = .idle → WellFormed i) (h : exec i s = .next t) :
    RunInv t := by
  rcases exec_next h with ⟨idle, r, -, rfl⟩ | ⟨idle, ms, hp, ha⟩ | ⟨rest, hs, ha⟩
  · exact runInv_refuse inv idle r
  · obtain ⟨m, rest, u, r, rfl, one, kept⟩ := kept_first inv (inv.idle idle) (wf idle) hp
    rw [advance_ok one] at ha
    cases ha
    exact runInv_settle kept
  · obtain ⟨m, ms, u, r, rfl, one, kept⟩ := kept_next inv (inv.busy i rest hs)
    rw [advance_ok one] at ha
    cases ha
    exact runInv_settle kept

/-- Settles O50: TMR and the host write none of the registers the invariant speaks of, and each micro-step leads from one position of
its command to another or to its end. -/
theorem stepKeepsInv : Obligations.StepKeepsInv := by
  unfold Obligations.StepKeepsInv
  intro s t inv h
  obtain ⟨g, ⟨idle, rfl | ⟨r, rfl⟩⟩ | ⟨i, run, wf⟩⟩ := step_found h
  · exact runInv_found g inv
  · exact runInv_refuse (runInv_found g inv) ((found_seq g s).trans idle) r
  · exact runInv_exec (runInv_found g inv) (fun idle => wf ((found_seq g s).symm.trans idle)) run

/-! ## The timer's arming -/

theorem runMicro_timerArmed {m : Micro} {rest r : List Micro} {s u : State} (h : runMicro m rest s = .ok (u, r)) :
    u.timerArmed = true ↔ s.timerArmed = true ∨ m = .timerArm := by
  cases m
  case delayTest k =>
    simp only [runMicro] at h
    split at h <;> (cases h; simp)
  case txWrite =>
    simp only [runMicro] at h
    split at h <;> cases h
    simp
  case pinSet p v => cases p <;> (cases h; simp)
  all_goals cases h; simp

/-- The arming micro-step is taken at the last position of TICK.START and nowhere else (R100). -/
theorem takes_timerArm {i : Instr} {m : Micro} {ms : List Micro} {s : State} (h : Takes i m ms s) :
    m = .timerArm ↔ s.seq = .busy .tickStart [.timerArm] := by
  constructor
  · rintro rfl
    cases ownMicro_timerArm (takes_own h)
    rcases h with ⟨-, hp⟩ | ⟨hs, e | e, -⟩
    · cases hp
    · cases e
    · rw [hs, e]
  · intro hs
    rcases h with ⟨idle, -⟩ | ⟨hs', -⟩
    · cases hs.symm.trans idle
    · cases hs.symm.trans hs'
      rfl

theorem exec_timerArmed {i : Instr} {s t : State} (inv : RunInv s) (h : exec i s = .next t) :
    t.timerArmed = true ↔ s.timerArmed = true ∨ s.seq = .busy .tickStart [.timerArm] := by
  rcases exec_takes inv h with ⟨idle, r, rfl⟩ | ⟨m, ms, u, r, takes, one, rfl⟩
  · simp [idle]
  · rw [settle_timerArmed, runMicro_timerArmed one, takes_timerArm takes]

/-- Settles O7: `timerArm` alone writes `TIMER_ARMED`, and only TICK.START has it, as its last micro-step. -/
theorem onlyTickStartArms : Obligations.OnlyTickStartArms := by
  unfold Obligations.OnlyTickStartArms
  refine ⟨rfl, fun s t inv h => ?_⟩
  obtain ⟨g, ⟨idle, rfl | ⟨r, rfl⟩⟩ | ⟨i, run, -⟩⟩ := step_found h
  · simp [idle]
  · simp [idle]
  · simpa using exec_timerArmed (runInv_found g inv) run

/-! ## The divisor registers -/

/-- Other values in the divisor registers. -/
def withDivisor (m : BitVec 12) (f : BitVec 4) (b : Bool) (s : State) : State := { s with brrMant := m, brrFrac := f, brrSet := b }

/-- Only the micro-steps of UART.DIV read or write the divisor registers (R27). -/
theorem runMicro_withDivisor {x : Micro} (hx : divisorMicro x = false) (m : BitVec 12) (f : BitVec 4) (b : Bool) (rest : List Micro)
    (s : State) :
    runMicro x rest (withDivisor m f b s) = (runMicro x rest s).map fun p => (withDivisor m f b p.1, p.2) := by
  cases x
  case brrMantSet => cases hx
  case brrFracSet => cases hx
  case brrSetMark => cases hx
  case delayTest k =>
    by_cases he : elapsedAtLeast (now s) s.wStart s.wDur
    · rw [runMicro, runMicro, if_pos he]
      exact if_pos he
    · rw [runMicro, runMicro, if_neg he]
      exact if_neg he
  case txWrite =>
    simp only [runMicro, withDivisor]
    cases s.txbuf[s.txIdx.toNat]? <;> rfl
  case pinSet p v => cases p <;> rfl
  all_goals rfl

theorem runMicro_divisor_frame {x : Micro} (hx : divisorMicro x = false) {rest r : List Micro} {s u : State}
    (h : runMicro x rest s = .ok (u, r)) : u.brrMant = s.brrMant ∧ u.brrFrac = s.brrFrac ∧ u.brrSet = s.brrSet := by
  have same : runMicro x rest s = .ok (withDivisor s.brrMant s.brrFrac s.brrSet u, r) := by
    have := runMicro_withDivisor hx s.brrMant s.brrFrac s.brrSet rest s
    rwa [h] at this
  have e : u = withDivisor s.brrMant s.brrFrac s.brrSet u := by
    rw [h] at same
    injection same with same
    injection same
  rw [e]
  exact ⟨rfl, rfl, rfl⟩

/-- A micro-step of UART.DIV finds `BRR_SET` at 0, and the last one alone raises it (R28, R113). -/
theorem takes_divisor {i : Instr} {x : Micro} {ms r : List Micro} {s u : State} (h : Takes i x ms s) (hx : divisorMicro x = true)
    (one : runMicro x ms s = .ok (u, r)) :
    s.brrSet = false ∧ (u.brrSet = true ↔ ∃ baud clk, s.seq = .busy (.uartDiv baud clk) [.brrSetMark]) := by
  obtain ⟨baud, clk, rfl⟩ := ownMicro_divisor (takes_own h) hx
  rcases h with ⟨idle, hp⟩ | ⟨hs, m, f, plan, -, e | ⟨e, -⟩, -⟩
  · obtain ⟨unset, m, f, e⟩ := planUartDiv_ok hp
    cases e
    cases one
    exact ⟨unset, by simp [unset, idle]⟩
  · have unset := (planUartDiv_ok plan).1
    cases e
    cases one
    exact ⟨unset, by simp [unset, hs]⟩
  · cases e
    cases one
    exact ⟨(planUartDiv_ok plan).1, by simp [hs]⟩

/-- A micro-step of any other command is not the end of a UART.DIV. -/
theorem takes_not_divisor {i : Instr} {x : Micro} {ms : List Micro} {s : State} (h : Takes i x ms s) (hx : divisorMicro x = false) :
    ¬ ∃ baud clk, s.seq = .busy (.uartDiv baud clk) [.brrSetMark] := by
  rintro ⟨baud, clk, hs⟩
  rcases h with ⟨idle, -⟩ | ⟨hs', -⟩
  · cases hs.symm.trans idle
  · cases hs.symm.trans hs'
    cases hx

theorem exec_divisor {i : Instr} {s t : State} (inv : RunInv s) (h : exec i s = .next t) :
    (t.brrSet = true ↔ s.brrSet = true ∨ ∃ baud clk, s.seq = .busy (.uartDiv baud clk) [.brrSetMark]) ∧
      (s.brrSet = true → t.brrMant = s.brrMant ∧ t.brrFrac = s.brrFrac) := by
  rcases exec_takes inv h with ⟨idle, r, rfl⟩ | ⟨x, ms, u, r, takes, one, rfl⟩
  · simp [idle]
  · cases hx : divisorMicro x with
    | true =>
      obtain ⟨unset, raised⟩ := takes_divisor takes hx one
      simp [unset, raised]
    | false =>
      obtain ⟨mant, frac, set⟩ := runMicro_divisor_frame hx one
      simp only [settle_brrSet, settle_brrMant, settle_brrFrac, mant, frac, set, takes_not_divisor takes hx, or_false, and_self,
        implies_true]

/-- Settles O23: only UART.DIV's micro-steps write the divisor registers, and they are taken while `BRR_SET` is 0. -/
theorem divisorIsWriteOnce : Obligations.DivisorIsWriteOnce := by
  unfold Obligations.DivisorIsWriteOnce
  refine ⟨rfl, fun s t inv h => ?_⟩
  obtain ⟨g, ⟨idle, rfl | ⟨r, rfl⟩⟩ | ⟨i, run, -⟩⟩ := step_found h
  · simp [idle]
  · simp [idle]
  · simpa using exec_divisor (runInv_found g inv) run

theorem settle_withDivisor (i : Instr) (m : BitVec 12) (f : BitVec 4) (b : Bool) (u : State) (r : List Micro) :
    settle i (withDivisor m f b u) r = withDivisor m f b (settle i u r) := by
  cases r with
  | nil => cases i <;> rfl
  | cons => rfl

/-- Settles O33: UART.TX latches its operands, or stands at one of its positions, where no micro-step is UART.DIV's; with another command
in progress both states answer the same stop. -/
theorem transmitIgnoresTheDivisor : Obligations.TransmitIgnoresTheDivisor := by
  unfold Obligations.TransmitIgnoresTheDivisor
  intro timeout len data s m f b inv
  change exec _ (withDivisor m f b s) = _
  cases hs : s.seq with
  | idle =>
    rw [exec_idle_first hs rfl rfl, exec_idle_first (s := withDivisor m f b s) hs rfl rfl]
    rfl
  | busy j rest =>
    by_cases hj : j = .uartTx timeout len data
    · subst hj
      have hp := inv.busy _ _ hs
      obtain ⟨x, ms, u, r, rfl, one, -⟩ := tx_step hp
      have hx : divisorMicro x = false := Bool.eq_false_iff.mpr fun h => by
        obtain ⟨_, _, e⟩ := ownMicro_divisor (i := .uartTx timeout len data) (txPosition_own hp) h
        cases e
      have two : runMicro x ms (withDivisor m f b s) = .ok (withDivisor m f b u, r) := by
        rw [runMicro_withDivisor hx, one]
        rfl
      rw [exec_busy hs, advance_ok one, exec_busy (s := withDivisor m f b s) hs, advance_ok two, settle_withDivisor]
      rfl
    · rw [exec_busy_other hs hj, exec_busy_other (s := withDivisor m f b s) hs hj]

/-! ## The log -/

theorem runMicro_log {m : Micro} {rest r : List Micro} {s u : State} (h : runMicro m rest s = .ok (u, r)) : s.log <+: u.log := by
  cases m
  case delayTest k =>
    simp only [runMicro] at h
    split at h <;> (cases h; simp)
  case txWrite =>
    simp only [runMicro] at h
    split at h <;> cases h
    simp
  case pinSet p v => cases p <;> (cases h; simp)
  all_goals cases h; simp

theorem advance_log {i : Instr} {ms : List Micro} {s t : State} (h : advance i ms s = .next t) : s.log <+: t.log := by
  cases ms with
  | nil =>
    cases h
    exact List.prefix_rfl
  | cons m rest =>
    obtain ⟨u, r, one, rfl⟩ := advance_next h
    rw [settle_log]
    exact runMicro_log one

theorem exec_log {i : Instr} {s t : State} (h : exec i s = .next t) : s.log <+: t.log := by
  rcases exec_next h with ⟨-, r, -, rfl⟩ | ⟨-, ms, -, ha⟩ | ⟨rest, -, ha⟩
  · exact List.prefix_rfl
  · exact advance_log ha
  · exact advance_log ha

/-- Settles O53: TMR, the host and each micro-step leave `LOG` or append to it. -/
theorem logOnlyGrows : Obligations.LogOnlyGrows := by
  unfold Obligations.LogOnlyGrows
  intro s t h
  obtain ⟨g, ⟨-, rfl | ⟨r, rfl⟩⟩ | ⟨i, run, -⟩⟩ := step_found h
  · exact found_log g s
  · exact found_log g s
  · exact (found_log g s).trans (exec_log run)

/-! ## The display commands' frame -/

/-- What a micro-step of display command `i` may change: its own registers, SEQ and the mark, one event more, `BRIGHT` in DSP.BRIGHT
only and `COLON` in DSP.CLOCK only (R33, R34). -/
def DisplayFrame (i : Instr) (s t : State) : Prop :=
  t = { s with
    pinClk := t.pinClk, pinDio := t.pinDio, sbShift := t.sbShift, sbCnt := t.sbCnt, wStart := t.wStart, wDur := t.wDur
    log := t.log, seq := t.seq, refusals := t.refusals, bright := t.bright, colon := t.colon } ∧
  (t.log = s.log ∨ (∃ p b, t.log = s.log ++ [.pin p b]) ∨ ∃ k, t.log = s.log ++ [.wait k]) ∧
  ((∀ level, i ≠ .dspBright level) → t.bright = s.bright) ∧
  ((∀ hours minutes, i ≠ .dspClock hours minutes) → t.colon = s.colon)

/-- A display command's own micro-steps beside those all of them have: DSP.BRIGHT's store and DSP.CLOCK's toggle. -/
theorem ownMicro_display_cases {i : Instr} (hi : isDisplay i = true) {m : Micro} (h : OwnMicro i m) :
    displayMicro m = true ∨ (∃ level, i = .dspBright level ∧ m = .brightSet level) ∨
      ∃ hours minutes, i = .dspClock hours minutes ∧ m = .colonToggle := by
  cases i <;> simp only [isDisplay, Bool.false_eq_true] at hi
  case dspBright level => exact h.imp_right fun e => .inl ⟨level, rfl, e⟩
  case dspClock hours minutes => exact h.imp_right fun e => .inr ⟨hours, minutes, rfl, e⟩
  all_goals exact .inl h

theorem displayFrame_runMicro {i : Instr} (hi : isDisplay i = true) {m : Micro} (own : OwnMicro i m) {rest r : List Micro}
    (hr : rest.all displayMicro = true) {s u : State} (h : runMicro m rest s = .ok (u, r)) : DisplayFrame i s u := by
  rcases ownMicro_display_cases hi own with hm | ⟨level, rfl, rfl⟩ | ⟨hours, minutes, rfl, rfl⟩
  · obtain ⟨-, frame, events⟩ := runMicro_display_frame hm hr h
    refine ⟨?_, events, fun _ => by rw [frame], fun _ => by rw [frame]⟩
    rw [frame]
  · cases h
    exact ⟨rfl, .inl rfl, fun other => absurd rfl (other level), fun _ => rfl⟩
  · cases h
    exact ⟨rfl, .inl rfl, fun _ => rfl, fun other => absurd rfl (other hours minutes)⟩

theorem displayFrame_withSeq {i : Instr} {s u : State} (h : DisplayFrame i s u) (q : Seq) : DisplayFrame i s (withSeq q u) := by
  obtain ⟨frame, events, bright, colon⟩ := h
  exact ⟨congrArg (withSeq q) frame, events, bright, colon⟩

theorem response_display {i : Instr} (hi : isDisplay i = true) (u : State) : response i u = [] := by
  cases i <;> simp only [isDisplay, Bool.false_eq_true] at hi
  all_goals rfl

/-- A display command delivers nothing: its end moves SEQ alone (R83). -/
theorem settle_display {i : Instr} (hi : isDisplay i = true) (u : State) (r : List Micro) :
    settle i u r = withSeq (settle i u r).seq u := by
  cases r with
  | nil => exact complete_silent (response_display hi u)
  | cons => rfl

theorem takes_display_tail {i : Instr} (hi : isDisplay i = true) {m : Micro} {ms : List Micro} {s : State} (h : Takes i m ms s) :
    ms.all displayMicro = true := by
  rcases h with ⟨-, hp⟩ | ⟨-, hp⟩
  · obtain ⟨m', ms', e, -, tail⟩ := planOf_display hi hp
    cases e
    exact tail
  · obtain ⟨m', ms', u, r, e, -, -, tail, -⟩ := display_step hi hp
    cases e
    exact tail

theorem displayFrame_exec {i : Instr} (hi : isDisplay i = true) {s t : State} (inv : RunInv s) (h : exec i s = .next t) :
    DisplayFrame i s t := by
  rcases exec_takes inv h with ⟨-, r, rfl⟩ | ⟨m, ms, u, r, takes, one, rfl⟩
  · exact ⟨rfl, .inl rfl, fun _ => rfl, fun _ => rfl⟩
  · rw [settle_display hi]
    exact displayFrame_withSeq (displayFrame_runMicro hi (takes_own takes) (takes_display_tail hi takes) one) _

/-- Settles O57: the frame of the one micro-step taken, by the display command it belongs to. -/
theorem displayCommandsFrame : Obligations.DisplayCommandsFrame := by
  unfold Obligations.DisplayCommandsFrame
  intro i v d0 d1 d2 d3 colon level hours minutes value s t inv h which
  have display : isDisplay i = true := by
    rcases which with rfl | rfl | rfl | rfl | rfl | rfl | rfl | rfl <;> rfl
  have isBright : ∀ l, i = .dspBright l → i = .dspBright level := by
    rcases which with rfl | rfl | rfl | rfl | rfl | rfl | rfl | rfl <;> simp
  have isClock : ∀ a b, i = .dspClock a b → i = .dspClock hours minutes := by
    rcases which with rfl | rfl | rfl | rfl | rfl | rfl | rfl | rfl <;> simp
  obtain ⟨frame, events, bright, colon⟩ := displayFrame_exec display inv h
  exact ⟨frame, events, fun other => bright fun l e => other (isBright l e), fun other => colon fun a b e => other (isClock a b e)⟩

end Sys2Proof.Proofs.Registers
end

section
/-! The statement on the byte order of operands (20_memory.md R54). An opcode byte hands the bytes after it to its own row; what each
row assembles from them is little-endian by `word_toNat` and `half_toNat`. -/

namespace Sys2Proof.Proofs.Memory

/-- After an opcode byte the decoder reads the operands of its row (R71, R73). -/
theorem decode_opcode (op : Opcode) (bs : List Byte) : decode (op.byte :: bs) = decodeOperands op bs := by
  rw [decode, ofByte_byte]

/-- The payload of a UART.TX is the `len` bytes after the fixed part, where there are as many (R70, R74). -/
theorem decodeOperands_uartTx {t0 t1 t2 t3 l0 l1 : Byte} {rest : List Byte} (enough : (half l0 l1).toNat ≤ rest.length) :
    decodeOperands .uartTx (t0 :: t1 :: t2 :: t3 :: l0 :: l1 :: rest) =
      .ok (.uartTx (word t0 t1 t2 t3) (half l0 l1) (rest.take (half l0 l1).toNat), rest.drop (half l0 l1).toNat) :=
  if_neg (Nat.not_lt.mpr enough)

/-- Settles O5: each row's operands are a `word` or a `half` of the bytes read, which are little-endian. -/
theorem operandsAreLittleEndian : Obligations.OperandsAreLittleEndian := by
  unfold Obligations.OperandsAreLittleEndian
  intro a0 a1 a2 a3 b0 b1 b2 b3 rest
  refine ⟨?tickWait, ?uartDiv, ?dspCounter, fun enough => ?uartTx⟩
  case tickWait => exact ⟨_, decode_opcode .tickWait _, word_toNat a0 a1 a2 a3⟩
  case uartDiv => exact ⟨_, _, decode_opcode .uartDiv _, word_toNat a0 a1 a2 a3, word_toNat b0 b1 b2 b3⟩
  case dspCounter => exact ⟨_, decode_opcode .dspCounter _, half_toNat a0 a1⟩
  case uartTx =>
    rw [← half_toNat] at enough
    exact ⟨_, _, (decode_opcode .uartTx _).trans (decodeOperands_uartTx enough), word_toNat a0 a1 a2 a3, half_toNat b0 b1⟩

end Sys2Proof.Proofs.Memory
end

section
/-! The encoding statements (30_encoding.md R70 to R76). Encoder and decoder invert each other: after an opcode byte both follow the
format of its row, and the operands of a row and their bytes determine each other. So no command's bytes begin another's, which is why a
command cut short is refused; and a refused sequence reaches FG as a mark and nothing else. -/

namespace Sys2Proof.Proofs.Encoding

open Sys2Proof.Machine Sys2Proof.Proofs.Scope Sys2Proof.Proofs.Memory

/-! ## Operands and their bytes -/

theorem wellFormed_uartTx_iff {timeout : Tick} {len : Half} {data : List Byte} :
    WellFormed (.uartTx timeout len data) ↔ data.length = len.toNat := beq_iff_eq

/-- The payload of a UART.TX ends where its `len` operand says, whatever follows (R70, R71). -/
theorem decodeOperands_encodeOperands_uartTx {timeout : Tick} {len : Half} {data : List Byte} (h : data.length = len.toNat)
    (tail : List Byte) :
    decodeOperands .uartTx (encodeOperands (.uartTx timeout len data) ++ tail) = .ok (.uartTx timeout len data, tail) := by
  have enough : (half (byteAt len 0) (byteAt len 1)).toNat ≤ (data ++ tail).length := by
    rw [half_bytes, List.length_append, h]
    exact Nat.le_add_right _ _
  have fixed := decodeOperands_uartTx (t0 := byteAt timeout 0) (t1 := byteAt timeout 1) (t2 := byteAt timeout 2)
    (t3 := byteAt timeout 3) enough
  rw [half_bytes, word_bytes, ← h, List.take_left, List.drop_left] at fixed
  exact fixed

/-- A row's operands are read back from their bytes (R70, R72). -/
theorem decodeOperands_encodeOperands {i : Instr} (wf : WellFormed i) (tail : List Byte) :
    decodeOperands i.opcode (encodeOperands i ++ tail) = .ok (i, tail) := by
  cases i
  case uartTx => exact decodeOperands_encodeOperands_uartTx (wellFormed_uartTx_iff.mp wf) tail
  case tickWait | uartDiv | dspCounter =>
    simp [Instr.opcode, decodeOperands, encodeOperands, wordBytes, halfBytes, word_bytes, half_bytes]
  all_goals rfl

/-- The bytes a row's operands were read from are their encoding (R70, R72). -/
theorem decodeOperands_ok {op : Opcode} {bs rest : List Byte} {i : Instr} (h : decodeOperands op bs = .ok (i, rest)) :
    i.opcode = op ∧ bs = encodeOperands i ++ rest := by
  cases op <;> simp only [decodeOperands] at h
  case tickStart | tickNow | dspStart | dspAck | dspStop =>
    cases h
    exact ⟨rfl, rfl⟩
  case uartTx =>
    split at h
    · split at h
      · cases h
      · cases h
        simp [Instr.opcode, encodeOperands, bytes_word, bytes_half]
    · cases h
  all_goals
    split at h
    · cases h
      simp [Instr.opcode, encodeOperands, bytes_word, bytes_half]
    · cases h

/-- A row has one reason to refuse the bytes after its opcode byte: there are too few (R74). -/
theorem decodeOperands_error {op : Opcode} {bs : List Byte} {r : RefusalReason} (h : decodeOperands op bs = .error r) :
    r = .truncated := by
  cases op <;> simp only [decodeOperands] at h
  case tickStart | tickNow | dspStart | dspAck | dspStop => cases h
  case uartTx =>
    split at h
    · split at h <;> cases h
      rfl
    · cases h
      rfl
  all_goals
    split at h <;> cases h
    rfl

/-! ## Commands and their bytes -/

theorem decode_encode_append {i : Instr} (wf : WellFormed i) (tail : List Byte) : decode (encode i ++ tail) = .ok (i, tail) :=
  (decode_opcode i.opcode _).trans (decodeOperands_encodeOperands wf tail)

theorem decode_encode {i : Instr} (wf : WellFormed i) : decode (encode i) = .ok (i, []) := by
  simpa using decode_encode_append wf []

theorem decode_ok {bytes rest : List Byte} {i : Instr} (h : decode bytes = .ok (i, rest)) : bytes = encode i ++ rest := by
  cases bytes with
  | nil => cases h
  | cons b bs =>
    cases hb : Opcode.ofByte b with
    | none => simp [decode, hb] at h
    | some op =>
      rw [ofByte_some hb, decode_opcode] at h
      obtain ⟨row, operands⟩ := decodeOperands_ok h
      rw [ofByte_some hb, ← row, operands]
      rfl

/-- A byte that is no row's opcode byte is reserved (R74). -/
theorem decode_reserved {b : Byte} (h : ∀ op : Opcode, b ≠ op.byte) (bs : List Byte) :
    decode (b :: bs) = .error .reservedOpcode := by
  have noRow : Opcode.ofByte b = none := Option.eq_none_iff_forall_ne_some.mpr fun op hb => h op (ofByte_some hb)
  rw [decode, noRow]

/-- No well-formed command's bytes begin with another command's: bytes that begin it and decode are all of it. -/
theorem eq_encode_of_decode_ok {i j : Instr} {p rest : List Byte} (wf : WellFormed i) (begins : p <+: encode i)
    (h : decode p = .ok (j, rest)) : p = encode i := by
  obtain ⟨t, whole⟩ := begins
  have both := decode_encode_append (decode_wellFormed h) (rest ++ t)
  rw [← List.append_assoc, ← decode_ok h, whole, decode_encode wf] at both
  have nothing : rest ++ t = [] := (congrArg Prod.snd (Except.ok.inj both)).symm
  rw [← whole, (List.append_eq_nil_iff.mp nothing).2, List.append_nil]

/-- Bytes that begin a command are refused only for being too few (R74). -/
theorem decode_begins_error {i : Instr} {p : List Byte} {r : RefusalReason} (ne : p ≠ []) (begins : p <+: encode i)
    (h : decode p = .error r) : r = .truncated := by
  cases p with
  | nil => exact absurd rfl ne
  | cons b bs =>
    obtain ⟨rfl, -⟩ := List.cons_prefix_cons.mp begins
    exact decodeOperands_error ((decode_opcode i.opcode bs).symm.trans h)

/-! ## A refused sequence at the command port -/

/-- What FG fetches when the decoder refuses the host's next sequence: the reason, the whole sequence being dropped (R74, log entry 5). -/
theorem fetch_queue_refused {s : State} {bytes : List Byte} {q : List (List Byte)} {r : RefusalReason} (ho : s.host.oscReady = true)
    (hq : s.host.queue = bytes :: q) (hd : decode bytes = .error r) :
    fetch s = .refused r (withHost { s.host with queue := q } s) := by
  simp only [fetch, hostMove_queue ho hq, hd]

/-- An idle FG marks the reason it fetches after TMR's steps (R173). -/
theorem step_fetch_refused {s t : State} {r : RefusalReason} (h : s.seq = .idle) (hf : fetch (tmr s) = .refused r t) :
    step s = .next (refuse r t) := by
  simp [step, h, hf]

/-- Refusing a sequence at an idle FG writes the host's record and the mark only (R173). -/
theorem refuse_withHost_tmr {s : State} (idle : s.seq = .idle) (r : RefusalReason) (g : HostState) :
    refuse r (withHost g (tmr s)) = { tmr s with host := g, refusals := s.refusals ++ [r] } := by
  rw [← tmr_refusals s, refuse, withHost, ← idle, ← tmr_seq s]

/-! ## The statements -/

/-- Settles O1: the opcode byte selects the command's own row, and the row reads its operands back. -/
theorem decodeOfEncode : Obligations.DecodeOfEncode := by
  unfold Obligations.DecodeOfEncode
  exact fun i tail wf => decode_encode_append wf tail

/-- Settles O2: the opcode byte read is its row's, and the operand bytes read are the encoding of what the row assembles. -/
theorem encodeOfDecode : Obligations.EncodeOfDecode := by
  unfold Obligations.EncodeOfDecode
  exact fun bytes i rest h => ⟨decode_wellFormed h, decode_ok h⟩

/-- Settles O4: a reserved byte is no row's; a command cut short cannot decode, as a command's bytes begin no other's; a
refused sequence is what an idle FG fetches. -/
theorem reservedAndTruncatedAreRefused : Obligations.ReservedAndTruncatedAreRefused := by
  unfold Obligations.ReservedAndTruncatedAreRefused
  refine ⟨fun b bs reserved => ?reserved, fun i p wf ne begins proper => ?truncated,
    fun s bytes q r idle ready queue refused => ?refused⟩
  case reserved =>
    refine decode_reserved (fun op hb => ?_) bs
    subst hb
    revert reserved
    cases op <;> decide
  case truncated =>
    cases h : decode p with
    | ok answer => exact absurd (eq_encode_of_decode_ok wf begins h) proper
    | error r => rw [decode_begins_error ne begins h]
  case refused =>
    have fetched := fetch_queue_refused (s := tmr s) (by rw [tmr_host, ready]) (by rw [tmr_host, queue]) refused
    rw [step_fetch_refused idle fetched, tmr_host, refuse_withHost_tmr idle]

/-- Settles O3: each sequence is its command's encoding, which decodes. -/
theorem writtenOutWordsDecode : Obligations.WrittenOutWordsDecode := by
  unfold Obligations.WrittenOutWordsDecode
  exact ⟨decode_encode (i := .tickStart) rfl, decode_encode (i := .tickNow) rfl, decode_encode (i := .tickWait 100) rfl,
    decode_encode (i := .uartDiv 115200 72000000) rfl, decode_encode (i := .uartTx 50 2 [0x48, 0x69]) rfl,
    decode_encode (i := .dspStart) rfl, decode_encode (i := .dspByte 0x40) rfl, decode_encode (i := .dspAck) rfl,
    decode_encode (i := .dspStop) rfl, decode_encode (i := .dspDigits 1 2 3 4 1) rfl, decode_encode (i := .dspBright 5) rfl,
    decode_encode (i := .dspCounter 1234) rfl, decode_encode (i := .dspClock 12 34) rfl⟩

end Sys2Proof.Proofs.Encoding
end

section
/-! The statements of unit TICK (40_tickclock.md). Two facts carry them. Between two states of a run that writes no 0 to `TICK`, the
counter moves on by the `OnTick` steps that `LOG` records (R104). And the sampling loop of TICK.WAIT, under any interleaving, is some
number of `OnTick` steps and a sample that finds the duration elapsed (R103). -/

namespace Sys2Proof.Proofs.TickClock

open Sys2Proof.Machine Sys2Proof.Safety Sys2Proof.Proofs.Scope Sys2Proof.Proofs.Registers

/-! ## TMR's steps -/

/-- TMR's last step can be set apart as well as its first (R101). -/
theorem ticks_succ (n : Nat) (s : State) : ticks (n + 1) s = onTick (ticks n s) := by
  induction n generalizing s with
  | zero => rfl
  | succ n ih => exact ih (onTick s)

theorem tickN_succ {s : State} (armed : s.timerArmed = true) (n : Nat) : tickN (n + 1) s = onTick (tickN n s) := by
  simp only [tickN, armed, if_true, ticks_succ]

/-- Two offers in a row are one offer of as many steps. -/
theorem tickN_tickN (m n : Nat) (s : State) : tickN n (tickN m s) = tickN (m + n) s := by
  cases armed : s.timerArmed with
  | false => rw [tickN_unarmed (by simpa using armed), tickN_unarmed armed, tickN_unarmed armed]
  | true =>
    induction n with
    | zero => exact tickN_zero _
    | succ n ih => rw [tickN_succ (by simpa using armed), ih, Nat.add_succ, tickN_succ armed]

/-- A prescribed number of steps moves `TICK` on by it and is used up. -/
theorem tmr_prescribed {s : State} {n : Nat} {l : List Nat} (armed : s.timerArmed = true) (script : s.env.tickScript = n :: l) :
    (tmr s).tick = s.tick + BitVec.ofNat 32 n ∧ (tmr s).env.tickScript = l := by
  obtain ⟨chosen, used⟩ := ticks_script script
  rw [tmr_armed armed, chosen, used]
  simp [tickN_eq, taken, armed]

@[simp] theorem tmr_wStart (s : State) : (tmr s).wStart = s.wStart := by
  obtain ⟨n, e, h⟩ := tmr_eq s
  simp [h]

/-! ## The elapsed-time law -/

/-- From `s` to `t` the log records `n` more `OnTick` steps, and `TICK` has moved on by as many (R104). -/
structure TicksBetween (n : Nat) (s t : State) : Prop where
  count : tickCount t.log = tickCount s.log + n
  tick : t.tick = s.tick + BitVec.ofNat 32 n

theorem ticksBetween_of_same {s t : State} (count : tickCount t.log = tickCount s.log) (tick : t.tick = s.tick) :
    TicksBetween 0 s t := ⟨count, by simp [tick]⟩

theorem ticksBetween_trans {m n : Nat} {s t u : State} (first : TicksBetween m s t) (second : TicksBetween n t u) :
    TicksBetween (m + n) s u where
  count := by rw [second.count, first.count, Nat.add_assoc]
  tick := by rw [second.tick, first.tick, BitVec.add_assoc, BitVec.ofNat_add]

/-- The wrapped difference of the two readings is the number of steps between them, modulo 2^32 (R104). -/
theorem ticksBetween_elapsed {n : Nat} {s t : State} (h : TicksBetween n s t) : (t.tick - s.tick).toNat = n % 2 ^ 32 := by
  rw [h.tick, BitVec.add_comm, BitVec.add_sub_cancel, BitVec.toNat_ofNat]

theorem ticksBetween_tickN (n : Nat) (s : State) : TicksBetween (taken n s) s (tickN n s) := by
  rw [tickN_eq]
  exact ⟨by simp [tickCount], rfl⟩

theorem ticksBetween_found (g : HostState) (s : State) : ∃ n, TicksBetween n s (found g s) := by
  obtain ⟨n, e, h⟩ := tmr_eq s
  obtain ⟨count, tick⟩ := ticksBetween_tickN n s
  exact ⟨taken n s, by simpa [found, withHost, h] using count, by simpa [found, withHost, h] using tick⟩

/-- FG appends no `Tick` event, and only the write of 0 changes `TICK` (R23, R40). -/
theorem ticksBetween_runMicro {m : Micro} (hm : m ≠ .tickZero) {rest r : List Micro} {s u : State}
    (one : runMicro m rest s = .ok (u, r)) : TicksBetween 0 s u := by
  have other (e : Event) (he : e ≠ .tick) : tickCount (s.log ++ [e]) = tickCount s.log := by simp [tickCount, he]
  refine runMicro_cases one (fun k _ _ e => ?ended) (fun k _ e => ?going) (fun b _ _ e => ?write) (fun noDelay noWrite => ?untested)
  case ended => exact e ▸ ticksBetween_of_same (other _ (by simp)) rfl
  case going => exact e ▸ ticksBetween_of_same rfl rfl
  case write => exact e ▸ ticksBetween_of_same (other _ (by simp)) rfl
  case untested =>
    cases m
    case tickZero => exact absurd rfl hm
    case delayTest k => exact absurd rfl (noDelay k)
    case txWrite => exact absurd rfl noWrite
    case pinSet p v => cases p <;> (cases one; exact ticksBetween_of_same (other _ (by simp)) rfl)
    case dioBit => cases one; exact ticksBetween_of_same (other _ (by simp)) rfl
    all_goals cases one; exact ticksBetween_of_same rfl rfl

@[simp] theorem settle_tick (i : Instr) (u : State) (r : List Micro) : (settle i u r).tick = u.tick := by
  cases r <;> rfl

theorem ticksBetween_advance {i : Instr} {ms : List Micro} (hm : ∀ rest, ms ≠ .tickZero :: rest) {s t : State}
    (h : advance i ms s = .next t) : TicksBetween 0 s t := by
  cases ms with
  | nil => cases h; exact ticksBetween_of_same rfl rfl
  | cons m rest =>
    obtain ⟨u, r, one, rfl⟩ := advance_next h
    obtain ⟨count, tick⟩ := ticksBetween_runMicro (fun e => hm rest (by rw [e])) one
    exact ⟨by rw [settle_log, count], by rw [settle_tick, tick]⟩

/-- No command begins with the write of 0: TICK.START sets the period first (R100, decision D25). -/
theorem planOf_ne_tickZero (i : Instr) (s : State) (rest : List Micro) : planOf i s ≠ .ok (.tickZero :: rest) := by
  intro h
  obtain ⟨m, ms, e, own⟩ := planOf_own h
  cases e
  cases i
  case tickStart => cases h
  case tickWait => rcases own with e | e | e <;> cases e
  case dspBright => rcases own with e | e <;> cases e
  case dspClock => rcases own with e | e <;> cases e
  all_goals cases own

theorem ticksBetween_exec {i : Instr} {s t : State} (nonzero : ¬ Zeroing s) (h : exec i s = .next t) : TicksBetween 0 s t := by
  rcases exec_next h with ⟨-, r, -, rfl⟩ | ⟨-, ms, hp, ha⟩ | ⟨ms, hs, ha⟩
  · exact ticksBetween_of_same rfl rfl
  · exact ticksBetween_advance (fun rest e => planOf_ne_tickZero i s rest (e ▸ hp)) ha
  · exact ticksBetween_advance (fun rest e => nonzero ⟨i, rest, e ▸ hs⟩) ha

theorem ticksBetween_step {s t : State} (nonzero : ¬ Zeroing s) (h : step s = .next t) : ∃ n, TicksBetween n s t := by
  obtain ⟨g, fg⟩ := step_found h
  obtain ⟨n, before⟩ := ticksBetween_found g s
  refine ⟨n, ticksBetween_trans (n := 0) before ?_⟩
  rcases fg with ⟨-, rfl | ⟨r, rfl⟩⟩ | ⟨i, run, -⟩
  · exact ticksBetween_of_same rfl rfl
  · exact ticksBetween_of_same rfl rfl
  · exact ticksBetween_exec (by simpa [Zeroing] using nonzero) run

theorem ticksBetween_run {run : Nat → State} {k : Nat}
    (steps : ∀ j, j < k → step (run j) = .next (run (j + 1)) ∧ ¬ Zeroing (run j)) : ∃ n, TicksBetween n (run 0) (run k) := by
  induction k with
  | zero => exact ⟨0, ticksBetween_of_same rfl rfl⟩
  | succ k ih =>
    obtain ⟨m, before⟩ := ih fun j hj => steps j (Nat.lt_succ_of_lt hj)
    obtain ⟨next, nonzero⟩ := steps k (Nat.lt_succ_self k)
    obtain ⟨n, last⟩ := ticksBetween_step nonzero next
    exact ⟨m + n, ticksBetween_trans before last⟩

/-- Settles O10: each step records the `OnTick` steps by which it moves `TICK` on, so a run does, by induction on its length. -/
theorem elapsedTimeLaw : Obligations.ElapsedTimeLaw := by
  unfold Obligations.ElapsedTimeLaw
  intro run k n steps count
  obtain ⟨m, between⟩ := ticksBetween_run steps
  obtain rfl : m = n := Nat.add_left_cancel (between.count.symm.trans count)
  have elapsed := ticksBetween_elapsed between
  exact ⟨elapsed, fun small => by rw [elapsed, Nat.mod_eq_of_lt small]⟩

/-! ## The sampling loop of TICK.WAIT -/

/-- The wait under way has lasted its duration, all unsigned (R103). -/
def Elapsed (u : State) : Prop := u.wDur.toNat ≤ (u.tick - u.wStart).toNat

theorem elapsedAtLeast_iff {u : State} : elapsedAtLeast (now u) u.wStart u.wDur = true ↔ Elapsed u := by
  simp [elapsedAtLeast, Elapsed, now, BitVec.le_def]

theorem runMicro_waitTest_elapsed {u : State} (h : Elapsed u) (rest : List Micro) : runMicro .waitTest rest u = .ok (u, rest) := by
  simp only [runMicro, if_pos (elapsedAtLeast_iff.mpr h)]

theorem runMicro_waitTest_early {u : State} (h : ¬ Elapsed u) (rest : List Micro) :
    runMicro .waitTest rest u = .ok (u, .waitTest :: rest) := by
  simp only [runMicro, if_neg (mt elapsedAtLeast_iff.mp h)]

/-- The last micro-step of a command that delivers nothing frees SEQ (R22, R83). -/
theorem exec_busy_last {i : Instr} {m : Micro} {rest : List Micro} {s u : State} (h : s.seq = .busy i (m :: rest))
    (one : runMicro m rest s = .ok (u, [])) (silent : response i u = []) : exec i s = .next (withSeq .idle u) := by
  rw [exec_busy h, advance_ok one, settle, complete_silent silent]

/-- At its sampling position TICK.WAIT ends at a sample that finds the duration elapsed (R103). -/
theorem exec_waitTest_elapsed {dur : Tick} {u : State} (loop : u.seq = .busy (.tickWait dur) [.waitTest]) (h : Elapsed u) :
    exec (.tickWait dur) u = .next (withSeq .idle u) :=
  exec_busy_last loop (runMicro_waitTest_elapsed h []) rfl

/-- A sample that comes too early leaves the state as it was (R103). -/
theorem exec_waitTest_early {dur : Tick} {u : State} (loop : u.seq = .busy (.tickWait dur) [.waitTest]) (h : ¬ Elapsed u) :
    exec (.tickWait dur) u = .next u := by
  rw [exec_busy loop, advance_ok (runMicro_waitTest_early h []), settle, ← loop, withSeq_self]

/-- The loop taken to its end, in any interleaving, is some number of TMR's steps after which the duration has elapsed. -/
theorem microRun_waitTest {s t : State} : MicroRun [.waitTest] s t ↔ ∃ n, t = tickN n s ∧ Elapsed (tickN n s) := by
  constructor
  · intro h
    generalize loop : [Micro.waitTest] = ms at h
    induction h with
    | done s => cases loop
    | @step m rest rest' s v t n one after ih =>
      cases loop
      by_cases elapsed : Elapsed (tickN n s)
      · cases (runMicro_waitTest_elapsed elapsed []).symm.trans one
        exact ⟨n, microRun_nil.mp after, elapsed⟩
      · cases (runMicro_waitTest_early elapsed []).symm.trans one
        obtain ⟨k, rfl, later⟩ := ih rfl
        rw [tickN_tickN] at later ⊢
        exact ⟨n + k, rfl, later⟩
  · rintro ⟨n, rfl, elapsed⟩
    exact .step n (runMicro_waitTest_elapsed elapsed []) (.done _)

/-- The state TICK.WAIT begins its loop in, TMR having been offered `a` and then `b` steps before its two latches (R103). -/
def loopStart (dur : Tick) (a b : Nat) (s : State) : State :=
  let u := tickN b { tickN a s with wDur := dur }
  { u with wStart := u.tick }

@[simp] theorem loopStart_wDur (dur : Tick) (a b : Nat) (s : State) : (loopStart dur a b s).wDur = dur := by simp [loopStart]

@[simp] theorem loopStart_wStart (dur : Tick) (a b : Nat) (s : State) :
    (loopStart dur a b s).wStart = (loopStart dur a b s).tick := rfl

@[simp] theorem loopStart_timerArmed (dur : Tick) (a b : Nat) (s : State) :
    (loopStart dur a b s).timerArmed = s.timerArmed := by simp [loopStart]

/-- A whole TICK.WAIT is its two latches and its loop. -/
theorem completes_tickWait {dur : Tick} {s t : State} (idle : s.seq = .idle) :
    Completes (.tickWait dur) s t ↔ ∃ a b v, MicroRun [.waitTest] (loopStart dur a b s) v ∧ t = complete (.tickWait dur) v := by
  rw [completes_idle idle rfl]
  constructor
  · rintro ⟨v, run, rfl⟩
    obtain ⟨a, _, _, one, run⟩ := microRun_cons.mp run
    cases one
    obtain ⟨b, _, _, one, run⟩ := microRun_cons.mp run
    cases one
    exact ⟨a, b, v, run, rfl⟩
  · rintro ⟨a, b, v, run, rfl⟩
    exact ⟨v, .step a rfl (.step b rfl run), rfl⟩

/-- A wait of more than 0 cannot end while `TICK` stands at its start sample: the difference is 0 (R105). -/
theorem not_elapsed_at_start {u : State} (positive : u.wDur ≠ 0) (start : u.wStart = u.tick) : ¬ Elapsed u := by
  simpa [Elapsed, start, ← BitVec.toNat_inj] using positive

/-- A wait of 0 has elapsed at every sample (R105 (a)). -/
theorem elapsed_of_zero {u : State} (zero : u.wDur = 0) : Elapsed u := by simp [Elapsed, zero]

/-- Settles O17: the loop ends where the wrapped difference, which counts TMR's steps modulo 2^32, has reached `dur`; and an armed TMR
can take enough of them. -/
theorem tickWaitNeverReturnsEarly : Obligations.TickWaitNeverReturnsEarly := by
  unfold Obligations.TickWaitNeverReturnsEarly
  refine ⟨fun dur u t loop latched start whole => ?late, fun dur s idle armed => ?canEnd⟩
  case late =>
    obtain ⟨v, run, rfl⟩ := microRun_of_completes whole _ _ loop
    obtain ⟨n, rfl, elapsed⟩ := microRun_waitTest.mp run
    have between := ticksBetween_tickN n u
    have enough : dur.toNat ≤ taken n u % 2 ^ 32 := by
      rw [← ticksBetween_elapsed between, ← start, ← latched, ← tickN_wStart n u, ← tickN_wDur n u]
      exact elapsed
    rw [complete_log, between.count]
    exact Nat.add_le_add_left (enough.trans (Nat.mod_le _ _)) _
  case canEnd =>
    obtain ⟨n, enough⟩ := can_elapse (loopStart dur 0 0 s) (by simpa using armed) (loopStart dur 0 0 s).wStart dur
    have elapsed : Elapsed (tickN n (loopStart dur 0 0 s)) := elapsedAtLeast_iff.mp (by simpa using enough)
    exact ⟨_, (completes_tickWait idle).mpr ⟨0, 0, _, microRun_waitTest.mpr ⟨n, rfl, elapsed⟩, rfl⟩⟩

/-- Settles O18: while the timer is not armed `TICK` stays at the start sample, and a sample there is too early. -/
theorem tickWaitHangsUnarmed : Obligations.TickWaitHangsUnarmed := by
  unfold Obligations.TickWaitHangsUnarmed
  refine ⟨fun dur s positive idle unarmed => ?never, fun dur u k positive loop latched start unarmed => ?fixed⟩
  case never =>
    rintro ⟨t, whole⟩
    obtain ⟨a, b, v, run, -⟩ := (completes_tickWait idle).mp whole
    obtain ⟨n, -, elapsed⟩ := microRun_waitTest.mp run
    rw [tickN_unarmed (by simpa using unarmed)] at elapsed
    exact not_elapsed_at_start (by simpa using positive) rfl elapsed
  case fixed =>
    refine run_fixed (M := core) ?_ k
    change step u = .next u
    rw [step_busy loop, tmr_unarmed unarmed, exec_waitTest_early loop (not_elapsed_at_start (latched ▸ positive) start)]

/-! ## A wait under prescribed numbers of ticks -/

/-- A step at the sampling position is TMR's part and one sample. -/
theorem step_waitTest_elapsed {dur : Tick} {u : State} (loop : u.seq = .busy (.tickWait dur) [.waitTest])
    (h : Elapsed (tmr u)) : step u = .next (withSeq .idle (tmr u)) := by
  rw [step_busy loop, exec_waitTest_elapsed (by rw [tmr_seq, loop]) h]

theorem step_waitTest_early {dur : Tick} {u : State} (loop : u.seq = .busy (.tickWait dur) [.waitTest])
    (h : ¬ Elapsed (tmr u)) : step u = .next (tmr u) := by
  rw [step_busy loop, exec_waitTest_early (by rw [tmr_seq, loop]) h]

theorem run_of_step {s t : State} (h : step s = .next t) (k : Nat) : core.run (k + 1) s = core.run k t :=
  run_succ (M := core) h k

/-- Steps that do not make the wrapped difference lap add to it (R105 (d)). -/
theorem elapsed_add {tick start : Tick} {n : Nat} (noLap : (tick - start).toNat + n < 2 ^ 32) :
    (tick + BitVec.ofNat 32 n - start).toNat = (tick - start).toNat + n := by
  have commute : tick + BitVec.ofNat 32 n - start = tick - start + BitVec.ofNat 32 n := by bv_omega
  rw [commute, BitVec.toNat_add, BitVec.toNat_ofNat, Nat.add_mod_mod, Nat.mod_eq_of_lt noLap]

/-- A wait that has not elapsed ends within the prescribed numbers of ticks, if none of them can make it lap and together they are
enough (R105 (b), (d)): each number is added to the difference until it reaches the duration. -/
theorem run_waitTest_ends {dur : Tick} {l : List Nat} {u : State} (loop : u.seq = .busy (.tickWait dur) [.waitTest])
    (armed : u.timerArmed = true) (script : u.env.tickScript = l) (early : ¬ Elapsed u)
    (bounded : ∀ n ∈ l, n + u.wDur.toNat ≤ 2 ^ 32) (enough : u.wDur.toNat ≤ (u.tick - u.wStart).toNat + l.sum) :
    ∃ k t, k ≤ l.length ∧ core.run k u = .next t ∧ t.seq = .idle := by
  induction l generalizing u with
  | nil => exact absurd enough early
  | cons n l ih =>
    have before : (u.tick - u.wStart).toNat < u.wDur.toNat := Nat.lt_of_not_le early
    have bound := bounded n (List.mem_cons_self ..)
    obtain ⟨tick, used⟩ := tmr_prescribed armed script
    have moved : ((tmr u).tick - (tmr u).wStart).toNat = (u.tick - u.wStart).toNat + n := by
      rw [tick, tmr_wStart, elapsed_add (by omega)]
    by_cases elapsed : Elapsed (tmr u)
    · exact ⟨1, _, by simp, run_of_step (step_waitTest_elapsed loop elapsed) 0, rfl⟩
    · obtain ⟨k, t, short, run, idle⟩ := ih (u := tmr u) (by rw [tmr_seq, loop]) (by rw [tmr_timerArmed, armed]) used elapsed
        (by simpa using fun m hm => bounded m (List.mem_cons_of_mem n hm))
        (by rw [moved, tmr_wDur]; rw [List.sum_cons] at enough; omega)
      exact ⟨k + 1, t, by simpa using short, by rw [run_of_step (step_waitTest_early loop elapsed), run], idle⟩

/-- Settles O19: a wait of 0 ends at its first sample; a longer one has not elapsed at its start, and each prescribed number brings it
nearer without lapping. -/
theorem tickWaitReturnsUnderATickBound : Obligations.TickWaitReturnsUnderATickBound := by
  unfold Obligations.TickWaitReturnsUnderATickBound
  intro dur u l loop latched start armed script nonempty bounded enough
  by_cases zero : dur = 0
  · have elapsed : Elapsed (tmr u) := elapsed_of_zero (by rw [tmr_wDur, latched, zero])
    exact ⟨1, _, List.length_pos_of_ne_nil nonempty, run_of_step (step_waitTest_elapsed loop elapsed) 0, rfl⟩
  · exact run_waitTest_ends loop armed script (not_elapsed_at_start (latched ▸ zero) start) (latched ▸ bounded)
      (latched ▸ Nat.le_add_left_of_le enough)

/-! ## What each command does -/

/-- Settles O8: from the definition of `onTick`, and TMR's last step set apart. -/
theorem onTickAddsOneWhileArmed : Obligations.OnTickAddsOneWhileArmed := by
  unfold Obligations.OnTickAddsOneWhileArmed
  exact fun n s => ⟨rfl, BitVec.toNat_add s.tick 1, fun armed => tickN_succ armed n, fun unarmed => tickN_unarmed unarmed n⟩

/-- After a write of 0 `TICK` is the number of steps TMR took since (R100). -/
theorem tick_after_zero {u : State} {armed : Bool} (zero : u.tick = 0) (timer : u.timerArmed = armed) (n : Nat) :
    (tickN n u).tick = if armed then BitVec.ofNat 32 n else 0 := by
  cases armed <;> simp [tickN_eq, taken, zero, timer]

/-- Settles O13: the three writes in turn; after the write of 0 `TICK` is the number of steps TMR took. -/
theorem tickStartConfiguresZeroesArms : Obligations.TickStartConfiguresZeroesArms := by
  unfold Obligations.TickStartConfiguresZeroesArms
  refine ⟨rfl, fun s a b idle => ⟨_, _, _, exec_idle_first idle rfl rfl, rfl, exec_busy_tickN a rfl rfl, rfl,
    exec_busy_last (tickN_seq b _) rfl rfl, rfl, ?counted⟩⟩
  case counted =>
    change (tickN b _).tick = _
    refine tick_after_zero rfl ?_ b
    exact tickN_timerArmed a _

/-- A value is the sum of its four bytes at their places (R54). -/
theorem toNat_wordBytes (v : BitVec 32) : v.toNat =
    (byteAt v 0).toNat + 256 * (byteAt v 1).toNat + 65536 * (byteAt v 2).toNat + 16777216 * (byteAt v 3).toNat := by
  rw [← word_toNat, word_bytes]

/-- Settles O14: the one micro-step latches `TICK`, and the response is the latch's four bytes. -/
theorem tickNowDeliversTheCounter : Obligations.TickNowDeliversTheCounter := by
  unfold Obligations.TickNowDeliversTheCounter
  refine ⟨rfl, fun s idle => ⟨byteAt s.tick 0, byteAt s.tick 1, byteAt s.tick 2, byteAt s.tick 3, ?_, toNat_wordBytes s.tick⟩⟩
  rw [exec_idle_first idle rfl rfl, settle, complete, ← idle]
  rfl

/-- Settles O15: the two latches in turn, and the two outcomes of a sample. -/
theorem tickWaitSamplesUntilElapsed : Obligations.TickWaitSamplesUntilElapsed := by
  unfold Obligations.TickWaitSamplesUntilElapsed
  refine ⟨fun dur => ⟨rfl, rfl⟩, fun dur s a idle => ⟨_, _, exec_idle_first idle rfl rfl, rfl, exec_busy_tickN a rfl rfl, rfl⟩,
    fun dur u loop => ?_⟩
  split
  case isTrue elapsed => exact exec_waitTest_elapsed loop elapsed
  case isFalse early => exact exec_waitTest_early loop early

/-- Settles O16: the two latches, then a sample that finds 0 elapsed; TMR's steps alone are logged. -/
theorem tickWaitZeroTakesTwoSamples : Obligations.TickWaitZeroTakesTwoSamples := by
  unfold Obligations.TickWaitZeroTakesTwoSamples
  intro s a b idle
  obtain ⟨-, latches, -⟩ := tickWaitSamplesUntilElapsed
  obtain ⟨t1, t2, first, rfl, second, rfl⟩ := latches 0 s a idle
  exact ⟨_, _, _, first, rfl, second, rfl, exec_waitTest_elapsed (tickN_seq b _) (elapsed_of_zero (by simp)), rfl,
    (visible_tickN b _).trans (visible_tickN a _)⟩

/-! ## The commands' frame -/

/-- In a state that meets the invariant a command that is never refused takes one of its micro-steps. -/
theorem exec_takes_accepted {i : Instr} {ms : List Micro} {s t : State} (inv : RunInv s) (accepted : planOf i s = .ok ms)
    (h : exec i s = .next t) : ∃ m rest u r, Takes i m rest s ∧ runMicro m rest s = .ok (u, r) ∧ t = settle i u r := by
  rcases exec_takes inv h with ⟨idle, -⟩ | taken
  · obtain ⟨m, rest, rfl, -⟩ := planOf_own accepted
    rw [exec_idle_ok idle accepted] at h
    obtain ⟨u, r, one, e⟩ := advance_next h
    exact ⟨m, rest, u, r, .inl ⟨idle, accepted⟩, one, e⟩
  · exact taken

/-- A command that delivers nothing leaves a micro-step's state with SEQ moved, whether it ends or goes on (R22, R83). -/
theorem settle_silent {i : Instr} {u : State} (silent : response i u = []) (r : List Micro) : ∃ q, settle i u r = withSeq q u := by
  rcases settle_cases i u r with ⟨-, e⟩ | ⟨-, e⟩
  · exact ⟨.idle, e.trans (complete_silent silent)⟩
  · exact ⟨_, e⟩

/-- Where such a command delivers nothing, only SEQ is moved beside what its micro-step does. -/
theorem exec_takes_silent {i : Instr} {ms : List Micro} {s t : State} (inv : RunInv s) (accepted : planOf i s = .ok ms)
    (silent : ∀ u, response i u = []) (h : exec i s = .next t) :
    ∃ m rest u r q, OwnMicro i m ∧ runMicro m rest s = .ok (u, r) ∧ t = withSeq q u := by
  obtain ⟨m, rest, u, r, takes, one, rfl⟩ := exec_takes_accepted inv accepted h
  obtain ⟨q, e⟩ := settle_silent (silent u) r
  exact ⟨m, rest, u, r, q, takes_own takes, one, e⟩

/-- Settles O54: the frame of the one micro-step taken; TICK.NOW alone delivers a response, at its only one. -/
theorem tickCommandsFrame : Obligations.TickCommandsFrame := by
  unfold Obligations.TickCommandsFrame
  refine fun dur s t inv => ⟨fun h => ?start, fun h => ?now, fun h => ?wait⟩
  case start =>
    obtain ⟨m, rest, u, r, q, own, one, rfl⟩ := exec_takes_silent inv rfl (fun _ => rfl) h
    rcases own with rfl | rfl | rfl <;> (cases one; rfl)
  case now =>
    obtain ⟨m, rest, u, r, takes, one, rfl⟩ := exec_takes_accepted inv rfl h
    rcases takes with ⟨-, plan⟩ | ⟨-, nowhere⟩
    · cases plan
      cases one
      rfl
    · exact nowhere.elim
  case wait =>
    obtain ⟨m, rest, u, r, q, own, one, rfl⟩ := exec_takes_silent inv rfl (fun _ => rfl) h
    rcases own with rfl | rfl | rfl <;> (cases one; rfl)

end Sys2Proof.Proofs.TickClock
end

section
/-! The statements of unit DIV (41_seriallink.md sections 1 and 2). The integer computation of R111 is the rational rule of R110 digit by
digit: its `K` is the floor that rounds to four decimals, and its `s` the ceiling of the scaled rest. -/

namespace Sys2Proof.Proofs.Divisor

open Sys2Proof.Machine Sys2Proof.Safety Sys2Proof.Proofs.Registers Sys2Proof.Proofs.TickClock

/-! ## The computation -/

theorem divisorS_le (k : Nat) : divisorS k ≤ 16 := by
  unfold divisorS
  omega

/-- The fraction rounds up to a carry from the digits 9376 on (R112). -/
theorem divisorS_eq_carry_iff (k : Nat) : divisorS k = 16 ↔ 9376 ≤ k % 10000 := by
  unfold divisorS
  omega

theorem computeDivisor_snd_lt (baud clk : Nat) : (computeDivisor baud clk).2 < 16 := Nat.mod_lt _ (by decide)

theorem divisorK_zero {baud : Nat} (h : 1 ≤ baud) : divisorK baud 0 = 0 := Nat.div_eq_of_lt (by omega)

/-- Settles O21, by the arithmetic of the four digits. -/
theorem divisorFieldsInRange : Obligations.DivisorFieldsInRange := by
  unfold Obligations.DivisorFieldsInRange
  refine fun baud clk k h => ⟨Nat.le_of_lt_succ (computeDivisor_snd_lt baud clk), divisorS_le k, divisorS_eq_carry_iff k, ?_⟩
  simp [computeDivisor, divisorK_zero h, divisorS]

/-- `K` is the quotient scaled by 10^4 and rounded half up (R110, R111). -/
theorem floor_quotient {baud : Nat} (h : 1 ≤ baud) (clk : Nat) :
    ⌊(clk / (baud * 16) : ℚ) * 10 ^ 4 + 1 / 2⌋ = (divisorK baud clk : ℤ) := by
  have positive : (baud : ℚ) ≠ 0 := by exact_mod_cast (by omega : baud ≠ 0)
  have fraction : (clk / (baud * 16) : ℚ) * 10 ^ 4 + 1 / 2 = ((20000 * clk + 16 * baud : ℕ) : ℚ) / ((32 * baud : ℕ) : ℚ) := by
    push_cast
    field_simp
    ring
  rw [fraction, Rat.floor_natCast_div_natCast]
  rfl

/-- The mantissa before the carry is the number of whole units in `K` (R110, R111). -/
theorem floor_rounded (k : Nat) : ⌊(k : ℚ) / 10 ^ 4⌋ = ((k / 10000 : ℕ) : ℤ) := by
  have := Rat.floor_natCast_div_natCast k 10000
  exact_mod_cast this

/-- `s` is the rest in sixteenths, rounded up (R110, R111). -/
theorem ceil_rest (k : Nat) : ⌈((k : ℚ) / 10 ^ 4 - (k / 10000 : ℕ)) * 16⌉ = (divisorS k : ℤ) := by
  have split : (k : ℚ) = 10000 * (k / 10000 : ℕ) + (k % 10000 : ℕ) := by exact_mod_cast (Nat.div_add_mod k 10000).symm
  have fraction : ((k : ℚ) / 10 ^ 4 - (k / 10000 : ℕ)) * 16 = ((16 * (k % 10000) : ℕ) : ℚ) / ((10000 : ℕ) : ℚ) := by
    rw [split]
    push_cast
    ring
  rw [fraction, Rat.ceil_natCast_div_natCast]
  unfold divisorS
  omega

/-- Settles O20: the floor and the ceiling of the rule are the integer divisions of R111. -/
theorem divisorIsTheExactRule : Obligations.DivisorIsTheExactRule := by
  unfold Obligations.DivisorIsTheExactRule
  intro baud clk h
  have small := divisorS_le (divisorK baud clk)
  simp only [floor_quotient h, Int.cast_natCast, floor_rounded, ceil_rest, computeDivisor]
  refine ⟨by omega, by omega, ?_, by omega⟩
  split <;> omega

/-! ## UART.DIV -/

/-- A refused command leaves an idle FG with the mark and nothing else (R173). -/
theorem exec_idle_refused {i : Instr} {s : State} {r : RefusalReason} (idle : s.seq = .idle) (plan : planOf i s = .error r) :
    exec i s = .next { s with refusals := s.refusals ++ [r] } := by
  rw [exec_idle_error idle plan, refuse, ← idle]

theorem planUartDiv_accepted {baud clk : BitVec 32} {s : State} (nonzero : baud ≠ 0) (unset : s.brrSet = false)
    (small : (computeDivisor baud.toNat clk.toNat).1 < 2 ^ 12) :
    planUartDiv baud clk s = .ok [.brrMantSet (BitVec.ofNat 12 (computeDivisor baud.toNat clk.toNat).1),
      .brrFracSet (BitVec.ofNat 4 (computeDivisor baud.toNat clk.toNat).2), .brrSetMark] :=
  (if_neg nonzero).trans ((if_neg (Bool.eq_false_iff.mp unset)).trans (if_neg (Nat.not_le.mpr small)))

/-- Settles O22: the plan test by test, then its three writes in turn; both fields of the divisor fit their registers. -/
theorem uartDivLatchesTheDivisorOnce : Obligations.UartDivLatchesTheDivisorOnce := by
  unfold Obligations.UartDivLatchesTheDivisorOnce
  refine ⟨fun baud clk => ⟨rfl, rfl⟩, fun baud clk s idle => ⟨fun zero => ?_, fun nonzero set => ?_, fun nonzero unset large => ?_,
    fun nonzero unset small a b => ?_⟩⟩
  · exact exec_idle_refused idle (if_pos zero)
  · exact exec_idle_refused idle ((if_neg nonzero).trans (if_pos set))
  · exact exec_idle_refused idle
      ((if_neg nonzero).trans ((if_neg (Bool.eq_false_iff.mp unset)).trans (if_pos large)))
  · have mantissa := (BitVec.toNat_ofNat _ 12).trans (Nat.mod_eq_of_lt small)
    have fraction := (BitVec.toNat_ofNat _ 4).trans (Nat.mod_eq_of_lt (computeDivisor_snd_lt baud.toNat clk.toNat))
    exact ⟨_, _, _, _, _, mantissa, fraction, exec_idle_first idle (planUartDiv_accepted nonzero unset small) rfl, rfl,
      exec_busy_tickN a rfl rfl, rfl, exec_busy_last (tickN_seq b _) rfl rfl, rfl⟩

/-- Settles O55: a refusal leaves the mark; each micro-step is a write of one of the divisor registers, and nothing is delivered. -/
theorem uartDivFrame : Obligations.UartDivFrame := by
  unfold Obligations.UartDivFrame
  intro baud clk s t inv h
  rcases exec_takes inv h with ⟨-, r, rfl⟩ | ⟨m, ms, u, r, takes, one, rfl⟩
  · rfl
  · obtain ⟨q, moved⟩ := settle_silent (i := .uartDiv baud clk) (u := u) rfl r
    rw [moved]
    have own : divisorMicro m = true := takes_own takes
    cases m
    case brrMantSet => cases one; rfl
    case brrFracSet => cases one; rfl
    case brrSetMark => cases one; rfl
    all_goals cases own

end Sys2Proof.Proofs.Divisor
end

section
/-! The micro-steps of UART.TX one by one (41_seriallink.md section 3): what `exec` answers at each of its positions, and what it leaves
unchanged there. -/

namespace Sys2Proof.Proofs.UartTx

open Sys2Proof.Machine Sys2Proof.Safety Sys2Proof.Proofs.Registers Sys2Proof.Proofs.TickClock

/-! ## Samples and timeout tests -/

/-- Where UART.TX goes on after a sample answered `a` (R116, R117). -/
def afterSample (m : Micro) (a : Bool) : List Micro :=
  match m with
  | .readyErr => if a then finish .error else [.readyPoll]
  | .readyPoll => if a then [.txWrite, .txIdxIncr] else [.readyTime]
  | .completeErr => if a then finish .error else [.completePoll]
  | .completePoll => if a then finish .ok else [.completeTime]
  | _ => []

/-- A sample moves the record of the answers alone, and its answer decides where the command goes on (R32). -/
theorem runMicro_sample {m : Micro} {c : UartCond} {a : Bool} {s : State} (sample : sampleOf m = some c)
    (answer : answerOf c s.env = a) (rest : List Micro) : runMicro m rest s = .ok (sampled s, afterSample m a) := by
  subst answer
  cases m
  case readyErr => cases sample; rfl
  case readyPoll => cases sample; rfl
  case completeErr => cases sample; rfl
  case completePoll => cases sample; rfl
  all_goals cases sample

theorem afterSample_ne_nil {m : Micro} {c : UartCond} (sample : sampleOf m = some c) (a : Bool) : afterSample m a ≠ [] := by
  cases m
  case readyErr => cases a <;> exact List.cons_ne_nil _ _
  case readyPoll => cases a <;> exact List.cons_ne_nil _ _
  case completeErr => cases a <;> exact List.cons_ne_nil _ _
  case completePoll => cases a <;> exact List.cons_ne_nil _ _
  all_goals cases sample

/-- The transmission under way has lasted its timeout, all unsigned (R116 (3), R117 (3)). -/
def TimedOut (u : State) : Prop := u.txTimeout.toNat ≤ (u.tick - u.txStart).toNat

theorem elapsedAtLeast_iff_timedOut {u : State} : elapsedAtLeast (now u) u.txStart u.txTimeout = true ↔ TimedOut u := by
  simp [elapsedAtLeast, TimedOut, now, BitVec.le_def]

theorem timedOut_of_zero {u : State} (zero : u.txTimeout = 0) : TimedOut u := by simp [TimedOut, zero]

theorem runMicro_readyTime_late {u : State} (h : TimedOut u) (rest : List Micro) :
    runMicro .readyTime rest u = .ok (u, finish .timeout) := by
  simp only [runMicro, if_pos (elapsedAtLeast_iff_timedOut.mpr h)]

theorem byteLoop_more {s : State} (h : s.txIdx < s.txLen) : byteLoop s = [.readyErr] := if_pos h

theorem byteLoop_done {s : State} (h : ¬ s.txIdx < s.txLen) : byteLoop s = [.txEnterComplete] := if_neg h

theorem runMicro_readyTime_early {u : State} (h : ¬ TimedOut u) (rest : List Micro) :
    runMicro .readyTime rest u = .ok (u, byteLoop u) := by
  simp only [runMicro, if_neg (mt elapsedAtLeast_iff_timedOut.mp h)]

theorem runMicro_readyTime_again {u : State} (early : ¬ TimedOut u) (more : u.txIdx < u.txLen) (rest : List Micro) :
    runMicro .readyTime rest u = .ok (u, [.readyErr]) := by
  rw [runMicro_readyTime_early early, byteLoop_more more]

theorem runMicro_completeTime_late {u : State} (h : TimedOut u) (rest : List Micro) :
    runMicro .completeTime rest u = .ok (u, finish .timeout) := by
  simp only [runMicro, if_pos (elapsedAtLeast_iff_timedOut.mpr h)]

theorem runMicro_completeTime_early {u : State} (h : ¬ TimedOut u) (rest : List Micro) :
    runMicro .completeTime rest u = .ok (u, [.completeErr]) := by
  simp only [runMicro, if_neg (mt elapsedAtLeast_iff_timedOut.mp h)]

/-- The write hands over the byte at `TX_IDX` (R116 (2)). -/
theorem runMicro_txWrite {s : State} {b : Byte} (h : s.txbuf[s.txIdx.toNat]? = some b) (rest : List Micro) :
    runMicro .txWrite rest s = .ok (uartWrite b s, rest) := by
  simp only [runMicro, h]

/-- A write that does not fault was of a byte of `TXBUF` (R51). -/
theorem runMicro_txWrite_ok {rest r : List Micro} {s u : State} (one : runMicro .txWrite rest s = .ok (u, r)) :
    ∃ b, s.txbuf[s.txIdx.toNat]? = some b ∧ u = uartWrite b s ∧ r = rest := by
  cases byte : s.txbuf[s.txIdx.toNat]? with
  | none => simp [runMicro, byte] at one
  | some b =>
    cases (runMicro_txWrite byte rest).symm.trans one
    exact ⟨b, rfl, rfl, rfl⟩

/-! ## What `exec` answers at each position -/

/-- A micro-step after which the command goes on. -/
theorem exec_busy_going {i : Instr} {m : Micro} {rest r : List Micro} {s u : State} (h : s.seq = .busy i (m :: rest))
    (one : runMicro m rest s = .ok (u, r)) (going : r ≠ []) : exec i s = .next (withSeq (.busy i r) u) := by
  obtain ⟨m', r', rfl⟩ := List.exists_cons_of_ne_nil going
  rw [exec_busy h, advance_ok one]
  rfl

theorem exec_sample {i : Instr} {m : Micro} {c : UartCond} {rest : List Micro} {s : State} (h : s.seq = .busy i (m :: rest))
    (sample : sampleOf m = some c) :
    exec i s = .next (withSeq (.busy i (afterSample m (answerOf c s.env))) (sampled s)) :=
  exec_busy_going h (runMicro_sample sample rfl rest) (afterSample_ne_nil sample _)

/-- Settles O25: two samples, the write, the next index, and the two outcomes of the timeout test. -/
theorem byteLoopPoll : Obligations.ByteLoopPoll := by
  unfold Obligations.ByteLoopPoll
  refine fun timeout len data u => ⟨fun h => exec_sample h rfl, fun h => exec_sample h rfl, fun h inside => ?write,
    fun h => exec_busy_going h rfl (byteLoop_ne _), fun h more => ?test⟩
  case write => exact exec_busy_going h (runMicro_txWrite (List.getElem?_eq_getElem inside) _) (List.cons_ne_nil _ _)
  case test =>
    split
    case isTrue late => exact exec_busy_going h (runMicro_readyTime_late late []) (List.cons_ne_nil _ _)
    case isFalse early => exact exec_busy_going h (runMicro_readyTime_again early more []) (List.cons_ne_nil _ _)

/-- Settles O26: the entry, two samples, and the two outcomes of the timeout test. -/
theorem completionWaitPoll : Obligations.CompletionWaitPoll := by
  unfold Obligations.CompletionWaitPoll
  refine fun timeout len data u => ⟨fun h => exec_busy_going h rfl (List.cons_ne_nil _ _), fun h => exec_sample h rfl,
    fun h => exec_sample h rfl, fun h => ?test⟩
  split
  case isTrue late => exact exec_busy_going h (runMicro_completeTime_late late []) (List.cons_ne_nil _ _)
  case isFalse early => exact exec_busy_going h (runMicro_completeTime_early early []) (List.cons_ne_nil _ _)

/-- The first test of the byte loop: an empty transmission has no poll in it (R121). -/
theorem byteLoop_first {s : State} {len : Half} (latched : s.txLen = len) (first : s.txIdx = 0) :
    byteLoop s = if len = 0 then [.txEnterComplete] else [.readyErr] := by
  rw [byteLoop, latched, first]
  split
  case isTrue more => rw [if_neg (by rintro rfl; exact absurd more (by decide))]
  case isFalse none => rw [if_pos (by bv_omega)]

theorem exec_txEnterReady {i : Instr} {len : Half} {s : State} (h : s.seq = .busy i [.txEnterReady]) (latched : s.txLen = len)
    (first : s.txIdx = 0) :
    exec i s = .next { s with
      txState := .waitReady
      seq := .busy i (if len = 0 then [.txEnterComplete] else [.readyErr]) } := by
  rw [← byteLoop_first latched first]
  exact exec_busy_going h rfl (byteLoop_ne s)

/-- Settles O24: the four latches in turn, then the first test of the byte loop. -/
theorem uartTxLatchesOperandsAndSamplesOnce : Obligations.UartTxLatchesOperandsAndSamplesOnce := by
  unfold Obligations.UartTxLatchesOperandsAndSamplesOnce
  intro timeout len data s a b c d idle
  exact ⟨_, _, _, _, exec_idle_first idle rfl rfl, rfl, exec_busy_tickN a rfl rfl, rfl, exec_busy_tickN b rfl rfl, rfl,
    exec_busy_tickN c rfl rfl, rfl, exec_txEnterReady (tickN_seq d _)
      ((tickN_txLen d _).trans ((tickN_txLen c _).trans (tickN_txLen b _))) ((tickN_txIdx d _).trans (tickN_txIdx c _))⟩

/-- Settles O27: the status is recorded, and the response at the end is its code. -/
theorem finishDeliversTheStatus : Obligations.FinishDeliversTheStatus := by
  unfold Obligations.FinishDeliversTheStatus
  intro timeout len data st code u a h isCode
  have recorded : statusCode st = BitVec.ofNat 2 code := by subst isCode; cases st <;> rfl
  have delivered : (BitVec.ofNat 2 code).setWidth 8 = BitVec.ofNat 8 code := by subst isCode; cases st <;> rfl
  rw [← delivered, ← recorded]
  refine ⟨_, exec_busy_going h rfl (List.cons_ne_nil _ _), rfl, ?_⟩
  rw [exec_busy_tickN a rfl rfl]
  simp [settle, complete, response]

/-! ## The frame -/

/-- What a micro-step of UART.TX leaves unchanged (R115): everything but the command's own registers, its operand space, the record of the
answers, and at most one byte written. -/
def TxFrame (s t : State) : Prop :=
  t = { s with
    txState := t.txState, txStart := t.txStart, txTimeout := t.txTimeout, txIdx := t.txIdx, txLen := t.txLen
    resStatus := t.resStatus, txbuf := t.txbuf, seq := t.seq, log := t.log
    env := { s.env with answerScript := t.env.answerScript, answerDraws := t.env.answerDraws }
    host := { s.host with received := t.host.received } } ∧
  (t.log = s.log ∨ ∃ b, s.txbuf[s.txIdx.toNat]? = some b ∧ t.log = s.log ++ [.uartWr b])

theorem answered_frame (e : Environment) :
    answered e = { e with answerScript := (answered e).answerScript, answerDraws := (answered e).answerDraws } := by
  unfold answered
  split <;> rfl

theorem txFrame_sampled (s : State) : TxFrame s (sampled s) :=
  ⟨congrArg (fun e => { s with env := e }) (answered_frame s.env), .inl rfl⟩

theorem txFrame_runMicro {m : Micro} (own : txMicro m = true) {rest r : List Micro} {s u : State}
    (one : runMicro m rest s = .ok (u, r)) : TxFrame s u := by
  cases m <;> cases own
  case txWrite =>
    obtain ⟨b, byte, rfl, -⟩ := runMicro_txWrite_ok one
    exact ⟨rfl, .inr ⟨b, byte, rfl⟩⟩
  case readyErr => cases one; exact txFrame_sampled s
  case readyPoll => cases one; exact txFrame_sampled s
  case completeErr => cases one; exact txFrame_sampled s
  case completePoll => cases one; exact txFrame_sampled s
  all_goals cases one; exact ⟨rfl, .inl rfl⟩

/-- The sequencer's part: SEQ is moved, and the end delivers a response. -/
theorem txFrame_settle {s u : State} (h : TxFrame s u) (i : Instr) (r : List Micro) : TxFrame s (settle i u r) := by
  obtain ⟨frame, written⟩ := h
  refine ⟨?_, by rwa [settle_log]⟩
  rw [frame]
  cases r <;> rfl

/-- Settles O56: the frame of the one micro-step taken. -/
theorem uartTxFrame : Obligations.UartTxFrame := by
  unfold Obligations.UartTxFrame
  intro timeout len data s t inv h
  obtain ⟨m, rest, u, r, takes, one, rfl⟩ := exec_takes_accepted inv rfl h
  exact txFrame_settle (txFrame_runMicro (takes_own takes) one) _ r

end Sys2Proof.Proofs.UartTx
end

section
/-! Whole transmissions (41_seriallink.md section 3). Where the answers are prescribed, a transmission is followed forward: it can end, and
every interleaving of it does the same but for `TICK`. Where they are free, every position says how many bytes have been handed over. -/

namespace Sys2Proof.Proofs.Transmission

open Sys2Proof.Machine Sys2Proof.Safety Sys2Proof.Proofs.Encoding Sys2Proof.Proofs.UartTx

/-! ## Following micro-steps forward -/

/-- The micro-steps `ms` can be taken to their end from `s`, and `Q` holds wherever that leads, whatever steps TMR takes between them. -/
def Ends (ms : List Micro) (s : State) (Q : State → Prop) : Prop := (∃ t, MicroRun ms s t) ∧ ∀ t, MicroRun ms s t → Q t

theorem ends_nil {s : State} {Q : State → Prop} (h : Q s) : Ends [] s Q := ⟨⟨s, .done s⟩, fun _ run => microRun_nil.mp run ▸ h⟩

theorem ends_mono {ms : List Micro} {s : State} {P Q : State → Prop} (h : Ends ms s P) (weaken : ∀ t, P t → Q t) : Ends ms s Q :=
  ⟨h.1, fun t run => weaken t (h.2 t run)⟩

/-- The next micro-step, after any number of ticks. -/
theorem ends_cons {m : Micro} {rest : List Micro} {s : State} {Q : State → Prop}
    (next : ∀ n, ∃ u r, runMicro m rest (tickN n s) = .ok (u, r) ∧ Ends r u Q) : Ends (m :: rest) s Q := by
  constructor
  · obtain ⟨u, r, one, ⟨t, after⟩, -⟩ := next 0
    exact ⟨t, .step 0 one after⟩
  · intro t run
    obtain ⟨n, v, r', one', after⟩ := microRun_cons.mp run
    obtain ⟨u, r, one, -, all⟩ := next n
    cases one.symm.trans one'
    exact all t after

/-- A command under way ends as the micro-steps that remain of it do. -/
theorem completes_of_ends {i : Instr} {m : Micro} {ms : List Micro} {s : State} {Q : State → Prop} (h : s.seq = .busy i (m :: ms))
    (ends : Ends (m :: ms) s Q) : (∃ t, Completes i s t) ∧ ∀ t, Completes i s t → ∃ u, Q u ∧ t = complete i u := by
  obtain ⟨⟨u, run⟩, all⟩ := ends
  constructor
  · have := completes_of_microRun (i := i) run (List.cons_ne_nil m ms)
    rw [← h, withSeq_self] at this
    exact ⟨_, this⟩
  · intro t whole
    obtain ⟨u, run, e⟩ := microRun_of_completes whole m ms h
    exact ⟨u, all u run, e⟩

/-- How a transmission from `s` enters its byte loop in `v` (R115). -/
structure EntersLoop (timeout : Tick) (len : Half) (data : List Byte) (s v : State) : Prop where
  buf : v.txbuf = data
  latched : v.txLen = len
  first : v.txIdx = 0
  timeout : v.txTimeout = timeout
  env : v.env = s.env
  log : visible v.log = visible s.log

/-- From `s` a transmission has ended in `t` with status `st`, has handed over the bytes `bytes` and has left `answers` prescribed. -/
def Result (st : TransferStatus) (bytes : List Byte) (answers : List Bool) (s t : State) : Prop :=
  t.resStatus = statusCode st ∧ visible t.log = visible s.log ++ bytes.map Event.uartWr ∧ t.env.answerScript = answers

/-- A whole transmission ends as its byte loop does. -/
theorem completes_of_ends_byteLoop {timeout : Tick} {len : Half} {data bytes : List Byte} {answers : List Bool} {st : TransferStatus}
    {s : State} (idle : s.seq = .idle)
    (ends : ∀ v, EntersLoop timeout len data s v → Ends (byteLoop v) v (Result st bytes answers v)) :
    (∃ t, Completes (.uartTx timeout len data) s t) ∧
      ∀ t, Completes (.uartTx timeout len data) s t → Result st bytes answers s t := by
  constructor
  · exact tx_start idle fun v buf latched first timeout _ env log _ =>
      (ends v ⟨buf, latched, first, timeout, env, congrArg visible log⟩).1
  · intro t whole
    obtain ⟨v, w, rfl, run, buf, latched, first, timeout, -, log, -, env, -⟩ := tx_entry idle whole
    obtain ⟨status, written, left⟩ := (ends v ⟨buf, latched, first, timeout, env, log⟩).2 w run
    exact ⟨status, log ▸ written, left⟩

/-- The same for a transmission that hands over nothing. -/
theorem completes_without_bytes {timeout : Tick} {len : Half} {data : List Byte} {answers : List Bool} {st : TransferStatus}
    {s : State} (idle : s.seq = .idle) (ends : ∀ v, EntersLoop timeout len data s v → Ends (byteLoop v) v (Result st [] answers v)) :
    (∃ t, Completes (.uartTx timeout len data) s t) ∧ ∀ t, Completes (.uartTx timeout len data) s t →
      t.resStatus = statusCode st ∧ visible t.log = visible s.log ∧ t.env.answerScript = answers := by
  refine (completes_of_ends_byteLoop idle ends).imp_right fun all t whole => ?_
  obtain ⟨status, log, left⟩ := all t whole
  exact ⟨status, by simpa using log, left⟩

/-! ## Polls, writes and the exit -/

/-- What ticks, samples and a change of `TX_STATE` leave of `s`. -/
structure Polled (s u : State) : Prop where
  buf : u.txbuf = s.txbuf
  latched : u.txLen = s.txLen
  idx : u.txIdx = s.txIdx
  timeout : u.txTimeout = s.txTimeout
  log : visible u.log = visible s.log

theorem polled_refl (s : State) : Polled s s := ⟨rfl, rfl, rfl, rfl, rfl⟩

theorem polled_tickN {s u : State} (h : Polled s u) (n : Nat) : Polled s (tickN n u) :=
  ⟨(tickN_txbuf n u).trans h.buf, (tickN_txLen n u).trans h.latched, (tickN_txIdx n u).trans h.idx, (tickN_txTimeout n u).trans h.timeout,
    (visible_tickN n u).trans h.log⟩

/-- A sample whose answer is known. -/
theorem ends_sample {m : Micro} {c : UartCond} {a : Bool} {s u : State} {Q : State → Prop} (polled : Polled s u)
    (sample : sampleOf m = some c) (answer : answerOf c u.env = a)
    (next : ∀ v, Polled s v → v.env = answered u.env → Ends (afterSample m a) v Q) : Ends [m] u Q :=
  ends_cons fun n =>
    have ⟨buf, latched, idx, timeout, log⟩ := polled_tickN polled n
    ⟨_, _, runMicro_sample sample (by rw [tickN_env, answer]) [], next _ ⟨buf, latched, idx, timeout, log⟩ (by simp)⟩

/-- A sample whose answer is prescribed uses it up. -/
theorem ends_prescribed (m : Micro) (a : Bool) {c : UartCond} {l : List Bool} {s u : State} {Q : State → Prop} (polled : Polled s u)
    (sample : sampleOf m = some c) (script : u.env.answerScript = a :: l)
    (next : ∀ v, Polled s v → v.env.answerScript = l → Ends (afterSample m a) v Q) : Ends [m] u Q := by
  obtain ⟨answer, used⟩ := answer_script (c := c) script
  exact ends_sample polled sample answer fun v still env => next v still (env ▸ used)

theorem ends_enterComplete {s : State} {Q : State → Prop}
    (next : ∀ v, Polled s v → v.env = s.env → Ends [.completeErr] v Q) : Ends [.txEnterComplete] s Q :=
  ends_cons fun n =>
    have ⟨buf, latched, idx, timeout, log⟩ := polled_tickN (polled_refl s) n
    ⟨_, _, rfl, next _ ⟨buf, latched, idx, timeout, log⟩ (tickN_env n s)⟩

/-- `finish(st)` records its status and hands over nothing (R115). -/
theorem ends_finish {s u : State} (polled : Polled s u) (st : TransferStatus) :
    Ends (finish st) u fun t => t.txIdx = s.txIdx ∧ Result st [] u.env.answerScript s t :=
  ends_cons fun _ => ⟨_, _, rfl, ends_cons fun _ => ⟨_, _, rfl, ends_nil
    ⟨by simp [polled.idx], by simp, by simp [visible_tickN, polled.log], by simp⟩⟩⟩

theorem ends_result {s u : State} {answers : List Bool} (polled : Polled s u) (script : u.env.answerScript = answers)
    (st : TransferStatus) : Ends (finish st) u (Result st [] answers s) :=
  ends_mono (ends_finish polled st) fun _ ⟨_, result⟩ => script ▸ result

/-- `w` is `u` after byte `b` has been handed over and the index moved on (R116 (2)). -/
structure Wrote (b : Byte) (u w : State) : Prop where
  buf : w.txbuf = u.txbuf
  latched : w.txLen = u.txLen
  idx : w.txIdx = u.txIdx + 1
  log : visible w.log = visible u.log ++ [.uartWr b]
  env : w.env = u.env

theorem ends_write {u : State} {b : Byte} {Q : State → Prop} (byte : u.txbuf[u.txIdx.toNat]? = some b)
    (next : ∀ w, Wrote b u w → Ends (byteLoop w) w Q) : Ends [.txWrite, .txIdxIncr] u Q :=
  ends_cons fun n => ⟨_, _, runMicro_txWrite (by simpa using byte) _, ends_cons fun _ => ⟨_, _, rfl,
    next _ ⟨by simp, by simp, by simp, by simp [visible_tickN], by simp⟩⟩⟩

/-! ## Transmissions whose answers are known -/

/-- Settles O29: the exit follows the sample, and no position of it writes a byte. -/
theorem errorEndsTheTransmission : Obligations.ErrorEndsTheTransmission := by
  unfold Obligations.ErrorEndsTheTransmission
  intro timeout len data u position err
  have whole : (∃ t, Completes (.uartTx timeout len data) u t) ∧ ∀ t, Completes (.uartTx timeout len data) u t →
      ∃ w, (w.txIdx = u.txIdx ∧ Result .error [] (answered u.env).answerScript u w) ∧ t = complete (.uartTx timeout len data) w := by
    rcases position with h | h <;>
      exact completes_of_ends h (ends_sample (polled_refl u) rfl err fun v polled env => env ▸ ends_finish polled .error)
  refine ⟨whole.1, fun t ends => ?_⟩
  obtain ⟨w, ⟨idx, status, log, -⟩, rfl⟩ := whole.2 t ends
  exact ⟨status, idx, by simpa using log⟩

/-- A completion wait whose first two answers are 0 and 1 ends with Ok (R117). -/
theorem ends_complete {s : State} {rest : List Bool} (script : s.env.answerScript = false :: true :: rest) :
    Ends [.txEnterComplete] s (Result .ok [] rest s) :=
  ends_enterComplete fun _ polled env => ends_prescribed .completeErr false polled rfl (env ▸ script) fun _ polled script =>
    ends_prescribed .completePoll true polled rfl script fun _ polled script => ends_result polled script .ok

/-- Settles O31: after the two answers the timeout test of a timeout of 0 exits at once. -/
theorem zeroTimeoutEndsAtOnce : Obligations.ZeroTimeoutEndsAtOnce := by
  unfold Obligations.ZeroTimeoutEndsAtOnce
  intro len data s rest nonempty idle script
  refine completes_without_bytes (st := .timeout) idle fun v entry => ?_
  rw [byteLoop_first entry.latched entry.first, if_neg nonempty]
  refine ends_prescribed .readyErr false (polled_refl v) rfl (entry.env ▸ script) fun u polled script =>
    ends_prescribed .readyPoll false polled rfl script fun u polled script => ends_cons fun n => ?_
  have polled := polled_tickN polled n
  have late := timedOut_of_zero (polled.timeout.trans entry.timeout)
  exact ⟨_, _, runMicro_readyTime_late late [], ends_result polled (by simpa using script) .timeout⟩

/-- With `k` bytes left and every answer in its favour a transmission hands them over in order, whatever the timeout (R119 (b)). -/
theorem ends_served {k : Nat} {v : State} {rest : List Bool} (full : v.txbuf.length = v.txLen.toNat)
    (left : v.txIdx.toNat + k = v.txLen.toNat)
    (script : v.env.answerScript = (List.replicate (k + 1) [false, true]).flatten ++ rest) :
    Ends (byteLoop v) v (Result .ok (v.txbuf.drop v.txIdx.toNat) rest v) := by
  induction k generalizing v with
  | zero =>
    rw [byteLoop_done (by bv_omega), List.drop_eq_nil_of_le (by omega)]
    exact ends_complete script
  | succ k ih =>
    have inside : v.txIdx.toNat < v.txbuf.length := by omega
    rw [byteLoop_more (by bv_omega)]
    refine ends_prescribed .readyErr false (polled_refl v) rfl script fun u polled script =>
      ends_prescribed .readyPoll true polled rfl script fun u polled script =>
      ends_write (b := v.txbuf[v.txIdx.toNat]) (by rw [polled.buf, polled.idx, List.getElem?_eq_getElem inside]) fun w wrote => ?_
    have buf := wrote.buf.trans polled.buf
    have latched := wrote.latched.trans polled.latched
    have idx : w.txIdx.toNat = v.txIdx.toNat + 1 := by rw [wrote.idx, polled.idx]; bv_omega
    have served := ih (v := w) (by rw [buf, latched, full]) (by rw [latched]; omega) (wrote.env ▸ script)
    refine ends_mono served fun t ⟨status, log, used⟩ => ⟨status, ?_, used⟩
    rw [log, wrote.log, polled.log, buf, idx, List.drop_eq_getElem_cons inside, List.map_cons, List.append_assoc]
    rfl

/-- Settles O32: the byte loop from index 0 on, every byte left. -/
theorem readyIsServedWhateverTheTimeout : Obligations.ReadyIsServedWhateverTheTimeout := by
  unfold Obligations.ReadyIsServedWhateverTheTimeout
  intro timeout len data s rest wf idle script
  have length := wellFormed_uartTx_iff.mp wf
  refine completes_of_ends_byteLoop (st := .ok) idle fun v entry => ?_
  have served := ends_served (k := len.toNat) (v := v) (rest := rest) (by rw [entry.buf, entry.latched, length])
    (by simp [entry.first, entry.latched]) (entry.env ▸ script)
  simpa [entry.buf, entry.first] using served

/-! ## The positions of a transmission -/

/-- Where UART.TX can stand after its first micro-step, from whatever state it was begun in: `rest` remains of it, and `k` bytes have been
handed over (R115 to R118). -/
inductive Sending (len : Half) (k : Nat) (s : State) : List Micro → Prop where
  | lenSet (none : k = 0) : Sending len k s [.txLenSet len, .txIdxZero, .txStartSample, .txEnterReady]
  | idxZero (none : k = 0) (latched : s.txLen = len) : Sending len k s [.txIdxZero, .txStartSample, .txEnterReady]
  | startSample (count : s.txIdx.toNat = k) (latched : s.txLen = len) (first : s.txIdx = 0) :
      Sending len k s [.txStartSample, .txEnterReady]
  | enterReady (count : s.txIdx.toNat = k) (latched : s.txLen = len) (first : s.txIdx = 0) : Sending len k s [.txEnterReady]
  | poll {m : Micro} (hm : m = .readyErr ∨ m = .readyPoll ∨ m = .readyTime) (count : s.txIdx.toNat = k) (latched : s.txLen = len)
      (more : s.txIdx < len) : Sending len k s [m]
  | write (count : s.txIdx.toNat = k) (latched : s.txLen = len) (more : s.txIdx < len) : Sending len k s [.txWrite, .txIdxIncr]
  | idxIncr (count : s.txIdx.toNat + 1 = k) (latched : s.txLen = len) (more : s.txIdx < len) : Sending len k s [.txIdxIncr]
  | wait {m : Micro} (hm : m = .txEnterComplete ∨ m = .completeErr ∨ m = .completePoll ∨ m = .completeTime)
      (count : s.txIdx.toNat = k) (all : s.txIdx = len) : Sending len k s [m]
  | exit {st : TransferStatus} (count : s.txIdx.toNat = k) (bound : s.txIdx ≤ len) (ok : st = .ok → s.txIdx = len) :
      Sending len k s (finish st)
  | recorded {st : TransferStatus} (count : s.txIdx.toNat = k) (bound : s.txIdx ≤ len) (ok : st = .ok → s.txIdx = len)
      (status : s.resStatus = statusCode st) : Sending len k s [.txEnterIdle]
  | ended {st : TransferStatus} (count : s.txIdx.toNat = k) (bound : s.txIdx ≤ len) (ok : st = .ok → s.txIdx = len)
      (status : s.resStatus = statusCode st) (idle : s.txState = .idle) : Sending len k s []

/-- A position depends neither on `TICK` and `LOG` nor on SEQ. -/
theorem sending_with {len : Half} {rest : List Micro} {k : Nat} {s : State} (h : Sending len k s rest) (tick : Tick) (log : List Event)
    (q : Seq) : Sending len k { s with tick := tick, log := log, seq := q } rest := by
  cases h with
  | lenSet none => exact .lenSet none
  | idxZero none latched => exact .idxZero none latched
  | startSample count latched first => exact .startSample count latched first
  | enterReady count latched first => exact .enterReady count latched first
  | poll hm count latched more => exact .poll hm count latched more
  | write count latched more => exact .write count latched more
  | idxIncr count latched more => exact .idxIncr count latched more
  | wait hm count all => exact .wait hm count all
  | exit count bound ok => exact .exit count bound ok
  | recorded count bound ok status => exact .recorded count bound ok status
  | ended count bound ok status idle => exact .ended count bound ok status idle

theorem sending_tickN {len : Half} {rest : List Micro} {k : Nat} {s : State} (h : Sending len k s rest) (n : Nat) :
    Sending len k (tickN n s) rest := by
  rw [tickN_eq]
  exact sending_with h _ _ s.seq

/-- The test of the byte loop leads to a poll or to the completion wait (R115). -/
theorem sending_byteLoop {len : Half} {k : Nat} {s : State} (count : s.txIdx.toNat = k) (latched : s.txLen = len)
    (bound : s.txIdx ≤ len) : Sending len k s (byteLoop s) := by
  by_cases more : s.txIdx < len
  · rw [byteLoop_more (latched ▸ more)]
    exact .poll (.inl rfl) count latched more
  · rw [byteLoop_done (latched ▸ more)]
    exact .wait (.inl rfl) count (BitVec.le_antisymm bound (BitVec.not_lt.mp more))

/-- What a transmission from `s` that has handed over `k` bytes of `data` leaves. -/
structure Sent (data : List Byte) (s : State) (k : Nat) (u : State) : Prop where
  buf : u.txbuf = data
  log : visible u.log = visible s.log ++ (data.take k).map Event.uartWr
  host : u.host = s.host

theorem sent_tickN {data : List Byte} {k : Nat} {s u : State} (h : Sent data s k u) (n : Nat) : Sent data s k (tickN n u) :=
  ⟨(tickN_txbuf n u).trans h.buf, (visible_tickN n u).trans h.log, (tickN_host n u).trans h.host⟩

theorem sent_write {data : List Byte} {k : Nat} {s u : State} {b : Byte} (h : Sent data s k u) (byte : u.txbuf[k]? = some b) :
    Sent data s (k + 1) (uartWrite b u) := by
  refine ⟨h.buf, ?_, h.host⟩
  rw [uartWrite_log, visible_append, h.log, List.take_add_one, ← h.buf, byte]
  simp

/-- From each of its positions a transmission goes to another of them or to its end; only the write hands over a byte, the next one of the
data. -/
theorem sending_step {len : Half} {data : List Byte} {m : Micro} {ms r : List Micro} {k : Nat} {s u v : State}
    (h : Sending len k u (m :: ms)) (sent : Sent data s k u) (one : runMicro m ms u = .ok (v, r)) :
    ∃ k', Sending len k' v r ∧ Sent data s k' v := by
  have ⟨buf, log, host⟩ := sent
  cases h with
  | lenSet none => cases one; exact ⟨k, .idxZero none rfl, buf, log, host⟩
  | idxZero none latched => cases one; exact ⟨k, .startSample none.symm latched rfl, buf, log, host⟩
  | startSample count latched first => cases one; exact ⟨k, .enterReady count latched first, buf, log, host⟩
  | enterReady count latched first =>
    cases one
    have bound : u.txIdx ≤ len := by bv_omega
    exact ⟨k, sending_byteLoop (s := { u with txState := .waitReady }) count latched bound, buf, log, host⟩
  | poll hm count latched more =>
    have bound := BitVec.le_of_lt more
    rcases hm with rfl | rfl | rfl
    · cases one
      split
      · exact ⟨k, .exit count bound (fun e => nomatch e), buf, log, host⟩
      · exact ⟨k, .poll (.inr (.inl rfl)) count latched more, buf, log, host⟩
    · cases one
      split
      · exact ⟨k, .write count latched more, buf, log, host⟩
      · exact ⟨k, .poll (.inr (.inr rfl)) count latched more, buf, log, host⟩
    · cases one
      split
      · exact ⟨k, .exit count bound (fun e => nomatch e), sent⟩
      · exact ⟨k, sending_byteLoop count latched bound, sent⟩
  | write count latched more =>
    obtain ⟨b, byte, rfl, rfl⟩ := runMicro_txWrite_ok one
    exact ⟨k + 1, .idxIncr (congrArg (· + 1) count) latched more, sent_write sent (count ▸ byte)⟩
  | idxIncr count latched more =>
    cases one
    have next : (u.txIdx + 1).toNat = k := by bv_omega
    have bound : u.txIdx + 1 ≤ len := by bv_omega
    exact ⟨k, sending_byteLoop (s := { u with txIdx := u.txIdx + 1 }) next latched bound, buf, log, host⟩
  | wait hm count all =>
    have bound : u.txIdx ≤ len := all ▸ BitVec.le_refl _
    rcases hm with rfl | rfl | rfl | rfl
    · cases one
      exact ⟨k, .wait (.inr (.inl rfl)) count all, buf, log, host⟩
    · cases one
      split
      · exact ⟨k, .exit count bound (fun e => nomatch e), buf, log, host⟩
      · exact ⟨k, .wait (.inr (.inr (.inl rfl))) count all, buf, log, host⟩
    · cases one
      split
      · exact ⟨k, .exit count bound (fun _ => all), buf, log, host⟩
      · exact ⟨k, .wait (.inr (.inr (.inr rfl))) count all, buf, log, host⟩
    · cases one
      split
      · exact ⟨k, .exit count bound (fun e => nomatch e), sent⟩
      · exact ⟨k, .wait (.inr (.inl rfl)) count all, sent⟩
  | exit count bound ok => cases one; exact ⟨k, .recorded count bound ok rfl, buf, log, host⟩
  | recorded count bound ok status => cases one; exact ⟨k, .ended count bound ok status rfl, buf, log, host⟩

theorem sending_microRun {len : Half} {data : List Byte} {rest : List Micro} {k : Nat} {s u t : State} (run : MicroRun rest u t)
    (h : Sending len k u rest) (sent : Sent data s k u) : ∃ k', Sending len k' t [] ∧ Sent data s k' t := by
  induction run generalizing k with
  | done u => exact ⟨k, h, sent⟩
  | step n one _ ih =>
    obtain ⟨k', h', sent'⟩ := sending_step (sending_tickN h n) (sent_tickN sent n) one
    exact ih h' sent'

/-! ## A transmission can end -/

theorem microRun_now {m : Micro} {rest r : List Micro} {s u t : State} (one : runMicro m rest s = .ok (u, r)) (after : MicroRun r u t) :
    MicroRun (m :: rest) s t := .step 0 (by rw [tickN_zero]; exact one) after

/-- A sample can be followed to the end if both its answers can. -/
theorem can_end_sample {m : Micro} {c : UartCond} {s : State} (sample : sampleOf m = some c)
    (next : ∀ a, ∃ t, MicroRun (afterSample m a) (sampled s) t) : ∃ t, MicroRun [m] s t := by
  obtain ⟨t, after⟩ := next (answerOf c s.env)
  exact ⟨t, microRun_now (runMicro_sample sample rfl []) after⟩

/-- TMR can take enough steps before a timeout test (R101). -/
theorem can_end_test {m : Micro} {s : State} (armed : s.timerArmed = true)
    (late : ∀ u, TimedOut u → runMicro m [] u = .ok (u, finish .timeout)) : ∃ t, MicroRun [m] s t := by
  obtain ⟨n, enough⟩ := can_elapse s armed s.txStart s.txTimeout
  obtain ⟨t, after⟩ := can_finish .timeout (s := tickN n s)
  exact ⟨t, .step n (late _ (elapsedAtLeast_iff_timedOut.mp (by simpa using enough))) after⟩

/-- With the timer armed the completion wait can end whatever is answered (R117). -/
theorem can_end_wait {s : State} (armed : s.timerArmed = true) : ∃ t, MicroRun [.completeErr] s t := by
  refine can_end_sample rfl fun err => ?_
  cases err with
  | true => exact can_finish .error
  | false =>
    refine can_end_sample rfl fun complete => ?_
    cases complete with
    | true => exact can_finish .ok
    | false => exact can_end_test armed fun u late => runMicro_completeTime_late late []

theorem can_end_write {u : State} {b : Byte} (byte : u.txbuf[u.txIdx.toNat]? = some b)
    (next : ∃ t, MicroRun (byteLoop { uartWrite b u with txIdx := u.txIdx + 1 }) { uartWrite b u with txIdx := u.txIdx + 1 } t) :
    ∃ t, MicroRun [.txWrite, .txIdxIncr] u t := by
  obtain ⟨t, after⟩ := next
  exact ⟨t, microRun_now (runMicro_txWrite byte _) (microRun_now rfl after)⟩

/-- With the timer armed and `k` bytes left the byte loop can end whatever is answered (R116). -/
theorem can_end_byteLoop {k : Nat} {s : State} (armed : s.timerArmed = true) (full : s.txbuf.length = s.txLen.toNat)
    (left : s.txIdx.toNat + k = s.txLen.toNat) : ∃ t, MicroRun (byteLoop s) s t := by
  induction k generalizing s with
  | zero =>
    rw [byteLoop_done (by bv_omega)]
    obtain ⟨t, after⟩ := can_end_wait (s := { s with txState := .waitComplete }) armed
    exact ⟨t, microRun_now rfl after⟩
  | succ k ih =>
    rw [byteLoop_more (by bv_omega)]
    refine can_end_sample rfl fun err => ?_
    cases err with
    | true => exact can_finish .error
    | false =>
      refine can_end_sample rfl fun ready => ?_
      cases ready with
      | true =>
        have inside : s.txIdx.toNat < s.txbuf.length := by omega
        have next : (s.txIdx + 1).toNat + k = s.txLen.toNat := by bv_omega
        exact can_end_write (u := sampled (sampled s)) (List.getElem?_eq_getElem inside)
          (ih (s := { uartWrite _ (sampled (sampled s)) with txIdx := s.txIdx + 1 }) armed full next)
      | false => exact can_end_test armed fun u late => runMicro_readyTime_late late []

/-- Settles O28: with the timer armed every poll can be brought to an end; and the positions of a transmission count the bytes handed
over. -/
theorem transmitWritesAPrefix : Obligations.TransmitWritesAPrefix := by
  unfold Obligations.TransmitWritesAPrefix
  refine fun timeout len data s wf idle => ⟨fun armed => ?canEnd, fun t whole => ?ended⟩
  case canEnd =>
    have length := wellFormed_uartTx_iff.mp wf
    exact tx_start idle fun v buf latched first _ timer _ _ _ => can_end_byteLoop (k := len.toNat) (timer.trans armed)
      (by rw [buf, latched, length]) (by simp [first, latched])
  case ended =>
    obtain ⟨w, run, rfl⟩ := (completes_idle idle rfl).mp whole
    obtain ⟨n, u, r, one, after⟩ := microRun_cons.mp run
    cases one
    obtain ⟨k, stands, -, log, host⟩ := sending_microRun (data := data) (s := s) after (.lenSet rfl)
      ⟨rfl, by simp [visible_tickN], tickN_host n s⟩
    cases stands with
    | @ended st count bound ok status txIdle =>
      simp only [complete_txIdx, complete_log, complete_resStatus, complete_txState, complete_host]
      refine ⟨st, BitVec.le_def.mp bound, fun e => congrArg BitVec.toNat (ok e), by rw [log, count], status, txIdle, ?_⟩
      rw [response, status, host]

/-! ## The empty transmission -/

/-- Where a command that stands at one of a transmission's positions comes to. -/
theorem sending_reaches {i : Instr} {len : Half} {data : List Byte} {rest : List Micro} {k : Nat} {s u v : State}
    (reach : Reaches i u v) (hs : u.seq = .busy i rest) (h : Sending len k u rest) (sent : Sent data s k u) :
    ∃ k' rest', v.seq = .busy i rest' ∧ Sending len k' v rest' := by
  induction reach generalizing k rest with
  | here u => exact ⟨k, rest, hs, h⟩
  | @more u w v n run going _ ih =>
    rw [exec_busy ((tickN_seq n u).trans hs)] at run
    cases rest with
    | nil => cases run; exact absurd rfl going
    | cons m ms =>
      obtain ⟨x, r, one, rfl⟩ := advance_next run
      obtain ⟨k', h', buf, log, host⟩ := sending_step (sending_tickN h n) (sent_tickN sent n) one
      cases r with
      | nil => exact absurd rfl going
      | cons m' ms' => exact ih rfl (sending_with h' x.tick x.log _) ⟨buf, log, host⟩

/-- An empty transmission stands at no sample of the ready condition: its index is never below its length (R121). -/
theorem sending_empty_ne_ready {k : Nat} {s : State} {m : Micro} {ms : List Micro} (h : Sending 0 k s (m :: ms)) :
    sampleOf m ≠ some .ready := by
  cases h with
  | poll hm count latched more => exact absurd more (by simp)
  | wait hm count all => rcases hm with rfl | rfl | rfl | rfl <;> simp [sampleOf]
  | write count latched more => exact absurd more (by simp)
  | idxIncr count latched more => exact absurd more (by simp)
  | lenSet => simp [sampleOf]
  | idxZero => simp [sampleOf]
  | startSample => simp [sampleOf]
  | enterReady => simp [sampleOf]
  | exit => simp [sampleOf]
  | recorded => simp [sampleOf]

theorem empty_cannot_sample_ready {timeout : Tick} {s : State} {a : Bool} (idle : s.seq = .idle) :
    ¬ CanSample (.uartTx timeout 0 []) .ready a s := by
  rintro ⟨u, m, ms, reach, hs, sample, -⟩
  cases reach with
  | here => cases idle.symm.trans hs
  | more n run going after =>
    rw [exec_idle_first ((tickN_seq n s).trans idle) rfl rfl] at run
    cases run
    obtain ⟨k, rest, hs', stands⟩ := sending_reaches (data := []) (s := s) after rfl (.lenSet rfl)
      ⟨rfl, by simp [settle, visible_tickN], tickN_host n s⟩
    cases hs.symm.trans hs'
    exact sending_empty_ne_ready stands sample

theorem byteLoop_empty {timeout : Tick} {data : List Byte} {s v : State} (entry : EntersLoop timeout 0 data s v) :
    byteLoop v = [.txEnterComplete] := byteLoop_first entry.latched entry.first

/-- Settles O30: no position samples the ready condition; and the completion wait, entered at once, ends with the answers. -/
theorem emptyTransmission : Obligations.EmptyTransmission := by
  unfold Obligations.EmptyTransmission
  refine ⟨fun timeout s a idle => empty_cannot_sample_ready idle,
    fun timeout s rest idle => ⟨fun script => ?ok, fun script => ?error⟩⟩
  case ok =>
    exact completes_without_bytes (st := .ok) idle fun v entry => byteLoop_empty entry ▸ ends_complete (entry.env ▸ script)
  case error =>
    exact completes_without_bytes (st := .error) idle fun v entry =>
      byteLoop_empty entry ▸ ends_enterComplete fun _ polled env =>
        ends_prescribed .completeErr true polled rfl (env ▸ entry.env ▸ script) fun _ polled script => ends_result polled script .error

end Sys2Proof.Proofs.Transmission
end

section
/-! UART.TX while the timer is not armed (41_seriallink.md R124): `TICK` stands at the start sample, so no timeout test exits, and only an
answer of 1 to an error sample or to the awaited condition leads on. -/

namespace Sys2Proof.Proofs.StalledTransmission

open Sys2Proof.Machine Sys2Proof.Safety Sys2Proof.Proofs.TickClock Sys2Proof.Proofs.UartTx Sys2Proof.Proofs.Transmission

/-- The timer is not armed and the timeout of the transmission under way is above 0. -/
structure Unarmed (s : State) : Prop where
  unarmed : s.timerArmed = false
  positive : s.txTimeout ≠ 0

theorem not_timedOut_at_start {s : State} (h : Unarmed s) (start : s.txStart = s.tick) : ¬ TimedOut s := by
  simpa [TimedOut, start, ← BitVec.toNat_inj] using h.positive

/-- Where an unarmed transmission can stand that has met no answer of 1 but to the ready condition; where `c` is the ready condition, not to
that either, so that it is in the byte loop still. -/
inductive Waiting (c : UartCond) (s : State) : List Micro → Prop where
  | latching {len : Half} {rest : List Micro} (whole : c = .complete)
      (hr : rest = [.txLenSet len, .txIdxZero, .txStartSample, .txEnterReady] ∨ rest = [.txIdxZero, .txStartSample, .txEnterReady] ∨
        rest = [.txStartSample, .txEnterReady]) : Waiting c s rest
  | poll {m : Micro} (start : s.txStart = s.tick) (hm : m = .readyErr ∨ m = .readyPoll ∨ m = .readyTime)
      (within : c = .ready ∧ s.txIdx < s.txLen ∨ c = .complete) : Waiting c s [m]
  | write (start : s.txStart = s.tick) (whole : c = .complete) : Waiting c s [.txWrite, .txIdxIncr]
  | onward {m : Micro} (start : s.txStart = s.tick) (whole : c = .complete)
      (hm : m = .txEnterReady ∨ m = .txIdxIncr ∨ m = .txEnterComplete ∨ m = .completeErr ∨ m = .completePoll ∨
        m = .completeTime) : Waiting c s [m]

theorem waiting_withSeq {c : UartCond} {s : State} {rest : List Micro} (h : Waiting c s rest) (q : Seq) : Waiting c (withSeq q s) rest := by
  cases h with
  | latching whole hr => exact .latching whole hr
  | poll start hm within => exact .poll start hm within
  | write start whole => exact .write start whole
  | onward start whole hm => exact .onward start whole hm

theorem waiting_byteLoop {c : UartCond} {s : State} (start : s.txStart = s.tick)
    (within : c = .ready ∧ s.txIdx < s.txLen ∨ c = .complete) : Waiting c s (byteLoop s) := by
  by_cases more : s.txIdx < s.txLen
  · rw [byteLoop_more more]
    exact .poll start (.inl rfl) within
  · rw [byteLoop_done more]
    exact .onward start (within.resolve_left fun h => more h.2) (.inr (.inr (.inl rfl)))

theorem waiting_ne_nil {c : UartCond} {s : State} : ¬ Waiting c s [] := by
  rintro ⟨-, e | e | e⟩ <;> cases e

/-- FG is about to take a sample of the error condition or of condition `c` that is answered 1. -/
def AnsweredOne (c : UartCond) (m : Micro) (s : State) : Prop :=
  sampleOf m = some .err ∧ answerOf .err s.env = true ∨ sampleOf m = some c ∧ answerOf c s.env = true

/-- Until a sample is answered 1 an unarmed transmission comes from one of its positions to another. -/
theorem waiting_step {c : UartCond} {s u : State} {m : Micro} {ms r : List Micro} (h : Waiting c s (m :: ms)) (still : Unarmed s)
    (one : runMicro m ms s = .ok (u, r)) : AnsweredOne c m s ∨ Unarmed u ∧ Waiting c u r := by
  have ⟨unarmed, positive⟩ := still
  cases h with
  | latching whole hr =>
    right
    rcases hr with e | e | e <;> cases e <;> cases one
    · exact ⟨⟨unarmed, positive⟩, .latching (len := 0) whole (.inr (.inl rfl))⟩
    · exact ⟨⟨unarmed, positive⟩, .latching (len := 0) whole (.inr (.inr rfl))⟩
    · exact ⟨⟨unarmed, positive⟩, .onward rfl whole (.inl rfl)⟩
  | poll start hm within =>
    rcases hm with rfl | rfl | rfl
    · cases answer : answerOf .err s.env with
      | true => exact .inl (.inl ⟨rfl, answer⟩)
      | false =>
        cases (runMicro_sample rfl answer []).symm.trans one
        exact .inr ⟨⟨unarmed, positive⟩, .poll start (.inr (.inl rfl)) within⟩
    · cases answer : answerOf .ready s.env with
      | true =>
        rcases within with ⟨rfl, -⟩ | whole
        · exact .inl (.inr ⟨rfl, answer⟩)
        · cases (runMicro_sample rfl answer []).symm.trans one
          exact .inr ⟨⟨unarmed, positive⟩, .write start whole⟩
      | false =>
        cases (runMicro_sample rfl answer []).symm.trans one
        exact .inr ⟨⟨unarmed, positive⟩, .poll start (.inr (.inr rfl)) within⟩
    · cases (runMicro_readyTime_early (not_timedOut_at_start still start) []).symm.trans one
      exact .inr ⟨still, waiting_byteLoop start within⟩
  | write start whole =>
    obtain ⟨b, -, rfl, rfl⟩ := runMicro_txWrite_ok one
    exact .inr ⟨⟨unarmed, positive⟩, .onward start whole (.inr (.inl rfl))⟩
  | onward start whole hm =>
    rcases hm with rfl | rfl | rfl | rfl | rfl | rfl
    · cases one
      exact .inr ⟨⟨unarmed, positive⟩, waiting_byteLoop (s := { s with txState := .waitReady }) start (.inr whole)⟩
    · cases one
      exact .inr ⟨⟨unarmed, positive⟩, waiting_byteLoop (s := { s with txIdx := s.txIdx + 1 }) start (.inr whole)⟩
    · cases one
      exact .inr ⟨⟨unarmed, positive⟩, .onward start whole (.inr (.inr (.inr (.inl rfl))))⟩
    · cases answer : answerOf .err s.env with
      | true => exact .inl (.inl ⟨rfl, answer⟩)
      | false =>
        cases (runMicro_sample rfl answer []).symm.trans one
        exact .inr ⟨⟨unarmed, positive⟩, .onward start whole (.inr (.inr (.inr (.inr (.inl rfl)))))⟩
    · cases answer : answerOf .complete s.env with
      | true => exact .inl (.inr ⟨by rw [whole]; rfl, by rw [whole]; exact answer⟩)
      | false =>
        cases (runMicro_sample rfl answer []).symm.trans one
        exact .inr ⟨⟨unarmed, positive⟩, .onward start whole (.inr (.inr (.inr (.inr (.inr rfl)))))⟩
    · cases (runMicro_completeTime_early (not_timedOut_at_start still start) []).symm.trans one
      exact .inr ⟨still, .onward start whole (.inr (.inr (.inr (.inl rfl))))⟩

/-- An unarmed transmission that ends comes through a sample answered 1: of the error condition, or of the awaited one. -/
theorem completes_through_answer {i : Instr} {c : UartCond} {s t : State} (whole : Completes i s t) {m : Micro} {ms : List Micro}
    (hs : s.seq = .busy i (m :: ms)) (still : Unarmed s) (stands : Waiting c s (m :: ms)) :
    ∃ u m' ms', Reaches i s u ∧ u.seq = .busy i (m' :: ms') ∧ AnsweredOne c m' u ∧ Completes i u t := by
  induction whole generalizing m ms with
  | @last s t n run ended =>
    have run' := run
    rw [tickN_unarmed still.unarmed, exec_busy hs] at run'
    obtain ⟨u, r, one, rfl⟩ := advance_next run'
    rcases waiting_step stands still one with answered | ⟨-, next⟩
    · exact ⟨s, m, ms, .here s, hs, answered, .last n run ended⟩
    · cases r with
      | nil => exact absurd next waiting_ne_nil
      | cons => cases ended
  | @more s v t n run going after ih =>
    have run' := run
    rw [tickN_unarmed still.unarmed, exec_busy hs] at run'
    obtain ⟨u, r, one, rfl⟩ := advance_next run'
    rcases waiting_step stands still one with answered | ⟨still', next⟩
    · exact ⟨s, m, ms, .here s, hs, answered, .more n run going after⟩
    · cases r with
      | nil => exact absurd rfl going
      | cons m' ms' =>
        obtain ⟨w, m'', ms'', reach, rest⟩ := ih rfl ⟨still'.unarmed, still'.positive⟩ (waiting_withSeq next _)
        exact ⟨w, m'', ms'', .more n run going reach, rest⟩

theorem canSample_of_answeredOne {i : Instr} {c : UartCond} {s u : State} {m : Micro} {ms : List Micro} (reach : Reaches i s u)
    (hs : u.seq = .busy i (m :: ms)) (h : AnsweredOne c m u) : CanSample i .err true s ∨ CanSample i c true s :=
  h.imp (fun ⟨sample, answer⟩ => ⟨u, m, ms, reach, hs, sample, answer⟩)
    fun ⟨sample, answer⟩ => ⟨u, m, ms, reach, hs, sample, answer⟩

/-- An answer of 1 to an error sample or a complete sample leads to the exit, but not with Timeout (R116 (1), R117). -/
theorem afterSample_answeredOne {m : Micro} {s : State} (h : AnsweredOne .complete m s) (rest : List Micro) :
    ∃ st, st ≠ .timeout ∧ ∀ n, runMicro m rest (tickN n s) = .ok (sampled (tickN n s), finish st) := by
  have sampleOne {c : UartCond} (sample : sampleOf m = some c) (answer : answerOf c s.env = true) (n : Nat) :=
    runMicro_sample sample ((congrArg (answerOf c) (tickN_env n s)).trans answer) rest
  rcases h with ⟨sample, answer⟩ | ⟨sample, answer⟩
  · refine ⟨.error, by simp, fun n => ?_⟩
    rw [sampleOne sample answer n]
    cases m
    case readyErr => rfl
    case completeErr => rfl
    all_goals cases sample
  · refine ⟨.ok, by simp, fun n => ?_⟩
    rw [sampleOne sample answer n]
    cases m
    case completePoll => rfl
    all_goals cases sample

theorem status_of_answeredOne {i : Instr} {m : Micro} {ms : List Micro} {s t : State} (hs : s.seq = .busy i (m :: ms))
    (h : AnsweredOne .complete m s) (whole : Completes i s t) : t.resStatus ≠ 2 := by
  obtain ⟨st, other, exits⟩ := afterSample_answeredOne h ms
  have ends : Ends (m :: ms) s fun t => t.resStatus = statusCode st := ends_cons fun n =>
    ⟨_, _, exits n, ends_mono (ends_finish (polled_refl _) st) fun _ ⟨_, status, _⟩ => status⟩
  obtain ⟨u, status, rfl⟩ := (completes_of_ends hs ends).2 t whole
  rw [complete_resStatus, status]
  cases st with
  | ok => decide
  | error => decide
  | timeout => exact absurd rfl other

/-! ## Polls answered 0 -/

theorem step_unarmed {i : Instr} {m : Micro} {ms r : List Micro} {s u : State} (unarmed : s.timerArmed = false)
    (one : runMicro m ms s = .ok (u, r)) (going : r ≠ []) :
    step (withSeq (.busy i (m :: ms)) s) = .next (withSeq (.busy i r) u) := by
  rw [step_busy rfl, tmr_unarmed (by exact unarmed), exec_busy_going rfl (runMicro_withSeq_ok one _) going, withSeq_withSeq]

theorem answered_script {e : Environment} {a : Bool} {l : List Bool} (h : e.answerScript = a :: l) :
    answered e = { e with answerScript := l } := by simp [answered, h]

/-- Three steps are one poll answered 0: two samples, and a timeout test that does not exit. They use up two answers. -/
theorem run_poll {i : Instr} {m1 m2 m3 : Micro} {c1 c2 : UartCond} {l : List Bool} {s : State} (hs : s.seq = .busy i [m1])
    (unarmed : s.timerArmed = false) (script : s.env.answerScript = false :: false :: l) (sample1 : sampleOf m1 = some c1)
    (to2 : afterSample m1 false = [m2]) (sample2 : sampleOf m2 = some c2) (to3 : afterSample m2 false = [m3])
    (test : ∀ e, runMicro m3 [] { s with env := e } = .ok ({ s with env := e }, [m1])) (k : Nat) :
    core.run (k + 3) s = core.run k { s with env := { s.env with answerScript := l } } := by
  obtain ⟨answer1, script1⟩ := answer_script (c := c1) script
  obtain ⟨answer2, -⟩ := answer_script (c := c2) (e := (sampled s).env) script1
  have first : step (withSeq (.busy i [m1]) s) = .next (withSeq (.busy i [m2]) (sampled s)) :=
    step_unarmed unarmed (to2 ▸ runMicro_sample sample1 answer1 []) (List.cons_ne_nil _ _)
  have second : step (withSeq (.busy i [m2]) (sampled s)) = .next (withSeq (.busy i [m3]) (sampled (sampled s))) :=
    step_unarmed unarmed (to3 ▸ runMicro_sample sample2 answer2 []) (List.cons_ne_nil _ _)
  have third : step (withSeq (.busy i [m3]) (sampled (sampled s))) = .next (withSeq (.busy i [m1]) (sampled (sampled s))) :=
    step_unarmed unarmed (test _) (List.cons_ne_nil _ _)
  have back : sampled (sampled s) = { s with env := { s.env with answerScript := l } } := by
    rw [sampled, sampled, answered_script script, answered_script rfl]
  rw [← hs, withSeq_self] at first
  rw [run_of_step first, run_of_step second, run_of_step third, back, ← hs]
  rfl

/-- Any number of polls answered 0 lead back to where they began. -/
theorem run_polls {i : Instr} {m1 m2 m3 : Micro} {c1 c2 : UartCond} {rest : List Bool} {polls : Nat} {s : State}
    (hs : s.seq = .busy i [m1]) (unarmed : s.timerArmed = false)
    (script : s.env.answerScript = List.replicate (2 * polls) false ++ rest) (sample1 : sampleOf m1 = some c1)
    (to2 : afterSample m1 false = [m2]) (sample2 : sampleOf m2 = some c2) (to3 : afterSample m2 false = [m3])
    (test : ∀ e, runMicro m3 [] { s with env := e } = .ok ({ s with env := e }, [m1])) :
    core.run (3 * polls) s = .next { s with env := { s.env with answerScript := rest } } := by
  induction polls generalizing s with
  | zero =>
    obtain rfl : s.env.answerScript = rest := by simpa using script
    rfl
  | succ polls ih =>
    rw [Nat.mul_succ, run_poll hs unarmed (script.trans rfl) sample1 to2 sample2 to3 test]
    exact ih hs unarmed rfl test

/-- An unarmed transmission begun by an idle FG can end only through an error or a complete sample answered 1. -/
theorem stalled_from_idle {timeout : Tick} {len : Half} {data : List Byte} {s t : State} (positive : timeout ≠ 0)
    (unarmed : s.timerArmed = false) (idle : s.seq = .idle) (whole : Completes (.uartTx timeout len data) s t) :
    t.resStatus ≠ 2 ∧ (CanSample (.uartTx timeout len data) .err true s ∨ CanSample (.uartTx timeout len data) .complete true s) := by
  have first : exec (.uartTx timeout len data) s = .next _ := exec_idle_first idle rfl rfl
  cases whole with
  | last n run ended =>
    rw [tickN_unarmed unarmed, first] at run
    cases run
    cases ended
  | more n run going after =>
    have run' := run
    rw [tickN_unarmed unarmed, first] at run'
    cases run'
    obtain ⟨u, m, ms, reach, hs, answered, rest⟩ := completes_through_answer (c := .complete) after rfl ⟨unarmed, positive⟩
      (.latching (len := len) rfl (.inl rfl))
    exact ⟨status_of_answeredOne hs answered rest, canSample_of_answeredOne (.more n run going reach) hs answered⟩

/-- Settles O34: `TICK` stands at the start sample, so the timeout test leads back to the poll, and only a sample answered 1 leads on. -/
theorem noTimeoutWithoutTheTimer : Obligations.NoTimeoutWithoutTheTimer := by
  unfold Obligations.NoTimeoutWithoutTheTimer
  refine fun timeout len data s positive unarmed => ⟨fun idle t whole => stalled_from_idle positive unarmed idle whole,
    fun hs latched start more => ⟨fun t whole => ?readyEnds, fun polls rest script => ?readyPolls⟩,
    fun hs latched start => ⟨fun t whole => ?completeEnds, fun polls rest script => ?completePolls⟩⟩
  all_goals have still : Unarmed s := ⟨unarmed, latched ▸ positive⟩
  case readyEnds =>
    obtain ⟨u, m, ms, reach, hu, answered, -⟩ := completes_through_answer whole hs still (.poll start (.inl rfl) (.inl ⟨rfl, more⟩))
    exact canSample_of_answeredOne reach hu answered
  case completeEnds =>
    obtain ⟨u, m, ms, reach, hu, answered, -⟩ := completes_through_answer whole hs still
      (.onward start rfl (.inr (.inr (.inr (.inl rfl)))))
    exact canSample_of_answeredOne reach hu answered
  case readyPolls =>
    refine run_polls hs unarmed script (m2 := .readyPoll) (m3 := .readyTime) rfl rfl rfl rfl fun e => ?_
    exact runMicro_readyTime_again (not_timedOut_at_start (s := { s with env := e }) ⟨unarmed, still.positive⟩ start) more []
  case completePolls =>
    refine run_polls hs unarmed script (m2 := .completePoll) (m3 := .completeTime) rfl rfl rfl rfl fun e => ?_
    exact runMicro_completeTime_early (not_timedOut_at_start (s := { s with env := e }) ⟨unarmed, still.positive⟩ start) []

end Sys2Proof.Proofs.StalledTransmission
end

section
/-! The framing statements of unit DSP (42_display_framing.md). A delay samples until its length has elapsed, which it never does while
the timer is not armed; and a whole framing primitive shows what its body shows. -/

namespace Sys2Proof.Proofs.DisplayFraming

open Sys2Proof.Machine Sys2Proof.Safety Sys2Proof.Proofs.Registers Sys2Proof.Proofs.TickClock Sys2Proof.Proofs.UartTx

/-! ## Delays -/

theorem runMicro_delayTest_elapsed {u : State} (h : Elapsed u) (k : DelayKind) (rest : List Micro) :
    runMicro (.delayTest k) rest u = .ok (logEvent (.wait k) u, rest) :=
  if_pos (elapsedAtLeast_iff.mpr h)

theorem runMicro_delayTest_early {u : State} (h : ¬ Elapsed u) (k : DelayKind) (rest : List Micro) :
    runMicro (.delayTest k) rest u = .ok (u, .delayTest k :: rest) :=
  if_neg (mt elapsedAtLeast_iff.mp h)

/-- The start of a delay is sampled (R130). -/
theorem exec_waitSample {i : Instr} {m : Micro} {rest : List Micro} {s : State} (h : s.seq = .busy i (.waitSample :: m :: rest)) :
    exec i s = .next { s with wStart := s.tick, seq := .busy i (m :: rest) } :=
  exec_busy_going h rfl (List.cons_ne_nil _ _)

/-- A delay sample that comes too early leaves the state as it was (R130). -/
theorem exec_delayTest_early {i : Instr} {k : DelayKind} {rest : List Micro} {s : State} (h : s.seq = .busy i (.delayTest k :: rest))
    (early : ¬ Elapsed s) : exec i s = .next s := by
  rw [exec_busy_going h (runMicro_delayTest_early early k rest) (List.cons_ne_nil _ _), ← h, withSeq_self]

/-- While the timer is not armed no sample comes later than the one that was too early (R210). -/
theorem delayTest_never_ends {k : DelayKind} {rest : List Micro} {s t : State} (unarmed : s.timerArmed = false)
    (early : ¬ Elapsed s) : ¬ MicroRun (.delayTest k :: rest) s t := by
  intro run
  generalize loop : Micro.delayTest k :: rest = ms at run
  induction run with
  | done s => cases loop
  | step n one _ ih =>
    cases loop
    rw [tickN_unarmed unarmed, runMicro_delayTest_early early] at one
    cases one
    exact ih unarmed early rfl

theorem hangsInDelay (i : Instr) : HangsInDelay i := by
  rintro u k rest h unarmed early ⟨t, whole⟩
  obtain ⟨v, run, -⟩ := microRun_of_completes whole _ _ h
  exact delayTest_never_ends unarmed (Nat.not_le.mpr early) run

/-- Settles O35: the two latches in turn, the two outcomes of a sample, and the hang. -/
theorem delayWaitsForItsLength : Obligations.DelayWaitsForItsLength := by
  unfold Obligations.DelayWaitsForItsLength
  refine fun i k m rest s a => ⟨fun h => ?latches, fun h => ?sample, hangsInDelay i⟩
  case latches => exact ⟨_, exec_busy_going h rfl (List.cons_ne_nil _ _), rfl, exec_waitSample (tickN_seq a _)⟩
  case sample =>
    split
    case isTrue elapsed => exact exec_busy_going h (runMicro_delayTest_elapsed elapsed k _) (List.cons_ne_nil _ _)
    case isFalse early => exact exec_delayTest_early h early

/-! ## Whole commands -/

/-- `Drives` says that SEQ is what it was. -/
theorem drives_withSeq {s t : State} {c d : Bool} {h : Byte} {n : BitVec 4} {evs : List Event} (x : Drives s t c d h n evs) :
    Drives s (withSeq s.seq t) c d h n evs := by
  obtain ⟨k, a, b, l, rfl, log⟩ := x
  exact ⟨k, a, b, l, rfl, log⟩

/-- A display command accepted by an idle FG can end if its body can, and its whole drives what its body does. -/
theorem completes_display {i : Instr} {body : List Micro} {s : State} {c d : Bool} {h : Byte} {n : BitVec 4} {evs : List Event}
    (display : isDisplay i = true) (idle : s.seq = .idle) (plan : planOf i s = .ok body) (nonempty : body ≠ [])
    (canEnd : CanEnd body) (drives : ∀ u, MicroRun body s u → Drives s u c d h n evs) :
    (s.timerArmed = true → ∃ t, Completes i s t) ∧ ∀ t, Completes i s t → Drives s t c d h n evs := by
  obtain ⟨m, ms, rfl⟩ := List.exists_cons_of_ne_nil nonempty
  constructor
  · intro armed
    obtain ⟨u, run, -⟩ := canEnd s armed
    exact ⟨_, (completes_idle idle plan).mpr ⟨u, run, rfl⟩⟩
  · intro t whole
    obtain ⟨u, run, rfl⟩ := (completes_idle idle plan).mp whole
    rw [complete_silent (response_display display u), ← idle]
    exact drives_withSeq (drives u run)

/-- Settles O36: the events of the start condition's body. -/
theorem dspStartMarksTheBegin : Obligations.DspStartMarksTheBegin := by
  unfold Obligations.DspStartMarksTheBegin
  exact ⟨rfl, hangsInDelay _, fun _ idle =>
    completes_display rfl idle rfl (List.cons_ne_nil _ _) canEnd_startBody fun _ => drives_startBody⟩

/-- Settles O37: the bit loop's cells, one for each bit in order. -/
theorem dspByteSendsLeastSignificantFirst : Obligations.DspByteSendsLeastSignificantFirst := by
  unfold Obligations.DspByteSendsLeastSignificantFirst
  refine fun value => ⟨rfl, hangsInDelay _, fun _ idle => ?_⟩
  rw [← cellEvents_eight]
  exact completes_display rfl idle rfl (List.cons_ne_nil _ _) (canEnd_byteBody value) fun _ => drives_byteBody

/-- Settles O38: the body of the slot writes the clock alone. -/
theorem dspAckLeavesTheDataLine : Obligations.DspAckLeavesTheDataLine := by
  unfold Obligations.DspAckLeavesTheDataLine
  exact ⟨rfl, hangsInDelay _, fun _ idle =>
    completes_display rfl idle rfl (List.cons_ne_nil _ _) canEnd_ackBody fun _ => drives_ackBody⟩

/-- Settles O39: the events of the stop condition's body. -/
theorem dspStopMarksTheEnd : Obligations.DspStopMarksTheEnd := by
  unfold Obligations.DspStopMarksTheEnd
  exact ⟨rfl, hangsInDelay _, fun _ idle =>
    completes_display rfl idle rfl (List.cons_ne_nil _ _) canEnd_stopBody fun _ => drives_stopBody⟩

/-- The eighth cell is the last: the bit loop's test fails after it (R132). -/
theorem runMicro_cntIncr_last {s : State} (seven : s.sbCnt = 7) (rest : List Micro) :
    runMicro .cntIncr rest s = .ok ({ s with sbCnt := 8 }, rest) := by
  simp [runMicro, bitLoop, seven]

/-- Settles O40: the first micro-step of each plan, and the micro-step after which nothing of it remains. -/
theorem framingCommandsBeginAndEnd : Obligations.FramingCommandsBeginAndEnd := by
  unfold Obligations.FramingCommandsBeginAndEnd
  refine fun value s => ⟨fun idle => ⟨?start, ?byte, ?ack, ?stop⟩, fun h => exec_busy_last h rfl rfl,
    fun h seven => exec_busy_last h (runMicro_cntIncr_last seven []) rfl, fun h => exec_busy_last h rfl rfl,
    fun h => exec_busy_last h rfl rfl⟩
  all_goals exact (exec_idle_ok idle rfl).trans rfl

end Sys2Proof.Proofs.DisplayFraming
end

section
/-! The statements of the composite display commands (43_display_commands.md). Their micro-steps are transactions, after at most one
register write; so a whole command drives what its transactions drive, and a receiver reads them one after another. -/

namespace Sys2Proof.Proofs.DisplayCommands

open Sys2Proof.Machine Sys2Proof.Safety Sys2Proof.Proofs.Registers Sys2Proof.Proofs.TickClock Sys2Proof.Proofs.Divisor
  Sys2Proof.Proofs.DisplayFraming

/-! ## The events of transactions -/

theorem pinsAndWaits_append (l m : List Event) : pinsAndWaits (l ++ m) = pinsAndWaits l + pinsAndWaits m := by
  simp [pinsAndWaits]

/-- A byte with its acknowledge slot makes 27 pin events and 18 waits (R140). -/
theorem pinsAndWaits_byteCellEvents (bytes : List Byte) :
    pinsAndWaits (byteCellEvents bytes) = (27 * bytes.length, 18 * bytes.length) := by
  induction bytes with
  | nil => rfl
  | cons b bs ih =>
    have cons : byteCellEvents (b :: bs) = byteCellEvents [b] ++ byteCellEvents bs := by simp [byteCellEvents]
    have one : pinsAndWaits (byteCellEvents [b]) = (27, 18) := rfl
    rw [cons, pinsAndWaits_append, one, ih, List.length_cons, Prod.mk_add_mk]
    congr 1 <;> omega

/-- A transaction makes `3 + 27 n + 4` pin events and `1 + 18 n + 3` waits (R140). -/
theorem pinsAndWaits_txnEvents (bytes : List Byte) :
    pinsAndWaits (txnEvents bytes) = (3 + 27 * bytes.length + 4, 1 + 18 * bytes.length + 3) := by
  rw [txnEvents, pinsAndWaits_append, pinsAndWaits_append, pinsAndWaits_byteCellEvents]
  rfl

/-- A receiver reads a transaction from any pin levels (R137). -/
theorem receive_txn (clk dio : Bool) {a : List Byte} (ha : a ≠ []) : receive clk dio (txnEvents a) = [a] :=
  congrArg Receiver.received (see_txn a ha clk dio 0 0 [] [])

/-- A receiver reads three transactions in their order (R137). -/
theorem receive_threeTxn (clk dio : Bool) {a b c : List Byte} (ha : a ≠ []) (hb : b ≠ []) (hc : c ≠ []) :
    receive clk dio (txnEvents a ++ txnEvents b ++ txnEvents c) = [a, b, c] := by
  have read := see_txn a ha clk dio 0 0 [] []
  rw [between] at read
  rw [receive, List.foldl_append, List.foldl_append, read, see_txn b hb, see_txn c hc]
  rfl

/-! ## Frames of four digits -/

section
variable (bright : Byte) (d0 d1 d2 d3 : Fin 10) (colon : Bool)

/-- The bytes of a frame's second transaction (R141). -/
def digitBytes : List Byte := Config.display.cmdAddr :: frameBytes Config.display d0 d1 d2 d3 colon

/-- The micro-steps of a frame of legal digits (R141). -/
def frameSteps : List Micro :=
  txn [Config.display.cmdData] ++ txn (digitBytes d0 d1 d2 d3 colon) ++ txn [brightByte Config.display bright]

/-- The events a frame shows (R141). -/
def frameEvents : List Event :=
  txnEvents [Config.display.cmdData] ++ txnEvents (digitBytes d0 d1 d2 d3 colon) ++ txnEvents [brightByte Config.display bright]

theorem canEnd_frame : CanEnd (frameSteps bright d0 d1 d2 d3 colon) := canEnd_threeTxn _ _ _

theorem drives_frame {s t : State} (run : MicroRun (frameSteps bright d0 d1 d2 d3 colon) s t) :
    Drives s t true true 0 8 (frameEvents bright d0 d1 d2 d3 colon) :=
  drives_threeTxn (List.cons_ne_nil _ _) (List.cons_ne_nil _ _) (List.cons_ne_nil _ _) run

theorem receive_frame (clk dio : Bool) : receive clk dio (frameEvents bright d0 d1 d2 d3 colon) =
    [[Config.display.cmdData], digitBytes d0 d1 d2 d3 colon, [brightByte Config.display bright]] :=
  receive_threeTxn clk dio (List.cons_ne_nil _ _) (List.cons_ne_nil _ _) (List.cons_ne_nil _ _)

theorem pinsAndWaits_frame : pinsAndWaits (frameEvents bright d0 d1 d2 d3 colon) = (210, 138) := by
  rw [frameEvents, pinsAndWaits_append, pinsAndWaits_append, pinsAndWaits_txnEvents, pinsAndWaits_txnEvents, pinsAndWaits_txnEvents]
  rfl

end

/-! ## Operands -/

theorem exists_digit {d : Byte} (legal : d ≤ 9) : ∃ e : Fin 10, d = BitVec.ofNat 8 e :=
  ⟨⟨d.toNat, Nat.lt_succ_of_le legal⟩, by simp⟩

theorem exists_colon {c : Byte} (legal : c ≤ 1) : ∃ b : Bool, c = if b then 1 else 0 := by
  have zeroOrOne : c = 0 ∨ c = 1 := by bv_omega
  rcases zeroOrOne with rfl | rfl
  · exact ⟨false, rfl⟩
  · exact ⟨true, rfl⟩

theorem digit?_eq_none {d : Byte} (large : 9 < d) : digit? d = none :=
  dif_neg (Nat.not_lt.mpr large)

theorem colon?_eq_none {c : Byte} (large : 1 < c) : colon? c = none := by
  have notZero : c ≠ 0 := by bv_omega
  have notOne : c ≠ 1 := by bv_omega
  exact (if_neg notZero).trans (if_neg notOne)

/-- A decimal digit as the operand byte of itself (R144, R146). -/
theorem ofNat_digit {n : Nat} (small : n < 10) : BitVec.ofNat 8 n = BitVec.ofNat 8 (Fin.ofNat 10 n) := by
  rw [Fin.val_ofNat, Nat.mod_eq_of_lt small]

/-- Without a colon the four digits stand as the table has them (R80). -/
theorem frameBytes_colonOff (c : DisplayConsts) (d0 d1 d2 d3 : Fin 10) :
    frameBytes c d0 d1 d2 d3 false = [c.seg d0, c.seg d1, c.seg d2, c.seg d3] := by
  simp [frameBytes]

/-- A legal level is what the brightness mask lets through (R143 (b)). -/
theorem brightByte_legal {level : Byte} (legal : level ≤ 7) (c : DisplayConsts) : brightByte c level = c.cmdBright ||| level := by
  have masked : level &&& 7 = level := BitVec.eq_of_toNat_eq <|
    (Nat.and_two_pow_sub_one_eq_mod level.toNat 3).trans (Nat.mod_eq_of_lt (Nat.lt_succ_of_le legal))
  rw [brightByte, masked]

/-! ## Plans -/

/-- One illegal digit is enough, whatever the colon (R141). -/
theorem framePlan_digitOutOfRange (bright : Byte) {d0 d1 d2 d3 : Byte} (colon : Option Bool)
    (large : 9 < d0 ∨ 9 < d1 ∨ 9 < d2 ∨ 9 < d3) : framePlan bright d0 d1 d2 d3 colon = .error .digitOutOfRange := by
  unfold framePlan
  split
  next h0 h1 h2 h3 =>
    rcases large with h | h | h | h
    · cases (digit?_eq_none h).symm.trans h0
    · cases (digit?_eq_none h).symm.trans h1
    · cases (digit?_eq_none h).symm.trans h2
    · cases (digit?_eq_none h).symm.trans h3
  next => rfl

theorem framePlan_colonNotBoolean (bright : Byte) (d0 d1 d2 d3 : Fin 10) :
    framePlan bright (BitVec.ofNat 8 d0) (BitVec.ofNat 8 d1) (BitVec.ofNat 8 d2) (BitVec.ofNat 8 d3) none =
      .error .colonNotBoolean := by
  have digit : ∀ d : Fin 10, digit? (BitVec.ofNat 8 d) = some d := by decide
  simp only [framePlan, digit]

/-- Four decimal digits as a list are a frame of legal digits (R144, R146). -/
theorem digitsOf_decimal (bright : Byte) {n0 n1 n2 n3 : Nat} (h0 : n0 < 10) (h1 : n1 < 10) (h2 : n2 < 10) (h3 : n3 < 10)
    (colon : Bool) :
    digitsOf bright [BitVec.ofNat 8 n0, BitVec.ofNat 8 n1, BitVec.ofNat 8 n2, BitVec.ofNat 8 n3] (some colon) =
      .ok (frameSteps bright (Fin.ofNat 10 n0) (Fin.ofNat 10 n1) (Fin.ofNat 10 n2) (Fin.ofNat 10 n3) colon) := by
  rw [ofNat_digit h0, ofNat_digit h1, ofNat_digit h2, ofNat_digit h3]
  exact framePlan_legal bright _ _ _ _ colon

theorem planOf_dspDigits_legal (d0 d1 d2 d3 : Fin 10) (colon : Bool) (s : State) :
    planOf (.dspDigits (BitVec.ofNat 8 d0) (BitVec.ofNat 8 d1) (BitVec.ofNat 8 d2) (BitVec.ofNat 8 d3) (if colon then 1 else 0)) s =
      .ok (frameSteps s.bright d0 d1 d2 d3 colon) :=
  digitsPlan_legal s.bright d0 d1 d2 d3 colon

theorem planOf_dspBright_legal {level : Byte} (legal : level ≤ 7) (s : State) :
    planOf (.dspBright level) s = .ok (.brightSet level :: txn [brightByte Config.display level]) :=
  if_neg (BitVec.not_lt.mpr legal)

theorem planOf_dspCounter_legal {value : Half} (legal : value ≤ 9999) (s : State) :
    planOf (.dspCounter value) s = .ok (frameSteps s.bright (Fin.ofNat 10 (value.toNat / 1000))
      (Fin.ofNat 10 (value.toNat / 100 % 10)) (Fin.ofNat 10 (value.toNat / 10 % 10)) (Fin.ofNat 10 (value.toNat % 10)) false) := by
  have bound : value.toNat ≤ 9999 := legal
  refine (if_neg (BitVec.not_lt.mpr legal)).trans (digitsOf_decimal _ ?_ ?_ ?_ ?_ _) <;> omega

theorem planOf_dspClock_legal {hours minutes : Byte} (legalHours : hours ≤ 99) (legalMinutes : minutes ≤ 99) (s : State) :
    planOf (.dspClock hours minutes) s = .ok (.colonToggle :: frameSteps s.bright (Fin.ofNat 10 (hours.toNat / 10))
      (Fin.ofNat 10 (hours.toNat % 10)) (Fin.ofNat 10 (minutes.toNat / 10)) (Fin.ofNat 10 (minutes.toNat % 10)) (!s.colon)) := by
  have boundHours : hours.toNat ≤ 99 := legalHours
  have boundMinutes : minutes.toNat ≤ 99 := legalMinutes
  have legal : ¬ (99 < hours ∨ 99 < minutes) := not_or.mpr ⟨BitVec.not_lt.mpr legalHours, BitVec.not_lt.mpr legalMinutes⟩
  rw [planOf, planDspClock, if_neg legal, clockDigits, digitsOf_decimal] <;> omega

/-! ## Whole commands -/

/-- A display command that first makes a write that TMR has no part in, and then follows a body, drives what the body does from the
state with the write made. -/
theorem completes_afterWrite {i : Instr} {m : Micro} {body : List Micro} {s s' : State} {c d : Bool} {h : Byte} {k : BitVec 4}
    {evs : List Event} (display : isDisplay i = true) (idle : s.seq = .idle) (plan : planOf i s = .ok (m :: body))
    (write : ∀ n, runMicro m body (tickN n s) = .ok (tickN n s', body)) (idle' : s'.seq = .idle)
    (armed' : s'.timerArmed = s.timerArmed) (canEnd : CanEnd body) (drives : ∀ r u, MicroRun body r u → Drives r u c d h k evs) :
    (s.timerArmed = true → ∃ t, Completes i s t) ∧ ∀ t, Completes i s t → Drives s' t c d h k evs := by
  constructor
  · intro armed
    obtain ⟨u, run, -⟩ := canEnd (tickN 0 s') (by rw [tickN_timerArmed, armed', armed])
    exact ⟨_, (completes_idle idle plan).mpr ⟨u, .step 0 (write 0) run, rfl⟩⟩
  · intro t whole
    obtain ⟨u, run, rfl⟩ := (completes_idle idle plan).mp whole
    obtain ⟨n, v, rest, one, after⟩ := microRun_cons.mp run
    rw [write n] at one
    cases one
    rw [complete_silent (response_display display u), ← idle']
    exact drives_withSeq (drives_trans (drives_tickN n s') (drives _ _ after))

/-- `BRIGHT` is the sequencer's own: a tick before its write is a tick after it (R33, R101). -/
theorem runMicro_brightSet_tickN (v : Byte) (rest : List Micro) (s : State) (n : Nat) :
    runMicro (.brightSet v) rest (tickN n s) = .ok (tickN n { s with bright := v }, rest) := by
  rw [tickN_eq, tickN_eq]
  rfl

/-- `COLON` is the sequencer's own: a tick before its toggle is a tick after it (R34, R101). -/
theorem runMicro_colonToggle_tickN (rest : List Micro) (s : State) (n : Nat) :
    runMicro .colonToggle rest (tickN n s) = .ok (tickN n { s with colon := !s.colon }, rest) := by
  rw [tickN_eq, tickN_eq]
  rfl

/-! ## The statements -/

/-- Settles O41: legal operands give a frame, whose events are counted and read. -/
theorem digitsFrameReachesTheReceiver : Obligations.DigitsFrameReachesTheReceiver := by
  unfold Obligations.DigitsFrameReachesTheReceiver
  rintro d0 d1 d2 d3 colon i s rfl idle
  have plan := planOf_dspDigits_legal d0 d1 d2 d3 colon s
  obtain ⟨ends, driven⟩ := completes_display rfl idle plan (List.cons_ne_nil _ _)
    (canEnd_frame s.bright d0 d1 d2 d3 colon) (fun _ => drives_frame s.bright d0 d1 d2 d3 colon)
  exact ⟨ends, fun t whole => ⟨_, driven t whole, pinsAndWaits_frame s.bright d0 d1 d2 d3 colon,
    receive_frame s.bright d0 d1 d2 d3 colon _ _⟩⟩

/-- Settles O42: the digits are tested before the colon. -/
theorem digitsOutOfRangeAreRefused : Obligations.DigitsOutOfRangeAreRefused := by
  unfold Obligations.DigitsOutOfRangeAreRefused
  refine fun d0 d1 d2 d3 colon s idle => ⟨fun large => ?digit, fun ⟨h0, h1, h2, h3⟩ large => ?colon⟩
  case digit => exact exec_idle_refused idle (framePlan_digitOutOfRange s.bright (colon? colon) large)
  case colon =>
    obtain ⟨e0, rfl⟩ := exists_digit h0
    obtain ⟨e1, rfl⟩ := exists_digit h1
    obtain ⟨e2, rfl⟩ := exists_digit h2
    obtain ⟨e3, rfl⟩ := exists_digit h3
    refine exec_idle_refused idle ?_
    rw [planOf, planDspDigits, digitsPlan, colon?_eq_none large, framePlan_colonNotBoolean]

/-- Settles O43: the store is the first micro-step, and one transaction follows it. -/
theorem brightStoresThenSends : Obligations.BrightStoresThenSends := by
  unfold Obligations.BrightStoresThenSends
  refine fun level s => ⟨rfl, hangsInDelay _, fun idle =>
    ⟨fun large => exec_idle_refused idle (if_pos large), fun legal => ?accepted⟩⟩
  have plan := planOf_dspBright_legal legal s
  obtain ⟨ends, driven⟩ := completes_afterWrite (s' := { s with bright := level }) rfl idle plan
    (runMicro_brightSet_tickN level _ s) idle rfl (canEnd_txn _) (fun _ _ => drives_txn _ (List.cons_ne_nil _ _))
  refine ⟨⟨_, exec_idle_first idle plan rfl⟩, ends, fun t whole => ⟨_, driven t whole, pinsAndWaits_txnEvents _, ?_⟩⟩
  rw [receive_txn _ _ (List.cons_ne_nil _ _), brightByte_legal legal]

/-- Settles O44: the decimal digits give a frame without a colon. -/
theorem counterShowsDecimalDigits : Obligations.CounterShowsDecimalDigits := by
  unfold Obligations.CounterShowsDecimalDigits
  refine fun value s idle => ⟨fun large => exec_idle_refused idle (if_pos large), fun legal => ?accepted⟩
  have plan := planOf_dspCounter_legal legal s
  obtain ⟨ends, driven⟩ := completes_display rfl idle plan (List.cons_ne_nil _ _) (canEnd_frame _ _ _ _ _ _)
    (fun _ => drives_frame _ _ _ _ _ _)
  refine ⟨⟨_, exec_idle_first idle plan rfl⟩, ends, fun t whole => ⟨_, driven t whole, ?_⟩⟩
  rw [receive_frame, digitBytes, frameBytes_colonOff]
  rfl

/-- Settles O45: the toggle is the first micro-step, and a frame with the new `COLON` follows it. -/
theorem clockTogglesThenShows : Obligations.ClockTogglesThenShows := by
  unfold Obligations.ClockTogglesThenShows
  refine fun hours minutes s idle => ⟨fun large => exec_idle_refused idle (if_pos large), fun legalHours legalMinutes => ?accepted⟩
  have plan := planOf_dspClock_legal legalHours legalMinutes s
  obtain ⟨ends, driven⟩ := completes_afterWrite (s' := { s with colon := !s.colon }) rfl idle plan
    (runMicro_colonToggle_tickN _ s) idle rfl (canEnd_frame _ _ _ _ _ _) (fun _ _ => drives_frame _ _ _ _ _ _)
  exact ⟨⟨_, exec_idle_first idle plan rfl⟩, ends, fun t whole => ⟨_, driven t whole, receive_frame _ _ _ _ _ _ _ _⟩⟩

/-- Settles O46: nothing remains after the last raise of the data line, and no composite command delivers anything. -/
theorem compositeCommandsEnd : Obligations.CompositeCommandsEnd := by
  unfold Obligations.CompositeCommandsEnd
  intro i d0 d1 d2 d3 colon level hours minutes value s composite last
  have display : isDisplay i = true := by rcases composite with rfl | rfl | rfl | rfl <;> rfl
  exact exec_busy_last last rfl (response_display display _)

/-- Settles O47: legal operands give a frame, whose first micro-step drives the clock high. -/
theorem digitsBeginWithTheStartCondition : Obligations.DigitsBeginWithTheStartCondition := by
  unfold Obligations.DigitsBeginWithTheStartCondition
  intro d0 d1 d2 d3 colon s idle h0 h1 h2 h3 hc
  obtain ⟨e0, rfl⟩ := exists_digit h0
  obtain ⟨e1, rfl⟩ := exists_digit h1
  obtain ⟨e2, rfl⟩ := exists_digit h2
  obtain ⟨e3, rfl⟩ := exists_digit h3
  obtain ⟨c, rfl⟩ := exists_colon hc
  exact ⟨_, exec_idle_first idle (planOf_dspDigits_legal e0 e1 e2 e3 c s) rfl⟩

end Sys2Proof.Proofs.DisplayCommands
end

section
/-! The scheduler's statements (44_scheduler_host.md R160 to R165): where `exec` stops, and the commands the loop `Run()` issues. First
which micro-step and which call of `exec` can fault or be refused, and what each phase of the host brings to FG; then the statements. -/

namespace Sys2Proof.Proofs.SchedulerHost

open Sys2Proof.Machine Sys2Proof.Safety Sys2Proof.Proofs.Scope Sys2Proof.Proofs.Encoding Sys2Proof.Proofs.UartTx

/-! ## Stops -/

/-- A micro-step that faults is a write of a byte outside `TXBUF` (R51). -/
theorem runMicro_fault {m : Micro} {rest : List Micro} {s : State} {f : Fault} (one : runMicro m rest s = .error f) :
    m = .txWrite ∧ f = .txbufIndex ∧ s.txbuf.length ≤ s.txIdx.toNat := by
  by_cases write : m = .txWrite
  · subst write
    cases byte : s.txbuf[s.txIdx.toNat]? with
    | none =>
      have faults : runMicro .txWrite rest s = .error .txbufIndex := by simp only [runMicro, byte]
      cases faults.symm.trans one
      exact ⟨rfl, rfl, List.getElem?_eq_none_iff.mp byte⟩
    | some b => cases (runMicro_txWrite byte rest).symm.trans one
  · obtain ⟨u, r, next⟩ := runMicro_total write rest s
    cases next.symm.trans one

theorem advance_fault {i : Instr} {ms : List Micro} {s : State} {f : Fault} (stop : advance i ms s = .fault f) :
    f = .txbufIndex ∧ s.txbuf.length ≤ s.txIdx.toNat ∧ ∃ rest, ms = .txWrite :: rest := by
  cases ms with
  | nil => cases stop
  | cons m rest =>
    cases one : runMicro m rest s with
    | ok p => cases (advance_ok one).symm.trans stop
    | error g =>
      have faults : advance i (m :: rest) s = .fault g := by simp only [advance, one]
      cases faults.symm.trans stop
      obtain ⟨rfl, index, outside⟩ := runMicro_fault one
      exact ⟨index, outside, rest, rfl⟩

/-- Only a command in progress faults: an idle FG accepts or refuses what it is asked for. -/
theorem exec_fault {i : Instr} {s : State} {f : Fault} (stop : exec i s = .fault f) :
    ∃ ms, s.seq = .busy i ms ∧ advance i ms s = .fault f := by
  cases hs : s.seq with
  | idle =>
    obtain ⟨t, next⟩ := exec_idle_total hs i
    cases next.symm.trans stop
  | busy j ms =>
    by_cases same : j = i
    · subst same
      exact ⟨ms, rfl, (exec_busy hs).symm.trans stop⟩
    · cases (exec_busy_other hs same).symm.trans stop

/-- Only a command other than the one in progress is turned away (R165). -/
theorem exec_refused {i : Instr} {s : State} {r : Refusal} (stop : exec i s = .refused r) :
    r = .commandInProgress ∧ ∃ j rest, s.seq = .busy j rest ∧ j ≠ i := by
  cases hs : s.seq with
  | idle =>
    obtain ⟨t, next⟩ := exec_idle_total hs i
    cases next.symm.trans stop
  | busy j rest =>
    by_cases same : j = i
    · subst same
      exact absurd ((exec_busy hs).symm.trans stop) (advance_ne_refused j rest s r)
    · cases (exec_busy_other hs same).symm.trans stop
      exact ⟨rfl, j, rest, rfl, same⟩

/-! ## The host's move in `Run()` -/

/-- A command the host issues alone is what FG runs (R71). -/
theorem step_issue {s t : State} {i : Instr} (idle : s.seq = .idle) (wf : WellFormed i)
    (move : hostMove (tmr s) = .issue (encode i) t) : step s = exec i t :=
  step_fetch_run idle (by simp only [fetch, move, decode_encode wf, keepRest])

/-- When the host issues nothing, its move is the whole of the step after TMR's part. -/
theorem step_quiet {s t : State} (idle : s.seq = .idle) (move : hostMove (tmr s) = .quiet t) : step s = .next t := by
  simp only [step, tmr_seq, idle, fetch, move]

/-- A host with a ready oscillator and nothing queued, at a point of its program (R160). -/
structure HostAt (p : HostPhase) (s : State) : Prop where
  ready : s.host.oscReady = true
  queue : s.host.queue = []
  phase : s.host.phase = p

theorem HostAt.tmr {p : HostPhase} {s : State} (h : HostAt p s) : HostAt p (tmr s) :=
  ⟨by rw [tmr_host, h.ready], by rw [tmr_host, h.queue], by rw [tmr_host, h.phase]⟩

theorem hostMove_runWait {s : State} {n : Nat} (h : HostAt (.runWait n) s) :
    hostMove s = .issue (encode (.tickWait Config.iterDelay)) (setPhase (.runTask n 0 0) s) := by
  simp only [hostMove, h.ready, h.queue, h.phase, if_true]

/-- In a Task the host issues what the Task's `run_once` asks for next (R161). -/
theorem hostMove_taskCommand {s : State} {n task k : Nat} {i : { i : Instr // WellFormed i }} (h : HostAt (.runTask n task k) s)
    (listed : task < Config.taskCount) (command : Config.taskCommand task n k s.host.received = some i) :
    hostMove s = .issue (encode i.val) (setPhase (.runTask n task (k + 1)) s) := by
  simp only [hostMove, h.ready, h.queue, h.phase, if_pos listed, command, if_true]

theorem hostMove_taskEnded {s : State} {n task k : Nat} (h : HostAt (.runTask n task k) s) (listed : task < Config.taskCount)
    (ended : Config.taskCommand task n k s.host.received = none) :
    hostMove s = .quiet (setPhase (.runTask n (task + 1) 0) s) := by
  simp only [hostMove, h.ready, h.queue, h.phase, if_pos listed, ended, if_true]

theorem hostMove_listEnded {s : State} {n task k : Nat} (h : HostAt (.runTask n task k) s) (past : ¬ task < Config.taskCount) :
    hostMove s = .quiet (setPhase (.runWait (n + 1)) s) := by
  simp only [hostMove, h.ready, h.queue, h.phase, if_neg past, if_true]

/-! ## The statements -/

/-- Settles O52: an idle FG answers a next state, a command in progress faults only at its byte write, and any other command is turned
away. -/
theorem stopsAreTheseTwo : Obligations.StopsAreTheseTwo := by
  unfold Obligations.StopsAreTheseTwo
  refine ⟨fun i j s rest => exec_busy_other, fun i s r => exec_refused, fun i s f stop => ?fault⟩
  obtain ⟨ms, busy, stopped⟩ := exec_fault stop
  obtain ⟨index, outside, rest, rfl⟩ := advance_fault stopped
  exact ⟨index, outside, rest, busy⟩

/-- Settles O58: the host's move in each phase of the loop, read after TMR's part of the step, which leaves the host as it was. -/
theorem runWaitsThenRunsTasksInOrder : Obligations.RunWaitsThenRunsTasksInOrder := by
  unfold Obligations.RunWaitsThenRunsTasksInOrder
  refine fun s n task k idle ready queue => ⟨fun phase => ?wait, fun phase => ?task⟩
  case wait => exact step_issue idle rfl (hostMove_runWait (HostAt.tmr ⟨ready, queue, phase⟩))
  case task =>
    have host : HostAt (.runTask n task k) (tmr s) := HostAt.tmr ⟨ready, queue, phase⟩
    by_cases listed : task < Config.taskCount
    · rw [if_pos listed, ← tmr_host s]
      cases command : Config.taskCommand task n k (tmr s).host.received with
      | some i => exact step_issue idle i.property (hostMove_taskCommand host listed command)
      | none => exact step_quiet idle (hostMove_taskEnded host listed command)
    · rw [if_neg listed]
      exact step_quiet idle (hostMove_listEnded host listed)

end Sys2Proof.Proofs.SchedulerHost
end

section
/-! The exception statements (60_exceptions.md): what a refusal leaves behind, and what the tick interrupt may touch. The mark `refusals`
is written by the sequencer's refusal alone, so an answer of `exec` with another mark is a refusal, and only an idle FG refuses. -/

namespace Sys2Proof.Proofs.Exceptions

open Sys2Proof.Machine

/-! ## Refusals -/

@[simp] theorem setPin_refusals (p : Pin) (v : Bool) (s : State) : (setPin p v s).refusals = s.refusals := by cases p <;> rfl

@[simp] theorem settle_refusals (i : Instr) (u : State) (r : List Micro) : (settle i u r).refusals = u.refusals := by
  cases r <;> rfl

theorem runMicro_refusals {m : Micro} {rest r : List Micro} {s u : State} (one : runMicro m rest s = .ok (u, r)) :
    u.refusals = s.refusals := by
  refine runMicro_cases one (fun k _ _ e => ?ended) (fun k _ e => ?goesOn) (fun b _ _ e => ?written) (fun noDelay noWrite => ?plain)
  case ended => rw [e, logEvent_refusals]
  case goesOn => rw [e]
  case written => rw [e, uartWrite_refusals]
  case plain =>
    cases m
    case delayTest k => exact absurd rfl (noDelay k)
    case txWrite => exact absurd rfl noWrite
    all_goals cases one; simp

/-- A command under way leaves the mark as it is: its operand tests came before its first micro-step (R178 (c)). -/
theorem advance_refusals {i : Instr} {ms : List Micro} {s t : State} (h : advance i ms s = .next t) : t.refusals = s.refusals := by
  cases ms with
  | nil =>
    cases h
    exact complete_refusals i s
  | cons m rest =>
    obtain ⟨u, r, one, rfl⟩ := advance_next h
    rw [settle_refusals, runMicro_refusals one]

theorem refuse_of_idle {s : State} (idle : s.seq = .idle) (r : RefusalReason) :
    refuse r s = { s with refusals := s.refusals ++ [r] } := by rw [refuse, ← idle]

/-- Settles O48: of the three things `exec` can do, a micro-step keeps the mark, so what is left is the refusal by an idle FG. -/
theorem refusedCommandsChangeNothing : Obligations.RefusedCommandsChangeNothing := by
  unfold Obligations.RefusedCommandsChangeNothing
  intro i s t h marked
  rcases exec_next h with ⟨idle, r, -, rfl⟩ | ⟨-, ms, -, first⟩ | ⟨rest, -, next⟩
  · exact ⟨idle, r, refuse_of_idle idle r⟩
  · exact absurd (advance_refusals first) marked
  · exact absurd (advance_refusals next) marked

/-! ## The tick interrupt -/

/-- Settles O9: in closed form TMR's steps write `TICK` and append Tick events to `LOG`, nothing else. -/
theorem ticksChangeNothingElse : Obligations.TicksChangeNothingElse := by
  unfold Obligations.TicksChangeNothingElse
  exact fun n s => ⟨by rw [tickN_eq], visible_tickN n s⟩

end Sys2Proof.Proofs.Exceptions
end

section
/-! The reset statements (70_reset_and_hazards.md sections 1 and 2): the invariant of every run at reset, and the wait without end of a host
whose oscillator never becomes ready. -/

namespace Sys2Proof.Proofs.ResetHazards

open Sys2Proof.Machine Sys2Proof.Safety Sys2Proof.Proofs.Registers Sys2Proof.Proofs.SchedulerHost

/-- Settles O49: by the reset column the timer is unarmed, `BRIGHT` legal, `TX_STATE` IDLE, and no command is under way. -/
theorem invHoldsAtReset : Obligations.InvHoldsAtReset := by
  unfold Obligations.InvHoldsAtReset
  obtain ⟨seq, unarmed, -, -, txState, -, bright, -⟩ := resetValues
  exact {
    bright := bright
    period := fun armed => absurd (unarmed.symm.trans armed) Bool.false_ne_true
    idle := fun _ => txState
    busy := fun i rest busy => nomatch seq.symm.trans busy }

/-! ## The oscillator -/

/-- Without a ready oscillator the host never issues a command (R206). -/
theorem hostMove_notReady {s : State} (notReady : s.host.oscReady = false) : hostMove s = .quiet s := by
  rw [hostMove, notReady, if_neg Bool.false_ne_true]

/-- With an unarmed timer as well, neither TMR nor the host moves an idle block. -/
theorem step_notReady {s : State} (notReady : s.host.oscReady = false) (idle : s.seq = .idle) (unarmed : s.timerArmed = false) :
    step s = .next s :=
  step_quiet idle (by rw [tmr_unarmed unarmed, hostMove_notReady notReady])

/-- Settles O59: the state is a fixed point of `step`. -/
theorem oscillatorFailureHangs : Obligations.OscillatorFailureHangs := by
  unfold Obligations.OscillatorFailureHangs
  exact fun s k notReady idle unarmed => run_fixed (M := core) (step_notReady notReady idle unarmed) k

end Sys2Proof.Proofs.ResetHazards
end
